-- ==== Sys2Proof/Word.lean ====
section
/-! DEFINITION. The word types of the TMBB and the group of four digit positions. -/

namespace Sys2Proof

/-- A SegmentPattern or a command byte: "an 8-bit value" (10_state.md R22). -/
abbrev Byte := BitVec 8

/-- A host command word (30_encoding.md R65). -/
abbrev CommandWord := BitVec 20

/-- Four like things, one per digit position: index 0 is the thousands digit (10_state.md R21). -/
structure Quad (α : Type) where
  q0 : α
  q1 : α
  q2 : α
  q3 : α
  deriving DecidableEq, Repr

def Quad.map {α β : Type} (f : α → β) (q : Quad α) : Quad β :=
  { q0 := f q.q0, q1 := f q.q1, q2 := f q.q2, q3 := f q.q3 }

def Quad.fill {α : Type} (a : α) : Quad α := { q0 := a, q1 := a, q2 := a, q3 := a }

def Quad.toList {α : Type} (q : Quad α) : List α := [q.q0, q.q1, q.q2, q.q3]

end Sys2Proof
end

