-- ==== Sys2Proof/Syntax.lean ====
section
/-! DEFINITION. The instructions: one constructor per row of spec/opcode_table.json. -/

namespace Sys2Proof

/-- The two lines of the bus (00_scope.md R15). -/
inductive Line where
  | clk
  | dio
  deriving DecidableEq, Repr

/-- The host's commands (30_encoding.md R66, R67), the reserved opcode space (R69), and the four
classes of wire byte (R73 to R76), which are the slave's instructions. -/
inductive Instr where
  /-- REL: release a line (40_line_and_delay.md R80). -/
  | rel (l : Line)
  /-- LOW: assert a line low (40_line_and_delay.md R81). -/
  | low (l : Line)
  /-- WAIT: one delay unit (40_line_and_delay.md R83). -/
  | wait
  /-- START: start condition (41_bus_protocol.md R90). -/
  | start
  /-- STOP: stop condition (41_bus_protocol.md R94). -/
  | stop
  /-- WRB: write one byte with an acknowledge bit time (41_bus_protocol.md R91). -/
  | wrb (b : Byte)
  /-- ENC: segment lookup (42_segment_encoder.md R100); 10..15 can be encoded. -/
  | enc (d : BitVec 4)
  /-- SHOW: show a four-digit number (43_sequencer.md R106). -/
  | showNum (n : BitVec 16)
  /-- RESERVED: OP 0x8..0xF, with the word's other 19 bits (30_encoding.md R69). -/
  | reserved (low : BitVec 19)
  /-- CMD_DATA: the wire byte 0x40 (30_encoding.md R73). -/
  | cmdData
  /-- CMD_ADDR: the wire byte 0xC0 (30_encoding.md R74). -/
  | cmdAddr
  /-- CMD_DISP: the wire byte 0x88 | b (30_encoding.md R75). -/
  | cmdDisp (b : BitVec 3)
  /-- SEG_DATA: a pattern byte of transaction B (30_encoding.md R76). -/
  | segData (p : Byte)
  deriving DecidableEq, Repr

end Sys2Proof
end

