-- ==== Sys2Proof/WellFormed.lean ====
section
/-! DEFINITION. Which instructions are legal operations with legal operand values. -/

namespace Sys2Proof

/-- Legal in the sense of 30_encoding.md R67, R69 and R71: a reserved opcode is illegal, and an ENC digit
is legal in 0..9 only. Every other operand may have every value of its field. The decoder gives the
instructions this refuses too, and the machine runs them: each takes the fault the spec gives it. -/
def Instr.wellFormed : Instr → Bool
  | .rel _ => true
  | .low _ => true
  | .wait => true
  | .start => true
  | .stop => true
  | .wrb _ => true
  | .enc d => decide (d.toNat ≤ 9)
  | .showNum _ => true
  | .reserved _ => false
  | .cmdData => true
  | .cmdAddr => true
  | .cmdDisp _ => true
  | .segData _ => true

end Sys2Proof
end

