-- ==== Sys2Proof/Decode.lean ====
section
/-! DEFINITION. The decoder of command words and wire bytes, total and rejecting by name, and the encoder. -/

namespace Sys2Proof

/-- An encoded instruction, with the place it is read at. A wire byte means a command when it is the
first byte of a frame and a pattern when it comes after CMD_ADDR (30_encoding.md R72, R76). -/
inductive Code where
  | word (w : CommandWord)
  | commandByte (b : Byte)
  | dataByte (b : Byte)
  deriving DecidableEq, Repr

/-- Why a code is no instruction. -/
inductive Reject where
  /-- A must-be-0 bit of 30_encoding.md R67 is set. -/
  | mustBeZero
  /-- A frame's first byte is none of the three command bytes (30_encoding.md R77). -/
  | unknownCommandByte
  deriving DecidableEq, Repr

inductive Decoded where
  | instr (i : Instr)
  | rejected (r : Reject)
  deriving DecidableEq, Repr

def Decoded.instr? : Decoded → Option Instr
  | .instr i => some i
  | .rejected _ => none

/-- `OP`, bits 19:16 (30_encoding.md R65). -/
def opField (w : CommandWord) : BitVec 4 := w.extractLsb' 16 4

/-- `ARG`, bits 15:0 (30_encoding.md R65). -/
def argField (w : CommandWord) : BitVec 16 := w.extractLsb' 0 16

/-- The line selector: 0 = CLK, 1 = DIO (30_encoding.md R67). -/
def lineOfBit (b : Bool) : Line := if b then .dio else .clk

def bitOfLine : Line → BitVec 1
  | .clk => 0#1
  | .dio => 1#1

/-- Accepts `i` if the must-be-0 field is zero (30_encoding.md R69). -/
def requireZero {k : Nat} (field : BitVec k) (i : Instr) : Decoded :=
  if field = 0#k then .instr i else .rejected .mustBeZero

/-- The opcode map of 30_encoding.md R66 with the operand fields of R67; the opcode is looked at first
and the must-be-0 bits second (R70). The range of an ENC digit is ENC's own check. -/
def decodeWord (w : CommandWord) : Decoded :=
  let arg := argField w
  match (opField w).toNat with
  | 0 => requireZero (arg.extractLsb' 1 15) (.rel (lineOfBit (arg.getLsbD 0)))
  | 1 => requireZero (arg.extractLsb' 1 15) (.low (lineOfBit (arg.getLsbD 0)))
  | 2 => requireZero arg .wait
  | 3 => requireZero arg .start
  | 4 => requireZero arg .stop
  | 5 => requireZero (arg.extractLsb' 8 8) (.wrb (arg.extractLsb' 0 8))
  | 6 => requireZero (arg.extractLsb' 4 12) (.enc (arg.extractLsb' 0 4))
  | 7 => .instr (.showNum arg)
  | _ => .instr (.reserved (w.extractLsb' 0 19))

/-- The command bytes by match and mask (30_encoding.md R73 to R75). -/
def decodeCommandByte (b : Byte) : Decoded :=
  if b = 0x40#8 then .instr .cmdData
  else if b = 0xC0#8 then .instr .cmdAddr
  else if b &&& 0xF8#8 = 0x88#8 then .instr (.cmdDisp (b.extractLsb' 0 3))
  else .rejected .unknownCommandByte

/-- Total on every code (30_encoding.md R71). Any byte may be a pattern (R76). -/
def decode : Code → Decoded
  | .word w => decodeWord w
  | .commandByte b => decodeCommandByte b
  | .dataByte b => .instr (.segData b)

/-- The code of an instruction, from the same tables (30_encoding.md R65 to R67, R73 to R76). -/
def encode : Instr → Code
  | .rel l => .word (0x0#4 ++ 0#15 ++ bitOfLine l)
  | .low l => .word (0x1#4 ++ 0#15 ++ bitOfLine l)
  | .wait => .word (0x2#4 ++ 0#16)
  | .start => .word (0x3#4 ++ 0#16)
  | .stop => .word (0x4#4 ++ 0#16)
  | .wrb b => .word (0x5#4 ++ 0#8 ++ b)
  | .enc d => .word (0x6#4 ++ 0#12 ++ d)
  | .showNum n => .word (0x7#4 ++ n)
  | .reserved low => .word (1#1 ++ low)
  | .cmdData => .commandByte 0x40#8
  | .cmdAddr => .commandByte 0xC0#8
  | .cmdDisp b => .commandByte (0b10001#5 ++ b)
  | .segData p => .dataByte p

/-- One row of spec/opcode_table.json. -/
structure OpcodeRow where
  mnemonic : String
  width : Nat
  value : Nat
  mask : Nat
  deriving DecidableEq, Repr

/-- The table's command-word rows: match and mask, letter for letter. -/
def commandRows : List OpcodeRow :=
  [ ⟨"REL", 20, 0x00000, 0xFFFFE⟩, ⟨"LOW", 20, 0x10000, 0xFFFFE⟩, ⟨"WAIT", 20, 0x20000, 0xFFFFF⟩,
    ⟨"START", 20, 0x30000, 0xFFFFF⟩, ⟨"STOP", 20, 0x40000, 0xFFFFF⟩, ⟨"WRB", 20, 0x50000, 0xFFF00⟩,
    ⟨"ENC", 20, 0x60000, 0xFFFF0⟩, ⟨"SHOW", 20, 0x70000, 0xF0000⟩, ⟨"RESERVED", 20, 0x80000, 0x80000⟩ ]

/-- The table's rows for the first byte of a frame (30_encoding.md R72 to R75). -/
def commandByteRows : List OpcodeRow :=
  [ ⟨"CMD_DATA", 8, 0x40, 0xFF⟩, ⟨"CMD_ADDR", 8, 0xC0, 0xFF⟩, ⟨"CMD_DISP", 8, 0x88, 0xF8⟩ ]

/-- The table's row for a byte after CMD_ADDR (30_encoding.md R76). -/
def dataByteRows : List OpcodeRow := [ ⟨"SEG_DATA", 8, 0x00, 0x00⟩ ]

/-- The table's rows for a code, by the place it is read at. -/
def Code.rows : Code → List OpcodeRow
  | .word _ => commandRows
  | .commandByte _ => commandByteRows
  | .dataByte _ => dataByteRows

/-- The bits of a code as one number, bit 0 the least significant. -/
def Code.bits : Code → Nat
  | .word w => w.toNat
  | .commandByte b => b.toNat
  | .dataByte b => b.toNat

def OpcodeRow.holds (r : OpcodeRow) (bits : Nat) : Bool := bits &&& r.mask == r.value

/-- Some bit that both rows fix has different values in them, so no word is in both. -/
def OpcodeRow.disjoint (r q : OpcodeRow) : Bool := r.value &&& q.mask != q.value &&& r.mask

/-- The row of an instruction. -/
def Instr.mnemonic : Instr → String
  | .rel _ => "REL"
  | .low _ => "LOW"
  | .wait => "WAIT"
  | .start => "START"
  | .stop => "STOP"
  | .wrb _ => "WRB"
  | .enc _ => "ENC"
  | .showNum _ => "SHOW"
  | .reserved _ => "RESERVED"
  | .cmdData => "CMD_DATA"
  | .cmdAddr => "CMD_ADDR"
  | .cmdDisp _ => "CMD_DISP"
  | .segData _ => "SEG_DATA"

/-- A lone wire byte: a command byte where it is one, else a pattern byte (entry 21). -/
def decodeLoneByte (b : Byte) : Instr :=
  match decode (.commandByte b) with
  | .instr i => i
  | .rejected _ => .segData b

/-- The decoder on the table's numbering: a row of at most 8 bits is a wire byte, any other is a
20-bit command word; a number wider than its code is no code (30_encoding.md R71). -/
def decodeTableWord (nbits w : Nat) : Option Instr :=
  if nbits ≤ 8 then
    if w < 2 ^ 8 then some (decodeLoneByte (BitVec.ofNat 8 w)) else none
  else if w < 2 ^ 20 then (decode (.word (BitVec.ofNat 20 w))).instr? else none

end Sys2Proof
end

