-- ==== Sys2Proof/Config.lean ====
section
/-! DEFINITION. The configuration: the constants the spec fixes, the open parameters and the free values. -/

namespace Sys2Proof

/-- A line direction: released (high impedance) or asserted low. Driving high has no constructor, so
it cannot be represented (10_state.md R24, 40_line_and_delay.md R87). -/
inductive Dir where
  | released
  | assertedLow
  deriving DecidableEq, Repr, Inhabited

namespace Config

/-- `CMD_DATA` (00_scope.md R8, 30_encoding.md R73). -/
def cmdData : Byte := 0x40#8

/-- `CMD_ADDR` (00_scope.md R8, 30_encoding.md R74). -/
def cmdAddr : Byte := 0xC0#8

/-- `CMD_DISP_BASE` (00_scope.md R8, 30_encoding.md R75). -/
def cmdDispBase : Byte := 0x88#8

/-- `BITS_PER_BYTE` (00_scope.md R8). -/
def bitsPerByte : Nat := 8

/-- `NDIGITS` (00_scope.md R8): the display positions, addresses 0..3 (20_memory.md R62). -/
def ndigits : Nat := 4

/-- `SEG_TABLE`, OPEN: nothing but its shape may be assumed (20_memory.md R45, R48; entry 1). -/
opaque segTable : Fin 10 → Byte

/-- `BRIGHTNESS`, OPEN in 0..7 (00_scope.md R8, 43_sequencer.md R109; entry 2). -/
opaque brightness : BitVec 3

/-- `RESET_LINES`, OPEN (00_scope.md R8, 70_reset_and_hazards.md R130; entry 3). -/
opaque resetLines : Dir

/-- `DELAY_UNIT_US`, OPEN: the least duration of one WAIT, in microseconds (00_scope.md R8, 40_line_and_delay.md
R84). DESIGN CHOICE: a whole number of them, since the spec gives the duration no type (entry 4). -/
opaque delayUnitUs : Nat

/-- The TM1637's minimum setup and hold time, which no source gives (91_not_in_source.md N4). DESIGN CHOICE: one
whole number of microseconds for both, since the spec gives it no type and no unit (entry 4). -/
opaque slaveMinTimeUs : Nat

/-- The obligation on the configuration that 00_scope.md R8 and 70_reset_and_hazards.md R133 carry. -/
def Adequate : Prop := slaveMinTimeUs ≤ delayUnitUs

/-- FREE VALUE: the slave's choice of its pull, any value (10_state.md R42, 20_memory.md R54;
entries 6 and 7). The argument is a counter in State. -/
opaque slaveDraw : Nat → Bool

/-- FREE VALUES: what a read of SR or BC gives while it holds `⊥`, any value (93_implementation_defined.md
U13; entry 29). The argument is the count of such reads in State. -/
opaque unwrittenSR : Nat → Byte
opaque unwrittenBC : Nat → BitVec 4

/-- Named instantiations of `SEG_TABLE`, for test vectors only (20_memory.md R49). No definition of
the machine uses one. -/
def segRefA (d : Fin 10) : Byte :=
  [0x7E#8, 0x0C#8, 0xB6#8, 0x9E#8, 0xCC#8, 0xDA#8, 0xFA#8, 0x0E#8, 0xFE#8, 0xDE#8].getD d.val 0#8

def segRefB (d : Fin 10) : Byte :=
  [0xFC#8, 0x60#8, 0xDA#8, 0xF2#8, 0x66#8, 0xB6#8, 0xBE#8, 0xE0#8, 0xFE#8, 0xF6#8].getD d.val 0#8

def segTmStd (d : Fin 10) : Byte :=
  [0x3F#8, 0x06#8, 0x5B#8, 0x4F#8, 0x66#8, 0x6D#8, 0x7D#8, 0x07#8, 0x7F#8, 0x6F#8].getD d.val 0#8

end Config

end Sys2Proof
end

