-- ==== Sys2Proof/Machine/State.lean ====
section
/-! DEFINITION. The state of the TMBB, its bus, the slave's observer and the host's inputs; why a step stops. -/

namespace Sys2Proof.Machine

/-- The fault register's values (10_state.md R32, 60_exceptions.md R116). -/
inductive FaultKind where
  | none
  | invalidDigit
  | illegalCommand
  deriving DecidableEq, Repr

/-- The micro-ops the sequencer holds (10_state.md R28): "No other micro-op exists". -/
inductive MicroOp where
  | rel (l : Line)
  | low (l : Line)
  | wait
  | sample
  | loadSR (b : Byte)
  | outBit
  | shift
  | endFrame
  deriving DecidableEq, Repr

/-- The events of the wire trace (10_state.md R38). -/
inductive Event where
  | rel (l : Line)
  | low (l : Line)
  | wait
  | sample (v : Bool)
  deriving DecidableEq, Repr

/-- The two line directions (10_state.md R24). -/
structure Lines where
  clk : Dir
  dio : Dir
  deriving DecidableEq, Repr

/-- A decoded frame: its bytes with their acknowledge bits (20_memory.md R56). -/
abbrev Frame := List (Byte × Bool)

/-- The wire decoder (20_memory.md R56), with the two levels it last saw (R55). -/
structure Decoder where
  clk : Bool
  dio : Bool
  inFrame : Bool
  bits : List Bool
  cur : Frame
  frames : List Frame
  deriving DecidableEq, Repr

/-- The slave as an environment agent: its pull on DIO (10_state.md R40), whether an acknowledge
window is open (20_memory.md R54), its coming choices, and the counter of the free values that
stand for a choice beyond them (entries 6 to 8). -/
structure Slave where
  pull : Bool
  window : Bool
  moves : List Bool
  draws : Nat
  deriving DecidableEq, Repr

/-- The slave's display memory: (address, byte) pairs, addresses strictly rising and below 4. An
unlisted address reads as `⊥` (20_memory.md R61; entry 23). -/
structure Memory where
  cells : List Host.Cell
  deriving DecidableEq, Repr

/-- The observer's data mode (20_memory.md R61). -/
inductive DisplayMode where
  | autoIncWrite
  deriving DecidableEq, Repr

/-- The slave display observer (20_memory.md R61), `none` being `⊥`; how often it has refused
(entry 17); and the frames and data bytes it has not read yet (entry 15). -/
structure Display where
  mode : Option DisplayMode
  addr : Option Nat
  ram : Memory
  dispOn : Option Bool
  bright : Option (BitVec 3)
  refusals : Nat
  inbox : List (List Byte)
  data : List Byte
  deriving DecidableEq, Repr

/-- The host's side: the words it will present (10_state.md R35; entry 10) and the reset line's level
at the coming steps (70_reset_and_hazards.md R130; entry 12). -/
structure HostPort where
  words : List CommandWord
  resetLine : List Bool
  deriving DecidableEq, Repr

/-- The state tuple of 10_state.md R20 (`none` is the spec's `⊥`, entry 5), the observation (R38), and
the environment. `unwrittenReads` counts the reads of a register at `⊥`, each "a fault of the model"
(00_scope.md R11), and makes the free value each of them gives a fresh one (entry 29). -/
structure State where
  dir : Lines
  sr : Option Byte
  bc : Option (BitVec 4)
  ack : Option Bool
  n : Option (BitVec 16)
  d : Quad (Option (BitVec 4))
  p : Quad (Option Byte)
  segout : Option Byte
  seq : List MicroOp
  fault : FaultKind
  trace : List Event
  pulls : List Bool
  decoder : Decoder
  slave : Slave
  display : Display
  port : HostPort
  unwrittenReads : Nat
  deriving DecidableEq, Repr

/-- Why the machine stops with a fault: it never does. InvalidDigit and IllegalCommand are next states
(60_exceptions.md R115), and a read of `⊥` goes on with a free value (entry 29). -/
inductive Fault where
  deriving DecidableEq, Repr

/-- Why the machine has no step. -/
inductive Refusal where
  /-- Answered by exec for an instruction that has no meaning yet. Safe. -/
  | notModelled (mnemonic : String)
  /-- A command word presented while SEQ is not empty: "it has no step" (10_state.md R35). Answered by
  every command's meaning; safe. -/
  | busy
  /-- A command word presented while FAULT is not None (10_state.md R35, 60_exceptions.md R119).
  Answered by every command's meaning and by step; safe. -/
  | faulted
  /-- The block is idle and the host presents nothing: "the controller has no step; it waits for a
  host command" (10_state.md R29). Answered by step; safe. -/
  | noCommand
  deriving DecidableEq, Repr

/-- The level of a line that only the controller drives, by the wired-AND (20_memory.md R54). -/
def Dir.level : Dir → Bool
  | .released => true
  | .assertedLow => false

/-- The decoder at the start of a run: the levels are those the lines give with slave_pull = 0, and
nothing has been received (20_memory.md R56, 70_reset_and_hazards.md R130). -/
def Decoder.initial (dir : Lines) : Decoder :=
  { clk := Dir.level dir.clk, dio := Dir.level dir.dio, inFrame := false, bits := [], cur := [], frames := [] }

/-- The observer at the start of a run: "All start at ⊥" (20_memory.md R61). -/
def Display.initial : Display :=
  { mode := none, addr := none, ram := { cells := [] }, dispOn := none, bright := none, refusals := 0,
    inbox := [], data := [] }

/-- Both lines in the direction `RESET_LINES` (70_reset_and_hazards.md R130). -/
def Lines.atReset : Lines := { clk := Config.resetLines, dio := Config.resetLines }

/-- The state right after reset (10_state.md R42, 70_reset_and_hazards.md R130). slave_pull is any
value (entry 6), and the host has presented nothing (entry 28). -/
def State.reset : State :=
  { dir := Lines.atReset
    sr := none
    bc := none
    ack := none
    n := none
    d := Quad.fill none
    p := Quad.fill none
    segout := none
    seq := []
    fault := .none
    trace := []
    pulls := []
    decoder := Decoder.initial Lines.atReset
    slave := { pull := Config.slaveDraw 0, window := false, moves := [], draws := 1 }
    display := Display.initial
    port := { words := [], resetLine := [] }
    unwrittenReads := 0 }

end Sys2Proof.Machine
end

