-- ==== Sys2Proof/Machine/Flags.lean ====
section
/-! DEFINITION. The block has no flags (10_state.md R23); here are its status outputs, fault codes and pins. -/

namespace Sys2Proof.Machine

/-- `BUSY = (SEQ ≠ [])` (10_state.md R36). -/
def State.busy (s : State) : Bool := !s.seq.isEmpty

/-- The codes of 60_exceptions.md R116. -/
def FaultKind.code : FaultKind → Nat
  | .none => 0
  | .invalidDigit => 1
  | .illegalCommand => 2

/-- What the host can read: BUSY, FAULT and SEGOUT (10_state.md R34, R36). -/
structure HostStatus where
  busy : Bool
  fault : FaultKind
  segout : Option Byte
  deriving DecidableEq, Repr

def State.hostStatus (s : State) : HostStatus := { busy := s.busy, fault := s.fault, segout := s.segout }

/-- `OE[L]`: 1 = AssertedLow, 0 = Released (10_state.md R24). -/
def Dir.oe : Dir → Bool
  | .assertedLow => true
  | .released => false

/-- The block's output pins (10_state.md R37). -/
structure Pins where
  clkOE : Bool
  dioOE : Bool
  clkO : Bool
  dioO : Bool
  deriving DecidableEq, Repr

/-- The output data of both pins is hardwired to 0 (10_state.md R24, R37). -/
def State.pins (s : State) : Pins :=
  { clkOE := Dir.oe s.dir.clk, dioOE := Dir.oe s.dir.dio, clkO := false, dioO := false }

end Sys2Proof.Machine
end

