-- ==== Sys2Proof/Machine/Memory.lean ====
section
/-! DEFINITION. The slave's display memory: one read, one write, and its canonical form. -/

namespace Sys2Proof.Machine

/-- The byte listed at an address, if one is. -/
def findCell (a : Nat) : List Host.Cell → Option Byte
  | [] => none
  | c :: rest => if c.1 = a then some c.2 else findCell a rest

/-- Puts a byte at its place in the order of addresses. -/
def putCell (a : Nat) (v : Byte) : List Host.Cell → List Host.Cell
  | [] => [(a, v)]
  | c :: rest =>
    if a < c.1 then (a, v) :: c :: rest
    else if c.1 = a then (a, v) :: rest
    else c :: putCell a v rest

/-- All addresses lie above `low`, each above the one before it. -/
def cellsAbove (low : Nat) : List Host.Cell → Bool
  | [] => true
  | c :: rest => decide (low ≤ c.1) && cellsAbove (c.1 + 1) rest

/-- Reading an address nothing has been written to gives `⊥` (20_memory.md R61). -/
def Memory.read (m : Memory) (a : Nat) : Option Byte := findCell a m.cells

/-- `MemWrite(RAM, a, 1, v)`; addresses 4 and above do not exist (20_memory.md R61, R62). -/
def Memory.write (m : Memory) (a : Nat) (v : Byte) : Option Memory :=
  if a < Config.ndigits then some { cells := putCell a v m.cells } else none

/-- The canonical form: addresses strictly rising, and each one an address of the display. An
unlisted address reads as `⊥`, which no write stores, so no listed entry can equal it. -/
def Memory.wf (m : Memory) : Bool :=
  cellsAbove 0 m.cells && m.cells.all (fun c => decide (c.1 < Config.ndigits))

end Sys2Proof.Machine
end

