-- ==== Sys2Proof/Machine/Operands.lean ====
section
/-! DEFINITION. Operand computations: the digits of a number, patterns, the command bytes and the line selector. -/

namespace Sys2Proof.Machine

/-- The decimal digit of weight `w` of a number: "unsigned integer division rounding toward zero" and
its remainder (00_scope.md R10, 43_sequencer.md R105). -/
def digitAt (n : BitVec 16) (w : Nat) : Fin 10 := ⟨n.toNat / w % 10, Nat.mod_lt _ (by decide)⟩

/-- `digits(n)`, thousands first (43_sequencer.md R105). -/
def digits (n : BitVec 16) : Quad (Fin 10) :=
  { q0 := digitAt n 1000, q1 := digitAt n 100, q2 := digitAt n 10, q3 := digitAt n 1 }

/-- The number four digits stand for (43_sequencer.md R105, the round-trip law). -/
def rejoin (q : Quad (Fin 10)) : Nat :=
  q.q0.val * 1000 + q.q1.val * 100 + q.q2.val * 10 + q.q3.val

/-- A digit as the 4-bit register D[i] holds it (10_state.md R21). -/
def digitBits (d : Fin 10) : BitVec 4 := BitVec.ofNat 4 d.val

/-- The function `encode` of 42_segment_encoder.md R101: `MemRead(SEG, d, 1)`, the same in ENC and in
SHOW. It is total on 0..9 and has no other argument (20_memory.md R45). -/
def segPattern (d : Fin 10) : Byte := Config.segTable d

/-- A 4-bit digit operand as a table index; 10..15 are none (42_segment_encoder.md R102). -/
def digitIndex (d : BitVec 4) : Option (Fin 10) := if h : d.toNat < 10 then some ⟨d.toNat, h⟩ else none

/-- Bit 0 of a pattern is the decimal point (20_memory.md R46). -/
def patternPoint (p : Byte) : Bool := p.getLsbD 0

/-- Segment `k` of a pattern, a = 0 to g = 6, in the spec's ascending reading: bit 1 is segment a
(20_memory.md R47). No definition of the machine uses it. -/
def patternSegment (p : Byte) (k : Fin 7) : Bool := p.getLsbD (k.val + 1)

/-- The display-control byte `CMD_DISP_BASE | b` (30_encoding.md R75). -/
def dispControlByte (b : BitVec 3) : Byte := Config.cmdDispBase ||| b.zeroExtend 8

/-- The bit driven onto DIO: "release = 1, assert-low = 0" (10_state.md R26). -/
def dirOfBit (b : Bool) : Dir := if b then .released else .assertedLow

end Sys2Proof.Machine
end

