-- ==== Sys2Proof/Machine/Wire.lean ====
section
/-! DEFINITION. Line levels, and the wire decoder that reads bytes from them. -/

namespace Sys2Proof.Machine

/-- `level(CLK)` (20_memory.md R54). -/
def levelClk (dir : Lines) : Bool := Dir.level dir.clk

/-- `level(DIO)`: the wired-AND of the controller's drive and the slave's pull (20_memory.md R54). -/
def levelDio (dir : Lines) (pull : Bool) : Bool := Dir.level dir.dio && !pull

def State.levelClk (s : State) : Bool := Machine.levelClk s.dir

/-- What `sample()` returns and the pin DIO_I shows (00_scope.md R11, 10_state.md R37). -/
def State.levelDio (s : State) : Bool := Machine.levelDio s.dir s.slave.pull

/-- The conditions of 20_memory.md R55. -/
inductive BusCondition where
  | start
  | stop
  | latch (b : Bool)
  | nothing
  deriving DecidableEq, Repr

/-- Compares the levels before an event with the levels after it (20_memory.md R55). -/
def Decoder.condition (x : Decoder) (clk dio : Bool) : BusCondition :=
  match x.clk, clk with
  | true, true =>
    match x.dio, dio with
    | true, false => .start
    | false, true => .stop
    | _, _ => .nothing
  | false, true => .latch dio
  | _, false => .nothing

/-- `sum over i of bits[i] << i`: the first bit is bit 0 (20_memory.md R50, R58). -/
def byteOfBits : List Bool → Byte
  | [] => 0#8
  | b :: rest => (if b then 1#8 else 0#8) ||| (byteOfBits rest <<< 1)

/-- The open frame, if there is one, is complete (20_memory.md R57, R59). -/
def Decoder.closed (x : Decoder) : List Frame := if x.inFrame then [x.cur] else []

/-- START (20_memory.md R57). -/
def Decoder.onStart (x : Decoder) : Decoder :=
  { x with frames := x.frames ++ x.closed, inFrame := true, cur := [], bits := [] }

/-- STOP: bits since the last complete byte are dropped (20_memory.md R59). -/
def Decoder.onStop (x : Decoder) : Decoder :=
  { x with frames := x.frames ++ x.closed, inFrame := false, cur := [], bits := [] }

/-- A bit latch: nine bits make a byte and its acknowledge bit; ignored outside a frame
(20_memory.md R58). -/
def Decoder.onLatch (x : Decoder) (b : Bool) : Decoder :=
  if x.inFrame then
    if x.bits.length = Config.bitsPerByte then
      { x with cur := x.cur ++ [(byteOfBits x.bits, b)], bits := [] }
    else { x with bits := x.bits ++ [b] }
  else x

/-- What a condition does to the decoder. -/
def Decoder.apply (x : Decoder) : BusCondition → Decoder
  | .start => x.onStart
  | .stop => x.onStop
  | .latch b => x.onLatch b
  | .nothing => x

/-- The frames a condition completes. -/
def Decoder.completed (x : Decoder) : BusCondition → List Frame
  | .start => x.closed
  | .stop => x.closed
  | .latch _ => []
  | .nothing => []

/-- One event: the levels after it are seen, and become the levels before the next. -/
def Decoder.observe (x : Decoder) (clk dio : Bool) : Decoder :=
  { x.apply (x.condition clk dio) with clk := clk, dio := dio }

/-- The bytes of a frame; the observer ignores the acknowledge bits (20_memory.md R60, R61). -/
def frameBytes (f : Frame) : List Byte := f.map Prod.fst

/-- The line directions after an event. -/
def Lines.afterEvent (dir : Lines) : Event → Lines
  | .rel .clk => { dir with clk := .released }
  | .rel .dio => { dir with dio := .released }
  | .low .clk => { dir with clk := .assertedLow }
  | .low .dio => { dir with dio := .assertedLow }
  | .wait => dir
  | .sample _ => dir

/-- The directions and the decoder along a trace, with slave_pull after each event (entry 27). -/
def replay : Lines × Decoder → List (Event × Bool) → Lines × Decoder
  | x, [] => x
  | (dir, dec), (e, pull) :: rest =>
    let dir' := dir.afterEvent e
    replay (dir', dec.observe (levelClk dir') (levelDio dir' pull)) rest

/-- `decode(TRACE)` (20_memory.md R60): the frames the decoder holds after the whole trace, from lines
that start at `dir` with slave_pull = 0. -/
def decodeTrace (dir : Lines) (trace : List Event) (pulls : List Bool) : List Frame :=
  (replay (dir, Decoder.initial dir) (trace.zip pulls)).2.frames

/-- The least time a trace takes, in microseconds: every Wait lasts at least `DELAY_UNIT_US`, and the
time between other events is not bounded below (40_line_and_delay.md R84, R85). Whole microseconds are the
model's choice (DESIGN CHOICE, entry 4). -/
def minDurationUs (trace : List Event) : Nat := trace.count Event.wait * Config.delayUnitUs

end Sys2Proof.Machine
end

