-- ==== Sys2Proof/Machine/Ops.lean ====
section
/-! DEFINITION. The shared operations: register updates, events, the slave's move, the micro-ops, accepting a
command, raising a fault, and reset. -/

namespace Sys2Proof.Machine

abbrev Result := Host.Outcome State Fault Refusal

/-! Register updates. -/

def Lines.get (dir : Lines) : Line → Dir
  | .clk => dir.clk
  | .dio => dir.dio

def Lines.set (dir : Lines) : Line → Dir → Lines
  | .clk, x => { dir with clk := x }
  | .dio, x => { dir with dio := x }

/-- `dir[L] <- x`, whatever it was (10_state.md R25). -/
def State.setDir (s : State) (l : Line) (x : Dir) : State := { s with dir := s.dir.set l x }

def State.setSeq (s : State) (q : List MicroOp) : State := { s with seq := q }

/-- `SR` and `BC` (10_state.md R26). -/
def State.setSerializer (s : State) (sr : Byte) (bc : BitVec 4) : State := { s with sr := some sr, bc := some bc }

/-- `SR` as an operation reads it: the value it holds, and a free value where it holds `⊥` (entry 29). -/
def State.readSR (s : State) : Byte := s.sr.getD (Config.unwrittenSR s.unwrittenReads)

/-- `BC` as an operation reads it. -/
def State.readBC (s : State) : BitVec 4 := s.bc.getD (Config.unwrittenBC s.unwrittenReads)

/-- "Reading a register that holds ⊥ (unwritten) is a fault of the model" (00_scope.md R11): it is counted. -/
def State.noteRead (s : State) (unwritten : Bool) : State :=
  { s with unwrittenReads := s.unwrittenReads + unwritten.toNat }

def State.setAck (s : State) (v : Bool) : State := { s with ack := some v }

def State.setSegout (s : State) (p : Byte) : State := { s with segout := some p }

/-- `N`, `D` and `P` at the issue of a SHOW (43_sequencer.md R106). -/
def State.setFrame (s : State) (n : BitVec 16) (d : Quad (BitVec 4)) (p : Quad Byte) : State :=
  { s with n := some n, d := d.map some, p := p.map some }

/-- `D[i] <- ⊥, P[i] <- ⊥` (10_state.md R28, R31). -/
def State.endFrame (s : State) : State := { s with d := Quad.fill none, p := Quad.fill none }

def State.setSlave (s : State) (v : Slave) : State := { s with slave := v }

def State.setDisplay (s : State) (v : Display) : State := { s with display := v }

def State.setPort (s : State) (v : HostPort) : State := { s with port := v }

/-! The slave's move and the emission of an event. -/

/-- The slave's choice, any value: the next of its coming choices, and beyond them a free value
(20_memory.md R54; entry 7). -/
def Slave.draw (v : Slave) : Slave :=
  match v.moves with
  | b :: rest => { v with pull := b, moves := rest }
  | [] => { v with pull := Config.slaveDraw v.draws, draws := v.draws + 1 }

/-- The slave changes its pull only while CLK is low; inside an acknowledge window it may hold any
value, and outside it lets go (20_memory.md R54; entries 6 and 7). -/
def Slave.react (v : Slave) (clkHigh : Bool) : Slave :=
  if clkHigh then v else if v.window then v.draw else { v with pull := false }

/-- Frames that the decoder has completed go to the observer's unread frames (20_memory.md R61). -/
def Display.receive (v : Display) (fs : List Frame) : Display := { v with inbox := v.inbox ++ fs.map frameBytes }

/-- `emit(e)` after the event's line write: the event joins TRACE (10_state.md R38), the slave makes
its move, and the decoder sees the levels (20_memory.md R55). -/
def State.emit (s : State) (e : Event) : State :=
  let v := s.slave.react s.levelClk
  let clk := s.levelClk
  let dio := Machine.levelDio s.dir v.pull
  { s with
    trace := s.trace ++ [e]
    pulls := s.pulls ++ [v.pull]
    slave := v
    decoder := s.decoder.observe clk dio
    display := s.display.receive (s.decoder.completed (s.decoder.condition clk dio)) }

/-! The micro-ops (10_state.md R28). -/

/-- What follows the first mLOW(CLK) of the acknowledge phase, up to the last (41_bus_protocol.md R92). -/
def ackTail : List MicroOp := [.rel .dio, .wait, .rel .clk, .wait, .sample, .low .clk]

/-- `ACK_PHASE` (41_bus_protocol.md R92). -/
def ackPhase : List MicroOp := .low .clk :: ackTail

/-- A `Low(CLK)` opens the acknowledge window if it is the first of an acknowledge phase, and closes an
open one (20_memory.md R54; entry 8). The micro-op has already left SEQ. -/
def State.windowAtLow (s : State) : Line → Bool
  | .clk => if s.slave.window then false else decide (s.seq.take ackTail.length = ackTail)
  | .dio => s.slave.window

/-- `mREL(L)`. -/
def State.releaseLine (s : State) (l : Line) : State := (s.setDir l .released).emit (.rel l)

/-- `mLOW(L)`. -/
def State.assertLine (s : State) (l : Line) : State :=
  ((s.setDir l .assertedLow).setSlave { s.slave with window := s.windowAtLow l }).emit (.low l)

/-- `mSAMPLE`: `ACK <- level(DIO)` (41_bus_protocol.md R92). -/
def State.sampleAck (s : State) : State := (s.setAck s.levelDio).emit (.sample s.levelDio)

/-- `mOUTBIT`: DIO follows bit 0 of `SR` (10_state.md R26). -/
def State.outBit (s : State) : State :=
  let t := s.noteRead s.sr.isNone
  if s.readSR.getLsbD 0 then t.releaseLine .dio else t.assertLine .dio

/-- `mSHIFT` (10_state.md R26). -/
def State.shift (s : State) : State :=
  (s.noteRead (s.sr.isNone || s.bc.isNone)).setSerializer (s.readSR >>> 1) (s.readBC + 1#4)

/-- One micro-op, as 10_state.md R28 gives it. -/
def perform (m : MicroOp) (s : State) : Result :=
  match m with
  | .rel l => .next (s.releaseLine l)
  | .low l => .next (s.assertLine l)
  | .wait => .next (s.emit .wait)
  | .sample => .next s.sampleAck
  | .loadSR b => .next (s.setSerializer b 0#4)
  | .outBit => .next s.outBit
  | .shift => .next s.shift
  | .endFrame => .next s.endFrame

/-- One controller step: the head of SEQ is performed and leaves it (10_state.md R29). -/
def controllerStep (s : State) : Result :=
  match s.seq with
  | [] => .refused .noCommand
  | m :: rest => perform m (s.setSeq rest)

/-! Accepting a command, and faults. -/

/-- A command is accepted only when `SEQ = []` and `FAULT = None`; otherwise it has no step
(10_state.md R35). -/
def accept (effect : State → State) (s : State) : Result :=
  if s.busy then .refused .busy
  else if s.fault ≠ .none then .refused .faulted
  else .next (effect s)

/-- An accepted operation sets SEQ to its expansion (10_state.md R27, R43). -/
def issue (q : List MicroOp) (s : State) : Result := accept (fun t => t.setSeq q) s

/-- `raise Fault(kind)`: the first fault is kept, and SEQ is emptied (60_exceptions.md R115). There is
no return from a fault (R119). -/
def State.raiseFault (s : State) (kind : FaultKind) : State :=
  { s with fault := if s.fault = .none then kind else s.fault, seq := [] }

/-- A word that is no command raises IllegalCommand, whatever the reason (30_encoding.md R69). -/
def rejectWord (_r : Reject) (s : State) : Result := accept (fun t => t.raiseFault .illegalCommand) s

/-! Reset. -/

/-- The reset line is asserted at this step. -/
def State.resetAsserted (s : State) : Bool := s.port.resetLine.headD false

/-- One step passes on the reset line. -/
def State.tick (s : State) : State := s.setPort { s.port with resetLine := s.port.resetLine.tail }

/-- Reset, at any time, also while busy (70_reset_and_hazards.md R130). The environment's inputs still
to come and the free values' counters stay, and slave_pull is any value (entries 6, 12 and 13). -/
def State.applyReset (s : State) : State :=
  { State.reset with
    slave := { s.slave.draw with window := false }
    port := s.tick.port
    unwrittenReads := s.unwrittenReads }

end Sys2Proof.Machine
end

