-- ==== Sys2Proof/Machine/DisplayObserver.lean ====
section
/-! DEFINITION. The wire bytes as the slave display observer takes them (20_memory.md R61). -/

namespace Sys2Proof.Machine

/-- The observer refuses what no source gives a meaning: nothing of it changes (20_memory.md R61,
93_implementation_defined.md U18), and the model counts it (entry 17). -/
def Display.refuse (v : Display) : Display := { v with refusals := v.refusals + 1 }

/-- `mode <- AutoIncWrite` (20_memory.md R61, 30_encoding.md R73). -/
def Display.dataCommand (v : Display) : Display := { v with mode := some .autoIncWrite }

/-- `addr <- 0`, only in mode AutoIncWrite (20_memory.md R61, 30_encoding.md R74). -/
def Display.addressCommand (v : Display) : Display :=
  if v.mode = some .autoIncWrite then { v with addr := some 0 } else v.refuse

/-- `disp_on <- 1; bright <- b` (20_memory.md R61, 30_encoding.md R75). -/
def Display.controlCommand (v : Display) (b : BitVec 3) : Display :=
  { v with dispOn := some true, bright := some b }

/-- `MemWrite(RAM, addr, 1, p); addr <- addr + 1`; an address of 4 or more is refused
(20_memory.md R61; entry 18). -/
def Display.patternByte (v : Display) (p : Byte) : Display :=
  match v.addr with
  | some a =>
    match v.ram.write a p with
    | some ram => { v with ram := ram, addr := some (a + 1) }
    | none => v.refuse
  | none => v.refuse

/-- 30_encoding.md R73. -/
def execCmdData (s : State) : Result := .next (s.setDisplay s.display.dataCommand)

/-- 30_encoding.md R74. -/
def execCmdAddr (s : State) : Result := .next (s.setDisplay s.display.addressCommand)

/-- 30_encoding.md R75. -/
def execCmdDisp (b : BitVec 3) (s : State) : Result := .next (s.setDisplay (s.display.controlCommand b))

/-- 30_encoding.md R76. -/
def execSegData (p : Byte) (s : State) : Result := .next (s.setDisplay (s.display.patternByte p))

/-- The observer of 20_memory.md R61 on one whole frame, clause by clause. The machine reads a frame
byte by byte (entry 15); statements say that the two agree. -/
def Display.readFrame (v : Display) (bytes : List Byte) : Display :=
  match bytes with
  | [] => v
  | c :: xs =>
    if c = Config.cmdData ∧ xs = [] then v.dataCommand
    else if c = Config.cmdAddr ∧ v.mode = some .autoIncWrite then xs.foldl Display.patternByte v.addressCommand
    else if c.extractLsb' 3 5 = 0b10001#5 ∧ xs = [] then v.controlCommand (c.extractLsb' 0 3)
    else v.refuse

end Sys2Proof.Machine
end

