-- ==== Sys2Proof/Machine/Encoder.lean ====
section
/-! DEFINITION. ENC (42_segment_encoder.md). -/

namespace Sys2Proof.Machine

/-- What an accepted ENC does: it enqueues no micro-op (42_segment_encoder.md R100), and a digit of 10
or more raises InvalidDigit (R102). -/
def State.lookUpDigit (s : State) (d : BitVec 4) : State :=
  match digitIndex d with
  | some i => (s.setSegout (segPattern i)).setSeq []
  | none => s.raiseFault .invalidDigit

/-- 42_segment_encoder.md R100. -/
def execEnc (d : BitVec 4) (s : State) : Result := accept (fun t => t.lookUpDigit d) s

end Sys2Proof.Machine
end

