-- ==== Sys2Proof/Machine/LineDelay.lean ====
section
/-! DEFINITION. REL, LOW and WAIT (40_line_and_delay.md). -/

namespace Sys2Proof.Machine

/-- 40_line_and_delay.md R80. -/
def execRel (l : Line) (s : State) : Result := issue [.rel l] s

/-- 40_line_and_delay.md R81. -/
def execLow (l : Line) (s : State) : Result := issue [.low l] s

/-- 40_line_and_delay.md R83. -/
def execWait (s : State) : Result := issue [.wait] s

end Sys2Proof.Machine
end

