-- ==== Sys2Proof/Machine/Reserved.lean ====
section
/-! DEFINITION. The reserved opcodes (30_encoding.md R69). -/

namespace Sys2Proof.Machine

/-- A reserved word raises IllegalCommand "and has no other effect" (30_encoding.md R69). -/
def execReserved (_low : BitVec 19) (s : State) : Result := accept (fun t => t.raiseFault .illegalCommand) s

end Sys2Proof.Machine
end

