-- ==== Sys2Proof/Machine/BusProtocol.lean ====
section
/-! DEFINITION. START, WRB with its acknowledge phase, and STOP (41_bus_protocol.md). -/

namespace Sys2Proof.Machine

/-- `START_L` (41_bus_protocol.md R90). -/
def startList : List MicroOp := [.rel .dio, .rel .clk, .wait, .low .dio, .wait, .low .clk]

/-- One bit time (41_bus_protocol.md R91). -/
def bitTime : List MicroOp := [.low .clk, .outBit, .wait, .rel .clk, .wait, .shift]

def repeatBits : Nat → List MicroOp
  | 0 => []
  | k + 1 => bitTime ++ repeatBits k

/-- `WRB_L(b)` (41_bus_protocol.md R91, R92). -/
def wrbList (b : Byte) : List MicroOp := .loadSR b :: (repeatBits Config.bitsPerByte ++ ackPhase)

/-- `STOP_L` (41_bus_protocol.md R94). -/
def stopList : List MicroOp := [.low .clk, .wait, .low .dio, .wait, .rel .clk, .wait, .rel .dio]

/-- 41_bus_protocol.md R90; defined from every `dir` (R96). -/
def execStart (s : State) : Result := issue startList s

/-- 41_bus_protocol.md R91. -/
def execWrb (b : Byte) (s : State) : Result := issue (wrbList b) s

/-- 41_bus_protocol.md R94. -/
def execStop (s : State) : Result := issue stopList s

end Sys2Proof.Machine
end

