-- ==== Sys2Proof/Machine/Sequencer.lean ====
section
/-! DEFINITION. SHOW (43_sequencer.md). -/

namespace Sys2Proof.Machine

/-- The micro-ops of several byte writes, in order. -/
def wrbLists : List Byte → List MicroOp
  | [] => []
  | b :: rest => wrbList b ++ wrbLists rest

/-- A transaction: a start, its bytes and a stop (43_sequencer.md R110). -/
def transaction (bytes : List Byte) : List MicroOp := startList ++ wrbLists bytes ++ stopList

/-- `TXA` (43_sequencer.md R107). -/
def txaList : List MicroOp := transaction [Config.cmdData]

/-- `TXB` with the four patterns, most significant digit first (43_sequencer.md R108, 20_memory.md R51). -/
def txbList (p : Quad Byte) : List MicroOp := transaction (Config.cmdAddr :: p.toList)

/-- `TXC` (43_sequencer.md R109). -/
def txcList (brightness : BitVec 3) : List MicroOp := transaction [dispControlByte brightness]

/-- SHOW's expansion (43_sequencer.md R106). -/
def showList (p : Quad Byte) (brightness : BitVec 3) : List MicroOp :=
  txaList ++ txbList p ++ txcList brightness ++ [.endFrame]

/-- The issue step of SHOW; the patterns are taken here and stand in the list as constants
(43_sequencer.md R106). -/
def State.issueShow (s : State) (n : BitVec 16) : State :=
  let p := (digits n).map segPattern
  (s.setFrame n ((digits n).map digitBits) p).setSeq (showList p Config.brightness)

/-- 43_sequencer.md R106; every 16-bit number is accepted (R111, R112). -/
def execShow (n : BitVec 16) (s : State) : Result := accept (fun t => t.issueShow n) s

end Sys2Proof.Machine
end

