-- ==== Sys2Proof/Machine/Dispatch.lean ====
section
/-! DEFINITION. The meaning of every instruction: one arm per constructor of Instr. -/

namespace Sys2Proof.Machine

def exec (i : Instr) (s : State) : Host.Outcome State Fault Refusal :=
  match i with
  | .rel l => Sys2Proof.Machine.execRel l s
  | .low l => Sys2Proof.Machine.execLow l s
  | .wait => Sys2Proof.Machine.execWait s
  | .start => Sys2Proof.Machine.execStart s
  | .stop => Sys2Proof.Machine.execStop s
  | .wrb b => Sys2Proof.Machine.execWrb b s
  | .enc d => Sys2Proof.Machine.execEnc d s
  | .showNum n => Sys2Proof.Machine.execShow n s
  | .reserved low => Sys2Proof.Machine.execReserved low s
  | .cmdData => Sys2Proof.Machine.execCmdData s
  | .cmdAddr => Sys2Proof.Machine.execCmdAddr s
  | .cmdDisp b => Sys2Proof.Machine.execCmdDisp b s
  | .segData p => Sys2Proof.Machine.execSegData p s

end Sys2Proof.Machine
end

