-- ==== Sys2Proof/Machine/Fetch.lean ====
section
/-! DEFINITION. How the block takes a command word and the observer a wire byte, and what each agent's step is. -/

namespace Sys2Proof.Machine

/-- A word at the port is decoded and either faults or runs (10_state.md R35, 30_encoding.md R70). -/
def acceptWord (w : CommandWord) (s : State) : Result :=
  match decode (.word w) with
  | .instr i => exec i s
  | .rejected r => rejectWord r s

/-- The bytes of a frame after its address byte are data only in mode AutoIncWrite; else the frame is
refused (20_memory.md R61). -/
def dataAfterAddress (v : Display) (xs : List Byte) : List Byte :=
  if v.mode = some .autoIncWrite then xs else []

/-- The observer begins a frame (20_memory.md R61). The data and control commands must stand alone in
theirs; a frame with no byte says nothing (entry 16). -/
def openFrame (bytes : List Byte) (s : State) : Result :=
  match bytes with
  | [] => .next s
  | c :: xs =>
    match decode (.commandByte c) with
    | .instr .cmdAddr => exec .cmdAddr (s.setDisplay { s.display with data := dataAfterAddress s.display xs })
    | .instr i => if xs = [] then exec i s else .next (s.setDisplay s.display.refuse)
    | .rejected _ => .next (s.setDisplay s.display.refuse)

/-- The observer has a byte or a frame to read. -/
def Display.hasWork (v : Display) : Bool := !(v.data.isEmpty && v.inbox.isEmpty)

/-- One step of the observer: the next data byte of the open frame, or the next frame (entry 15). -/
def observerStep (s : State) : Result :=
  match s.display.data with
  | x :: xs =>
    match decode (.dataByte x) with
    | .instr i => exec i (s.setDisplay { s.display with data := xs })
    | .rejected _ => .next (s.setDisplay { s.display.refuse with data := xs })
  | [] =>
    match s.display.inbox with
    | f :: fs => openFrame f (s.setDisplay { s.display with inbox := fs })
    | [] => .next s

/-- No agent has a step: time may still pass up to a reset to come (60_exceptions.md R126: "Nothing
but a command or reset moves it"; entries 11 and 12). -/
def waiting (r : Refusal) (s : State) : Result :=
  if s.port.resetLine = [] then .refused r else .next s.tick

/-- The host's step: a faulted block refuses every word (60_exceptions.md R119), and an idle one takes
the next word (10_state.md R35). -/
def hostStep (s : State) : Result :=
  if s.fault ≠ .none then waiting .faulted s
  else
    match s.port.words with
    | [] => waiting .noCommand s
    | w :: rest => acceptWord w (s.tick.setPort { s.tick.port with words := rest })

/-- Which agent moves: reset first, then the controller while it is busy, then the observer, then the
host (entries 12 and 15). -/
def nextStep (s : State) : Result :=
  if s.resetAsserted then .next s.applyReset
  else if s.busy then controllerStep s.tick
  else if s.display.hasWork then observerStep s.tick
  else hostStep s

/-- The machine able to run the word `w` at its next step: not busy, not faulted, nothing to observe,
no reset, and the word first at the port (entry 20). -/
def State.withWord (s : State) (w : CommandWord) : State :=
  { s with
    seq := []
    fault := .none
    display := { s.display with inbox := [], data := [] }
    port := { words := w :: s.port.words, resetLine := [] } }

/-- The display address a pattern byte goes to: a byte inside transaction B has one (20_memory.md R61). -/
def Display.dataAddress (v : Display) : Nat :=
  match v.addr with
  | some a => if a < Config.ndigits then a else 0
  | none => 0

/-- The machine able to run the wire byte `b` at its next step: a command byte as a frame of its own, a
pattern byte inside a transaction B (entry 20). -/
def State.withWireByte (s : State) (b : Byte) : State :=
  match decode (.commandByte b) with
  | .instr _ =>
    { s with
      seq := []
      display := { s.display with inbox := [[b]], data := [] }
      port := { s.port with resetLine := [] } }
  | .rejected _ =>
    { s with
      seq := []
      display :=
        { s.display with
          mode := some .autoIncWrite
          addr := some s.display.dataAddress
          data := [b] }
      port := { s.port with resetLine := [] } }

/-- The table's numbering of `decodeTableWord`: at most 8 bits is a wire byte. -/
def State.withTableWord (s : State) (nbits w : Nat) : State :=
  if nbits ≤ 8 then s.withWireByte (BitVec.ofNat 8 w) else s.withWord (BitVec.ofNat 20 w)

end Sys2Proof.Machine
end

