-- ==== Sys2Proof/Machine/Assembler.lean ====
section
/-! DEFINITION. The pseudo-instructions and the assembler's syntax (30_encoding.md R78, R79). -/

namespace Sys2Proof.Machine

/-! Pseudo-instructions, as the commands they expand to (30_encoding.md R79). -/

def pseudoTxa : List Instr := [.start, .wrb Config.cmdData, .stop]

def pseudoTxb (p : Quad Byte) : List Instr :=
  [.start, .wrb Config.cmdAddr, .wrb p.q0, .wrb p.q1, .wrb p.q2, .wrb p.q3, .stop]

def pseudoTxc (brightness : BitVec 3) : List Instr := [.start, .wrb (dispControlByte brightness), .stop]

def pseudoIdle : List Instr := [.rel .dio, .rel .clk, .wait]

/-! The text of one line: tokens, numbers, operands (30_encoding.md R78; entry 24). -/

/-- `;` starts a comment that runs to the end of the line. -/
def stripComment : List Char → List Char
  | [] => []
  | c :: rest => if c = ';' then [] else c :: stripComment rest

def isBlankChar (c : Char) : Bool := c = ' ' || c = '\t' || c = '\r'

def flushToken (cur : List Char) : List (List Char) := if cur = [] then [] else [cur]

/-- Tokens are separated by blanks; a comma is a token of its own. -/
def splitTokens : List Char → List Char → List (List Char)
  | cur, [] => flushToken cur
  | cur, c :: rest =>
    if isBlankChar c then flushToken cur ++ splitTokens [] rest
    else if c = ',' then flushToken cur ++ [','] :: splitTokens [] rest
    else splitTokens (cur ++ [c]) rest

def decimalDigit (c : Char) : Option Nat :=
  if '0'.toNat ≤ c.toNat ∧ c.toNat ≤ '9'.toNat then some (c.toNat - '0'.toNat) else none

def hexDigit (c : Char) : Option Nat :=
  match decimalDigit c with
  | some v => some v
  | none =>
    if 'a'.toNat ≤ c.toNat ∧ c.toNat ≤ 'f'.toNat then some (c.toNat - 'a'.toNat + 10)
    else if 'A'.toNat ≤ c.toNat ∧ c.toNat ≤ 'F'.toNat then some (c.toNat - 'A'.toNat + 10)
    else none

def hexValue : Nat → List Char → Option Nat
  | acc, [] => some acc
  | acc, c :: rest =>
    match hexDigit c with
    | some v => hexValue (acc * 16 + v) rest
    | none => none

def decimalValue : Nat → List Char → Option Nat
  | acc, [] => some acc
  | acc, c :: rest =>
    match decimalDigit c with
    | some v => decimalValue (acc * 10 + v) rest
    | none => none

/-- "Numbers are decimal, or hexadecimal with a 0x prefix." -/
def parseNumber (t : List Char) : Option Nat :=
  match t with
  | [] => none
  | '0' :: 'x' :: c :: rest => hexValue 0 (c :: rest)
  | c :: rest => decimalValue 0 (c :: rest)

/-- "The assembler refuses an operand outside the given range." -/
def parseOperand (bits : Nat) (t : List Char) : Option (BitVec bits) :=
  match parseNumber t with
  | some v => if v < 2 ^ bits then some (BitVec.ofNat bits v) else none
  | none => none

def parseLine (t : List Char) : Option Line :=
  if t = "clk".toList then some .clk else if t = "dio".toList then some .dio else none

/-- One operand or none, by mnemonic. -/
def parseCommand (m : List Char) (args : List (List Char)) : Option (List Instr) :=
  match args with
  | [] =>
    if m = "wait".toList then some [.wait]
    else if m = "start".toList then some [.start]
    else if m = "stop".toList then some [.stop]
    else if m = "txa".toList then some pseudoTxa
    else if m = "txc".toList then some (pseudoTxc Config.brightness)
    else if m = "idle".toList then some pseudoIdle
    else none
  | [a] =>
    if m = "rel".toList then (parseLine a).map fun l => [.rel l]
    else if m = "low".toList then (parseLine a).map fun l => [.low l]
    else if m = "wrb".toList then (parseOperand 8 a).map fun b => [.wrb b]
    else if m = "enc".toList then (parseOperand 4 a).map fun d => [.enc d]
    else if m = "show".toList then (parseOperand 16 a).map fun n => [.showNum n]
    else none
  | [a, c1, b, c2, c, c3, d] =>
    if m = "txb".toList ∧ c1 = [','] ∧ c2 = [','] ∧ c3 = [','] then
      match parseOperand 8 a, parseOperand 8 b, parseOperand 8 c, parseOperand 8 d with
      | some p0, some p1, some p2, some p3 => some (pseudoTxb { q0 := p0, q1 := p1, q2 := p2, q3 := p3 })
      | _, _, _, _ => none
    else none
  | _ => none

/-- One line of source: its commands, none for a blank line or a comment, or a refusal. -/
def parseSourceLine (line : List Char) : Option (List Instr) :=
  match splitTokens [] (stripComment line) with
  | [] => some []
  | m :: args => parseCommand m args

/-- The command word of a command; a wire byte is none. -/
def Code.word? : Code → Option CommandWord
  | .word w => some w
  | .commandByte _ => none
  | .dataByte _ => none

/-- The words of the lines of a program, or a refusal. -/
def assemble : List (List Char) → Option (List CommandWord)
  | [] => some []
  | line :: rest =>
    match parseSourceLine line, assemble rest with
    | some is, some ws => some (is.filterMap (fun i => Code.word? (encode i)) ++ ws)
    | _, _ => none

end Sys2Proof.Machine
end

