-- ==== Sys2Proof/Safety.lean ====
section
/-! DEFINITION. Runs, the conditions of the spec's prose, and the invariants, in the terms the statements use. -/

namespace Sys2Proof.Machine

/-! Runs. -/

/-- `k` steps; a run ends at the first fault or refusal. -/
def run : Nat → State → Result
  | 0, s => .next s
  | k + 1, s =>
    match step s with
    | .next t => run k t
    | .fault r => .fault r
    | .refused r => .refused r

/-- A command issued and run until the block is idle again (10_state.md R43): its meaning, then one
step for each micro-op it enqueued. -/
def runCommand (i : Instr) (s : State) : Result :=
  match exec i s with
  | .next t => run t.seq.length t
  | .fault r => .fault r
  | .refused r => .refused r

/-- Commands issued one after another, each when `BUSY = 0` (60_exceptions.md R127). -/
def runCommands : List Instr → State → Result
  | [], s => .next s
  | i :: rest, s =>
    match runCommand i s with
    | .next t => runCommands rest t
    | .fault r => .fault r
    | .refused r => .refused r

/-- The words of commands, as a host presents them. -/
def commandWords (is : List Instr) : List CommandWord := is.filterMap (fun i => Code.word? (encode i))

/-! Conditions. -/

/-- The block accepts a command (10_state.md R35). -/
def State.Accepting (s : State) : Prop := s.seq = [] ∧ s.fault = .none

/-- It is the host's turn: the block accepts, the observer has read everything and no reset is due. -/
def State.HostTurn (s : State) : Prop :=
  s.Accepting ∧ s.display.inbox = [] ∧ s.display.data = [] ∧ s.resetAsserted = false

/-- No reset is due at any step. -/
def State.NoReset (s : State) : Prop := s.port.resetLine = []

/-- The slave keeps 20_memory.md R54 outside an acknowledge window: it does not pull. -/
def State.SlaveQuiet (s : State) : Prop := s.slave.window = false ∧ s.slave.pull = false

/-- The decoder has seen the levels the lines have now. -/
def State.LevelsSeen (s : State) : Prop := s.decoder.clk = s.levelClk ∧ s.decoder.dio = s.levelDio

/-- "from idle" (95_test_vectors.md, conventions): both lines released, `SEQ = []`, `FAULT = None`, and
the decoder not in a frame. -/
def State.Idle (s : State) : Prop :=
  s.HostTurn ∧ s.NoReset ∧ s.SlaveQuiet ∧ s.LevelsSeen ∧ s.decoder.inFrame = false ∧
    s.dir = { clk := .released, dio := .released }

/-- A block that has just been reset with both lines at `x`, the slave keeping 20_memory.md R54: with
CLK asserted low the slave lets go at the first event, whatever it held (entry 6). -/
def State.JustReset (s : State) (x : Dir) : Prop :=
  s.HostTurn ∧ s.NoReset ∧ s.slave.window = false ∧ (x = .assertedLow ∨ s.slave.pull = false) ∧
    s.dir = { clk := x, dio := x } ∧ s.decoder = Decoder.initial s.dir ∧ s.display = Display.initial

/-- A successful end of a run (60_exceptions.md R129). -/
def State.EndedWell (s : State) : Prop := s.port.words = [] ∧ s.seq = [] ∧ s.fault = .none

/-- The values 70_reset_and_hazards.md R130 and 10_state.md R42 give for reset: the lines, the registers,
SEQ and FAULT, and the observation that starts again with the levels of the lines and slave_pull = 0. -/
structure State.HasResetValues (s : State) : Prop where
  dir : s.dir = { clk := Config.resetLines, dio := Config.resetLines }
  sr : s.sr = none
  bc : s.bc = none
  ack : s.ack = none
  n : s.n = none
  d : s.d = { q0 := none, q1 := none, q2 := none, q3 := none }
  p : s.p = { q0 := none, q1 := none, q2 := none, q3 := none }
  segout : s.segout = none
  seq : s.seq = []
  busy : s.busy = false
  fault : s.fault = .none
  trace : s.trace = []
  inFrame : s.decoder.inFrame = false
  bits : s.decoder.bits = []
  cur : s.decoder.cur = []
  frames : s.decoder.frames = []
  clk : s.decoder.clk = Machine.levelClk s.dir
  dio : s.decoder.dio = Machine.levelDio s.dir false

/-- The constructor stands for a host command, not for a wire byte. -/
def isCommand : Instr → Bool
  | .rel _ => true
  | .low _ => true
  | .wait => true
  | .start => true
  | .stop => true
  | .wrb _ => true
  | .enc _ => true
  | .showNum _ => true
  | .reserved _ => true
  | .cmdData => false
  | .cmdAddr => false
  | .cmdDisp _ => false
  | .segData _ => false

/-! Parts of the state, for frames. -/

/-- The registers, none of them read while it held `⊥`. -/
def SameRegisters (s t : State) : Prop :=
  t.sr = s.sr ∧ t.bc = s.bc ∧ t.ack = s.ack ∧ t.n = s.n ∧ t.d = s.d ∧ t.p = s.p ∧ t.segout = s.segout ∧
    t.unwrittenReads = s.unwrittenReads

/-- The lines, the observation and the slave. -/
def SameBus (s t : State) : Prop :=
  t.dir = s.dir ∧ t.trace = s.trace ∧ t.pulls = s.pulls ∧ t.decoder = s.decoder ∧ t.slave = s.slave

/-- The display observer, with every byte of its memory. -/
def SameDisplay (s t : State) : Prop :=
  t.display = s.display ∧ ∀ a, t.display.ram.read a = s.display.ram.read a

/-! Events of the operations, for the statements. -/

/-- Events of one data bit time (41_bus_protocol.md R91). -/
def bitEvents (b : Bool) : List Event :=
  [.low .clk, if b then .rel .dio else .low .dio, .wait, .rel .clk, .wait]

/-- Events of the acknowledge phase (41_bus_protocol.md R92). -/
def ackEvents (v : Bool) : List Event :=
  [.low .clk, .rel .dio, .wait, .rel .clk, .wait, .sample v, .low .clk]

/-- The 47 events of `WRB b`, bit 0 first (41_bus_protocol.md R91). -/
def wrbEvents (b : Byte) (v : Bool) : List Event :=
  bitEvents (b.getLsbD 0) ++ bitEvents (b.getLsbD 1) ++ bitEvents (b.getLsbD 2) ++ bitEvents (b.getLsbD 3) ++
    bitEvents (b.getLsbD 4) ++ bitEvents (b.getLsbD 5) ++ bitEvents (b.getLsbD 6) ++ bitEvents (b.getLsbD 7) ++
    ackEvents v

/-- The acknowledge values of a trace, in order. -/
def samples : List Event → List Bool
  | [] => []
  | .sample v :: rest => v :: samples rest
  | .rel _ :: rest => samples rest
  | .low _ :: rest => samples rest
  | .wait :: rest => samples rest

/-- An event up to the value inside a Sample (41_bus_protocol.md R93). -/
def Event.blind : Event → Event
  | .sample _ => .sample false
  | .rel l => .rel l
  | .low l => .low l
  | .wait => .wait

/-- The event changes the controller's drive of DIO while CLK stays released (41_bus_protocol.md R99). -/
def changesDioWhileHigh (dir : Lines) (e : Event) : Bool :=
  decide (dir.clk = .released) && decide ((dir.afterEvent e).clk = .released) &&
    !decide (dir.dio = (dir.afterEvent e).dio)

/-- The events of a trace that change DIO while CLK is high, in order. -/
def dioChangesWhileHigh : Lines → List Event → List Event
  | _, [] => []
  | dir, e :: rest =>
    if changesDioWhileHigh dir e then e :: dioChangesWhileHigh (dir.afterEvent e) rest
    else dioChangesWhileHigh (dir.afterEvent e) rest

/-- The one DIO edge an operation makes while CLK is high: START's fall and STOP's rise
(41_bus_protocol.md R99). -/
def busEdge : Instr → List Event
  | .start => [.low .dio]
  | .stop => [.rel .dio]
  | _ => []

/-- The direction a REL or LOW command gives its line. -/
def lineCommand (c : Line × Dir) : Instr :=
  match c.2 with
  | .released => .rel c.1
  | .assertedLow => .low c.1

/-- The direction of the last command on line `l`, or `x` if there is none (40_line_and_delay.md R82). -/
def lastDir (l : Line) (x : Dir) : List (Line × Dir) → Dir
  | [] => x
  | c :: rest => lastDir l (if c.1 = l then c.2 else x) rest

/-- Every release of CLK in a micro-op list is followed at once by a WAIT (70_reset_and_hazards.md R136). -/
def clockReleasesSettle : List MicroOp → Bool
  | [] => true
  | m :: rest => (decide (m ≠ .rel .clk) || decide (rest.head? = some .wait)) && clockReleasesSettle rest

/-! Invariants. -/

/-- The serializer's state: the bit counter when SR and BC have been loaded. -/
def State.loaded (s : State) : Option Nat :=
  match s.sr, s.bc with
  | some _, some c => some c.toNat
  | _, _ => none

/-- The micro-ops never read SR or BC before mLOADSR and never count beyond 8 (10_state.md R42, R44). -/
def serializerSafe : Option Nat → List MicroOp → Bool
  | _, [] => true
  | x, m :: rest =>
    match m with
    | .loadSR _ => serializerSafe (some 0) rest
    | .outBit => x.isSome && serializerSafe x rest
    | .shift =>
      match x with
      | some k => decide (k < Config.bitsPerByte) && serializerSafe (some (k + 1)) rest
      | none => false
    | .rel _ => serializerSafe x rest
    | .low _ => serializerSafe x rest
    | .wait => serializerSafe x rest
    | .sample => serializerSafe x rest
    | .endFrame => serializerSafe x rest

/-- A pattern register that is not `⊥` holds the pattern of its digit (10_state.md R44). -/
def PatternOf (d : Option (BitVec 4)) (p : Option Byte) : Prop :=
  ∀ v, p = some v → ∃ i : Fin 10, d = some (digitBits i) ∧ v = segPattern i

/-- A digit register holds 0..9 or `⊥` (10_state.md R44). -/
def DigitInRange (d : Option (BitVec 4)) : Prop := ∀ v, d = some v → v.toNat ≤ 9

/-- The invariants of 10_state.md R44 (its points 1 and 6 hold by the type `Dir`), with what keeps them:
SEQ reads no unwritten register, and the display memory keeps its canonical form. -/
structure State.Inv (s : State) : Prop where
  bitCounter : ∀ c, s.bc = some c → c.toNat ≤ 8
  digits0 : DigitInRange s.d.q0
  digits1 : DigitInRange s.d.q1
  digits2 : DigitInRange s.d.q2
  digits3 : DigitInRange s.d.q3
  faultIdle : s.fault ≠ .none → s.seq = []
  pattern0 : PatternOf s.d.q0 s.p.q0
  pattern1 : PatternOf s.d.q1 s.p.q1
  pattern2 : PatternOf s.d.q2 s.p.q2
  pattern3 : PatternOf s.d.q3 s.p.q3
  serializer : serializerSafe s.loaded s.seq = true
  memory : s.display.ram.wf = true

/-- The state's directions and decoder are what the trace gives when it is read from the start
(20_memory.md R55 to R60). -/
structure State.TraceAgrees (s : State) : Prop where
  paired : s.pulls.length = s.trace.length
  replayed : replay (Lines.atReset, Decoder.initial Lines.atReset) (s.trace.zip s.pulls) = (s.dir, s.decoder)

/-- The observer once it has read everything it has received, frame by frame as 20_memory.md R61 gives it. -/
def Display.settled (v : Display) : Display :=
  v.inbox.foldl Display.readFrame (v.data.foldl Display.patternByte { v with inbox := [], data := [] })

/-- The observer, settled, is what 20_memory.md R61 makes of `decode(TRACE)`. -/
def State.DisplayAgrees (s : State) : Prop :=
  s.display.settled = (s.decoder.frames.map frameBytes).foldl Display.readFrame Display.initial

/-- Two states the controller cannot tell apart: they differ in the slave, what the slave has answered
and what has been received only (41_bus_protocol.md R93). -/
structure SlaveBlind (s t : State) : Prop where
  dir : t.dir = s.dir
  sr : t.sr = s.sr
  bc : t.bc = s.bc
  n : t.n = s.n
  d : t.d = s.d
  p : t.p = s.p
  segout : t.segout = s.segout
  seq : t.seq = s.seq
  fault : t.fault = s.fault
  port : t.port = s.port
  unwrittenReads : t.unwrittenReads = s.unwrittenReads
  events : t.trace.map Event.blind = s.trace.map Event.blind

/-- `y` holds what `x` holds, and any value where `x` holds `⊥`. -/
def Fills {α : Type} (x y : Option α) : Prop := ∀ v, x = some v → y = some v

/-- The same of four registers. -/
def QuadFills {α : Type} (x y : Quad (Option α)) : Prop :=
  Fills x.q0 y.q0 ∧ Fills x.q1 y.q1 ∧ Fills x.q2 y.q2 ∧ Fills x.q3 y.q3

/-- `t` is `s` with any values in registers that hold `⊥` in `s`: "any value, written ⊥"
(93_implementation_defined.md U13, 10_state.md R42). -/
structure FillsUnwritten (s t : State) : Prop where
  sr : Fills s.sr t.sr
  bc : Fills s.bc t.bc
  ack : Fills s.ack t.ack
  n : Fills s.n t.n
  d : QuadFills s.d t.d
  p : QuadFills s.p t.p
  segout : Fills s.segout t.segout
  rest : t = { s with sr := t.sr, bc := t.bc, ack := t.ack, n := t.n, d := t.d, p := t.p, segout := t.segout }

end Sys2Proof.Machine
end

