-- ==== Sys2Proof/Certificates/Slice0/Obligations.lean ====
section
/-! DEFINITION. The statements for the provers. Nothing is proved here. -/

open Sys2Proof Sys2Proof.Machine

/-! Encoding. -/

/-- Decoding the code of any instruction, legal or not, gives it back with every operand
(30_encoding.md R65 to R69, R73 to R76). -/
def Obligations.EncodedInstructionDecodesToItself : Prop :=
  ∀ i : Instr, decode (encode i) = .instr i

/-- A code that decodes is the encoding of what it decodes to: no bit is dropped and no two codes share
an instruction (30_encoding.md R65 to R69, R73 to R76). -/
def Obligations.DecodedCodeIsTheEncodingOfItsInstruction : Prop :=
  ∀ (c : Code) (i : Instr), decode c = .instr i → encode i = c

/-- The decoder agrees with the opcode table's match and mask, for the command words, for a frame's first
byte and for a pattern byte: a code that decodes lies in the row of its instruction, which is one of its
place, and in no other of that place; a rejected code lies in none (30_encoding.md R66, R67, R69, R73 to R76). -/
def Obligations.DecoderFollowsTheOpcodeTable : Prop :=
  ∀ c : Code,
    (∀ i, decode c = .instr i →
      (∃ r ∈ c.rows, r.mnemonic = i.mnemonic) ∧
      ∀ r ∈ c.rows, (r.holds c.bits = true ↔ r.mnemonic = i.mnemonic)) ∧
    (∀ x, decode c = .rejected x → ∀ r ∈ c.rows, r.holds c.bits = false)

/-- Words the spec writes out, one or more of every family (40_line_and_delay.md R80, R81, R83;
41_bus_protocol.md R90, R91, R94; 42_segment_encoder.md R100; 95_test_vectors.md V-SHOW, V-BYTE). -/
def Obligations.SpecWordsDecodeToTheirInstructions : Prop :=
  decode (.word 0x00000#20) = .instr (.rel .clk) ∧ decode (.word 0x00001#20) = .instr (.rel .dio) ∧
  decode (.word 0x10000#20) = .instr (.low .clk) ∧ decode (.word 0x10001#20) = .instr (.low .dio) ∧
  decode (.word 0x20000#20) = .instr .wait ∧ decode (.word 0x30000#20) = .instr .start ∧
  decode (.word 0x40000#20) = .instr .stop ∧ decode (.word 0x50040#20) = .instr (.wrb 0x40#8) ∧
  decode (.word 0x60009#20) = .instr (.enc 9#4) ∧ decode (.word 0x704D2#20) = .instr (.showNum 1234#16) ∧
  decode (.commandByte 0x40#8) = .instr .cmdData ∧ decode (.commandByte 0xC0#8) = .instr .cmdAddr ∧
  decode (.commandByte 0x8F#8) = .instr (.cmdDisp 7#3) ∧ decode (.dataByte 0x40#8) = .instr (.segData 0x40#8)

/-- A word an accepting block takes is checked in the order of 30_encoding.md R70: reserved opcode,
must-be-0 bits, digit range; otherwise it is its operation. The opcode and the operand field are read
off the word's number. -/
def Obligations.WordAtThePortIsCheckedInOrder : Prop :=
  ∀ (s : State) (w : CommandWord), s.Accepting →
    (8 ≤ w.toNat / 65536 → acceptWord w s = .next { s with fault := .illegalCommand, seq := [] }) ∧
    (w.toNat / 65536 ≤ 1 → 2 ≤ w.toNat % 65536 →
      acceptWord w s = .next { s with fault := .illegalCommand, seq := [] }) ∧
    (2 ≤ w.toNat / 65536 → w.toNat / 65536 ≤ 4 → 1 ≤ w.toNat % 65536 →
      acceptWord w s = .next { s with fault := .illegalCommand, seq := [] }) ∧
    (w.toNat / 65536 = 5 → 256 ≤ w.toNat % 65536 →
      acceptWord w s = .next { s with fault := .illegalCommand, seq := [] }) ∧
    (w.toNat / 65536 = 6 → 16 ≤ w.toNat % 65536 →
      acceptWord w s = .next { s with fault := .illegalCommand, seq := [] }) ∧
    (w.toNat / 65536 = 6 → w.toNat % 65536 < 16 → 9 < w.toNat % 65536 →
      acceptWord w s = .next { s with fault := .invalidDigit, seq := [] }) ∧
    (w.toNat = 0x00000 → acceptWord w s = exec (.rel .clk) s) ∧
    (w.toNat = 0x00001 → acceptWord w s = exec (.rel .dio) s) ∧
    (w.toNat = 0x10000 → acceptWord w s = exec (.low .clk) s) ∧
    (w.toNat = 0x10001 → acceptWord w s = exec (.low .dio) s) ∧
    (w.toNat = 0x20000 → acceptWord w s = exec .wait s) ∧
    (w.toNat = 0x30000 → acceptWord w s = exec .start s) ∧
    (w.toNat = 0x40000 → acceptWord w s = exec .stop s) ∧
    (w.toNat / 65536 = 5 → w.toNat % 65536 < 256 →
      acceptWord w s = exec (.wrb (BitVec.ofNat 8 (w.toNat % 65536))) s) ∧
    (w.toNat / 65536 = 6 → w.toNat % 65536 ≤ 9 →
      acceptWord w s = exec (.enc (BitVec.ofNat 4 (w.toNat % 65536))) s) ∧
    (w.toNat / 65536 = 7 → acceptWord w s = exec (.showNum (BitVec.ofNat 16 (w.toNat % 65536))) s)

/-- `0x88 | b` is `{0b10001, b[2:0]}`, and a byte is a display-control command exactly when it has that
form (30_encoding.md R75). -/
def Obligations.DisplayControlByteKeepsItsFixedBits : Prop :=
  (∀ b : BitVec 3, dispControlByte b = (0b10001#5 ++ b : BitVec 8)) ∧
  (∀ x : Byte, (∃ b, decode (.commandByte x) = .instr (.cmdDisp b)) ↔ x &&& 0xF8#8 = 0x88#8) ∧
  (∀ b : BitVec 3, decode (.commandByte (dispControlByte b)) = .instr (.cmdDisp b))

/-! The step. -/

/-- When it is the host's turn and the word at the port decodes, the step is the instruction's meaning,
the word gone from the port; a word that does not decode raises IllegalCommand (10_state.md R35,
30_encoding.md R70). -/
def Obligations.StepRunsTheDecodedWord : Prop :=
  ∀ (s : State) (w : CommandWord) (rest : List CommandWord), s.HostTurn → s.port.words = w :: rest →
    (∀ i, decode (.word w) = .instr i →
      step s = exec i { s with port := { words := rest, resetLine := s.port.resetLine.tail } }) ∧
    (∀ x, decode (.word w) = .rejected x →
      step s = .next { s with
        fault := .illegalCommand
        seq := []
        port := { words := rest, resetLine := s.port.resetLine.tail } })

/-- When the block is idle, the observer's step is the meaning of the wire byte it reads: the next
data byte of an open frame, or a frame's command byte, where the data and control commands stand alone
(20_memory.md R61; the model's order of the agents and its byte at a time are entry 15). -/
def Obligations.StepRunsTheDecodedWireByte : Prop :=
  ∀ s : State, s.seq = [] → s.resetAsserted = false →
    (∀ x xs, s.display.data = x :: xs →
      step s = exec (.segData x) { s with
        display := { s.display with data := xs }
        port := { s.port with resetLine := s.port.resetLine.tail } }) ∧
    (∀ c fs i, s.display.data = [] → s.display.inbox = [c] :: fs → decode (.commandByte c) = .instr i →
      step s = exec i { s with
        display := { s.display with inbox := fs }
        port := { s.port with resetLine := s.port.resetLine.tail } }) ∧
    (∀ xs fs, s.display.data = [] → s.display.inbox = (0xC0#8 :: xs) :: fs →
      s.display.mode = some .autoIncWrite →
      step s = exec .cmdAddr { s with
        display := { s.display with inbox := fs, data := xs }
        port := { s.port with resetLine := s.port.resetLine.tail } })

/-- An instruction placed for the next step is the one that step runs: a command word, a command byte as
a frame of its own, a pattern byte inside a transaction B (the model's interface, entry 20). -/
def Obligations.PlacedInstructionRunsNext : Prop :=
  (∀ (s : State) (w : Nat) (i : Instr), decodeTableWord 20 w = some i →
    step (s.withFetchWord 20 w) = exec i { s with
      seq := []
      fault := .none
      display := { s.display with inbox := [], data := [] }
      port := { words := s.port.words, resetLine := [] } }) ∧
  (∀ (s : State) (w : Nat) (i : Instr), decode (.commandByte (BitVec.ofNat 8 w)) = .instr i →
    step (s.withFetchWord 8 w) = exec i { s with
      seq := []
      display := { s.display with inbox := [], data := [] }
      port := { words := s.port.words, resetLine := [] } }) ∧
  (∀ (s : State) (w : Nat) (x : Reject), decode (.commandByte (BitVec.ofNat 8 w)) = .rejected x →
    step (s.withFetchWord 8 w) = exec (.segData (BitVec.ofNat 8 w)) { s with
      seq := []
      display :=
        { s.display with mode := some .autoIncWrite, addr := some s.display.dataAddress, data := [] }
      port := { words := s.port.words, resetLine := [] } })

/-- A busy block performs the head of SEQ, which leaves the list, and the host's words stay; the
micro-ops run in list order (10_state.md R29, R35). -/
def Obligations.StepPerformsTheHeadOfSeq : Prop :=
  ∀ (s : State) (m : MicroOp) (rest : List MicroOp), s.resetAsserted = false → s.seq = m :: rest →
    step s = perform m { s with
      seq := rest
      port := { s.port with resetLine := s.port.resetLine.tail } } ∧
    ∀ t, step s = .next t → t.seq = rest ∧ t.port.words = s.port.words ∧ t.fault = s.fault

/-- The micro-op table of 10_state.md R28: what each one writes, the event it emits, and the registers
and the other line it leaves. Where mOUTBIT or mSHIFT would read `⊥` it takes some value in its place, keeps
what a written register holds, and counts the read (the model's form of 00_scope.md R11, entry 29). -/
def Obligations.MicroOpsDoWhatTheTableSays : Prop :=
  (∀ (s : State) (l : Line), ∃ t, perform (.rel l) s = .next t ∧ t.dir.get l = .released ∧
    (∀ k, k ≠ l → t.dir.get k = s.dir.get k) ∧ t.trace = s.trace ++ [.rel l] ∧ SameRegisters s t) ∧
  (∀ (s : State) (l : Line), ∃ t, perform (.low l) s = .next t ∧ t.dir.get l = .assertedLow ∧
    (∀ k, k ≠ l → t.dir.get k = s.dir.get k) ∧ t.trace = s.trace ++ [.low l] ∧ SameRegisters s t) ∧
  (∀ s : State, ∃ t, perform .wait s = .next t ∧ t.dir = s.dir ∧ t.trace = s.trace ++ [.wait] ∧
    SameRegisters s t) ∧
  (∀ s : State, ∃ t, perform .sample s = .next t ∧ t.dir = s.dir ∧
    t.trace = s.trace ++ [.sample s.levelDio] ∧ t.ack = some s.levelDio ∧
    SameRegisters s { t with ack := s.ack }) ∧
  (∀ (s : State) (b : Byte), perform (.loadSR b) s = .next { s with sr := some b, bc := some 0#4 }) ∧
  (∀ (s : State) (v : Byte), s.sr = some v → v.getLsbD 0 = true → perform .outBit s = perform (.rel .dio) s) ∧
  (∀ (s : State) (v : Byte), s.sr = some v → v.getLsbD 0 = false → perform .outBit s = perform (.low .dio) s) ∧
  (∀ (s : State) (v : Byte) (c : BitVec 4), s.sr = some v → s.bc = some c →
    perform .shift s = .next { s with sr := some (v >>> 1), bc := some (c + 1#4) }) ∧
  (∀ s : State, s.sr = none → ∃ b : Bool, perform .outBit s =
    perform (if b then .rel .dio else .low .dio) { s with unwrittenReads := s.unwrittenReads + 1 }) ∧
  (∀ s : State, s.sr = none ∨ s.bc = none → ∃ (v : Byte) (c : BitVec 4),
    (∀ x, s.sr = some x → v = x) ∧ (∀ x, s.bc = some x → c = x) ∧
    perform .shift s = .next { s with
      sr := some (v >>> 1)
      bc := some (c + 1#4)
      unwrittenReads := s.unwrittenReads + 1 }) ∧
  (∀ s : State, perform .endFrame s = .next { s with
    d := { q0 := none, q1 := none, q2 := none, q3 := none }
    p := { q0 := none, q1 := none, q2 := none, q3 := none } })

/-- A word presented while SEQ is not empty or FAULT is not None has no step (10_state.md R35): every
command's meaning refuses it, the fault after the busy block. -/
def Obligations.CommandsAreRefusedWhileBusyOrFaulted : Prop :=
  ∀ (i : Instr) (s : State), isCommand i = true →
    (s.seq ≠ [] → exec i s = .refused .busy) ∧
    (s.seq = [] → s.fault ≠ .none → exec i s = .refused .faulted) ∧
    (∀ t, exec i s = .next t → s.seq = [] ∧ s.fault = .none)

/-- An idle, unfaulted block with nothing to read and no word at the port has no step: "it waits for a
host command" (10_state.md R29). -/
def Obligations.IdleBlockWaitsForACommand : Prop :=
  ∀ s : State, s.HostTurn → s.NoReset → s.port.words = [] → step s = .refused .noCommand

/-! Faults and reset. -/

/-- `raise Fault(kind)` happens only in the step that accepts a word; it sets FAULT, empties SEQ and
leaves everything else, but for the word taken from the port (60_exceptions.md R115). -/
def Obligations.FaultIsRaisedOnlyByTheAcceptingStep : Prop :=
  ∀ s t : State, s.resetAsserted = false → step s = .next t → t.fault ≠ s.fault →
    s.seq = [] ∧ s.fault = .none ∧ ∃ w rest, s.port.words = w :: rest ∧
      t = { s with
        fault := t.fault
        seq := []
        port := { words := rest, resetLine := s.port.resetLine.tail } }

/-- FAULT is sticky: no step but reset changes it, a faulted block stays faulted and idle, every command
is refused while it is set, a faulted idle block has no step, a faulted state is no successful end, and
reset sets FAULT back to None (60_exceptions.md R119). -/
def Obligations.FaultIsStickyUntilReset : Prop :=
  (∀ s t : State, s.fault ≠ .none → s.resetAsserted = false → step s = .next t →
    t.fault = s.fault ∧ (s.seq = [] → t.seq = [])) ∧
  (∀ (i : Instr) (s t : State), s.fault ≠ .none → isCommand i = true → exec i s ≠ .next t) ∧
  (∀ s : State, s.fault ≠ .none → s.seq = [] → s.display.inbox = [] → s.display.data = [] → s.NoReset →
    step s = .refused .faulted) ∧
  (∀ s : State, s.fault ≠ .none → ¬ s.EndedWell) ∧
  (∀ s : State, s.resetAsserted = true → ∃ t, step s = .next t ∧ t.fault = .none)

/-- A reserved opcode and a word with a must-be-0 bit set raise IllegalCommand, with no other effect
(30_encoding.md R69, 60_exceptions.md R115). -/
def Obligations.FaultingCommandsTakeTheirFault : Prop :=
  ∀ s : State, s.Accepting →
    (∀ low, exec (.reserved low) s = .next { s with fault := .illegalCommand, seq := [] }) ∧
    (∀ x : Reject, rejectWord x s = .next { s with fault := .illegalCommand, seq := [] })

/-- A digit above 9 raises InvalidDigit: SEGOUT is not written, no micro-op is enqueued and no event is
emitted (42_segment_encoder.md R102). -/
def Obligations.InvalidDigitNeverReachesTheBus : Prop :=
  ∀ (s : State) (d : BitVec 4), s.Accepting → 9 < d.toNat →
    exec (.enc d) s = .next { s with fault := .invalidDigit, seq := [] } ∧
    ∀ t, exec (.enc d) s = .next t → t.segout = s.segout ∧ t.seq = [] ∧ t.trace = s.trace

/-- What reset leaves, in the state right after reset and after a step with the reset line asserted,
which always answers a next state, also while busy or faulted (70_reset_and_hazards.md R130, 10_state.md
R42). -/
def Obligations.ResetLeavesTheStatedValues : Prop :=
  State.reset.HasResetValues ∧
  ∀ s : State, s.resetAsserted = true → ∃ t, step s = .next t ∧ t.HasResetValues

/-- What the model's reset does beside the block, its own choices: the host's words and the coming levels
of the reset line stay, no acknowledge window is open, and the display observer starts again at `⊥`
(entries 12 and 13), and the counters of the free values go on. -/
def Obligations.ResetKeepsTheHostsInputs : Prop :=
  ∀ s : State, s.resetAsserted = true →
    ∃ t, step s = .next t ∧ t.port = { words := s.port.words, resetLine := s.port.resetLine.tail } ∧
      t.slave.window = false ∧ t.display = Display.initial ∧ s.slave.draws ≤ t.slave.draws ∧
      t.unwrittenReads = s.unwrittenReads

/-! Meanings and frames. -/

/-- REL, LOW and WAIT run in every accepting state and enqueue their one micro-op; nothing else changes
(40_line_and_delay.md R80, R81, R83). -/
def Obligations.LineCommandsCompleteWithOneMicroOp : Prop :=
  ∀ s : State, s.Accepting →
    (∀ l, exec (.rel l) s = .next { s with seq := [.rel l] }) ∧
    (∀ l, exec (.low l) s = .next { s with seq := [.low l] }) ∧
    exec .wait s = .next { s with seq := [.wait] }

/-- START, STOP and WRB run in every accepting state, whatever the lines, and enqueue the lists the
spec writes out; nothing else changes (41_bus_protocol.md R90, R91, R92, R94). -/
def Obligations.BusCommandsCompleteWithTheirLists : Prop :=
  ∀ s : State, s.Accepting →
    exec .start s = .next { s with seq := [.rel .dio, .rel .clk, .wait, .low .dio, .wait, .low .clk] } ∧
    exec .stop s = .next { s with seq := [.low .clk, .wait, .low .dio, .wait, .rel .clk, .wait, .rel .dio] } ∧
    ∀ b, exec (.wrb b) s = .next { s with
      seq := [.loadSR b] ++
        (List.replicate 8 [MicroOp.low .clk, .outBit, .wait, .rel .clk, .wait, .shift]).flatten ++
        [.low .clk, .rel .dio, .wait, .rel .clk, .wait, .sample, .low .clk] }

/-- Frame of REL, LOW, WAIT, START, STOP and WRB at their issue: SEQ changes and nothing else. -/
def Obligations.IssuedBusCommandsChangeSeqOnly : Prop :=
  ∀ (i : Instr) (s t : State),
    ((∃ l, i = .rel l) ∨ (∃ l, i = .low l) ∨ i = .wait ∨ i = .start ∨ i = .stop ∨ (∃ b, i = .wrb b)) →
    exec i s = .next t →
    SameRegisters s t ∧ SameBus s t ∧ SameDisplay s t ∧ t.fault = s.fault ∧ t.port = s.port

/-- ENC of 0..9 runs in every accepting state, puts the table's entry in SEGOUT, enqueues no micro-op
and changes nothing else (42_segment_encoder.md R100, R101). -/
def Obligations.EncPutsTheTableEntryInSegout : Prop :=
  ∀ (s : State) (d : Fin 10), s.Accepting →
    exec (.enc (BitVec.ofNat 4 d.val)) s = .next { s with segout := some (Config.segTable d), seq := [] }

/-- Apart from SEGOUT, ENC writes no register: it touches no line, no serializer, acknowledge, number or
frame register, and emits nothing (42_segment_encoder.md R103). -/
def Obligations.EncWritesSegoutOnly : Prop :=
  ∀ (s t : State) (d : BitVec 4), exec (.enc d) s = .next t →
    SameRegisters s { t with segout := s.segout } ∧ SameBus s t ∧ SameDisplay s t ∧ t.seq = s.seq ∧
    t.port = s.port ∧ (d.toNat ≤ 9 → t.fault = s.fault)

/-- SHOW runs in every accepting state for every number: it writes N, the digits by division and
remainder, their patterns, and SEQ to the three transactions and mENDFRAME (43_sequencer.md R105 to R109). -/
def Obligations.ShowIssuesItsThreeTransactions : Prop :=
  ∀ (s : State) (n : BitVec 16), s.Accepting →
    ∃ p0 p1 p2 p3 : Fin 10,
      p0.val = n.toNat / 1000 % 10 ∧ p1.val = n.toNat / 100 % 10 ∧ p2.val = n.toNat / 10 % 10 ∧
      p3.val = n.toNat % 10 ∧
      exec (.showNum n) s = .next { s with
        n := some n
        d := { q0 := some (BitVec.ofNat 4 p0.val), q1 := some (BitVec.ofNat 4 p1.val),
               q2 := some (BitVec.ofNat 4 p2.val), q3 := some (BitVec.ofNat 4 p3.val) }
        p := { q0 := some (Config.segTable p0), q1 := some (Config.segTable p1),
               q2 := some (Config.segTable p2), q3 := some (Config.segTable p3) }
        seq :=
          (startList ++ wrbList 0x40#8 ++ stopList) ++
          (startList ++ wrbList 0xC0#8 ++ wrbList (Config.segTable p0) ++ wrbList (Config.segTable p1) ++
            wrbList (Config.segTable p2) ++ wrbList (Config.segTable p3) ++ stopList) ++
          (startList ++ wrbList (0x88#8 ||| Config.brightness.zeroExtend 8) ++ stopList) ++ [.endFrame] }

/-- Frame of SHOW at its issue: N, D, P and SEQ change and nothing else. -/
def Obligations.IssuedShowChangesItsOwnRegistersOnly : Prop :=
  ∀ (s t : State) (n : BitVec 16), exec (.showNum n) s = .next t →
    t.sr = s.sr ∧ t.bc = s.bc ∧ t.ack = s.ack ∧ t.segout = s.segout ∧ SameBus s t ∧ SameDisplay s t ∧
    t.fault = s.fault ∧ t.port = s.port

/-- Numbers above 9999 wrap: SHOW n and SHOW (n % 10000) have the same digits and leave the same state
but for N, at their issue and at their end, so they emit the same trace (43_sequencer.md R111). -/
def Obligations.ShowWrapsNumbersAbove9999 : Prop :=
  ∀ (s : State) (n : BitVec 16), s.Accepting →
    digits n = digits (BitVec.ofNat 16 (n.toNat % 10000)) ∧
    (∃ t, exec (.showNum n) s = .next t ∧
      exec (.showNum (BitVec.ofNat 16 (n.toNat % 10000))) s =
        .next { t with n := some (BitVec.ofNat 16 (n.toNat % 10000)) }) ∧
    (s.NoReset → ∃ t u, runCommand (.showNum n) s = .next t ∧
      runCommand (.showNum (BitVec.ofNat 16 (n.toNat % 10000))) s = .next u ∧
      u = { t with n := some (BitVec.ofNat 16 (n.toNat % 10000)) } ∧ u.trace = t.trace)

/-- The four digits are the decimal digits of the number modulo 10000, and rejoin to it
(43_sequencer.md R105). -/
def Obligations.DigitsRejoinToTheNumber : Prop :=
  ∀ n : BitVec 16, rejoin (digits n) = n.toNat % 10000 ∧ (n.toNat ≤ 9999 → rejoin (digits n) = n.toNat)

/-- What the wire bytes do in the observer: the data command sets the mode; the address command, in that
mode, sets address 0; the control command sets the display on and its brightness; a pattern byte is
stored at an address below 4, which advances (20_memory.md R61, 30_encoding.md R73 to R76). -/
def Obligations.WireBytesCompleteInTheObserver : Prop :=
  ∀ s : State,
    exec .cmdData s = .next { s with display := { s.display with mode := some .autoIncWrite } } ∧
    (s.display.mode = some .autoIncWrite →
      exec .cmdAddr s = .next { s with display := { s.display with addr := some 0 } }) ∧
    (∀ b, exec (.cmdDisp b) s = .next { s with display := { s.display with dispOn := some true, bright := some b } }) ∧
    (∀ a p, s.display.addr = some a → a < 4 →
      ∃ m, s.display.ram.write a p = some m ∧ m.read a = some p ∧
        exec (.segData p) s = .next { s with display := { s.display with ram := m, addr := some (a + 1) } })

/-- Where the observer refuses: an address command outside mode AutoIncWrite, and a pattern byte at
address 4 or above or with no address (20_memory.md R61). It still answers a next state, which counts
the refusal (the model's record, entry 17) and changes nothing else. -/
def Obligations.ObserverRefusesWhatHasNoMeaning : Prop :=
  ∀ s : State,
    (s.display.mode = none →
      exec .cmdAddr s = .next { s with display := { s.display with refusals := s.display.refusals + 1 } }) ∧
    (∀ p a, s.display.addr = some a → 4 ≤ a →
      exec (.segData p) s = .next { s with display := { s.display with refusals := s.display.refusals + 1 } }) ∧
    (∀ p, s.display.addr = none →
      exec (.segData p) s = .next { s with display := { s.display with refusals := s.display.refusals + 1 } })

/-- Frame of the four wire bytes: nothing of the block, the bus, the slave or the host's side changes;
the three commands store nothing, and a pattern byte stores at most at the observer's address. -/
def Obligations.WireBytesLeaveTheBlockAlone : Prop :=
  ∀ (i : Instr) (s t : State), isCommand i = false → exec i s = .next t →
    SameRegisters s t ∧ SameBus s t ∧ t.seq = s.seq ∧ t.fault = s.fault ∧ t.port = s.port ∧
    ((∀ p, i ≠ .segData p) → ∀ a, t.display.ram.read a = s.display.ram.read a) ∧
    (∀ p, i = .segData p →
      (∀ a, s.display.addr = some a → ∀ b, b ≠ a → t.display.ram.read b = s.display.ram.read b) ∧
      (∀ a, s.display.addr = some a → 4 ≤ a → ∀ b, t.display.ram.read b = s.display.ram.read b) ∧
      (s.display.addr = none → ∀ b, t.display.ram.read b = s.display.ram.read b))

/-! The display's memory and the observer. -/

/-- A read after a write gives the written byte there and the old one elsewhere, the canonical form is
kept, and addresses of 4 and above do not exist (20_memory.md R61, R62). -/
def Obligations.DisplayMemoryReadsWhatWasWritten : Prop :=
  ∀ (m : Memory) (a : Nat) (v : Byte), m.wf = true →
    (4 ≤ a → m.write a v = none) ∧
    (a < 4 → ∃ m', m.write a v = some m' ∧ m'.wf = true ∧
      ∀ b, m'.read b = if b = a then some v else m.read b)

/-- Two memories in canonical form that read alike everywhere are the same data (the model's own
canonical form, entry 23). -/
def Obligations.CanonicalMemoriesThatReadAlikeAreEqual : Prop :=
  ∀ m m' : Memory, m.wf = true → m'.wf = true → (∀ a, m.read a = m'.read a) → m = m'

/-- An idle machine with one frame to read has read it after at most one step more than the frame has
bytes, and the observer is then what `readFrame` makes of that frame. Where 20_memory.md R61 speaks,
`readFrame` is R61; the model's choices are the byte at a time (entry 15), that an empty frame does nothing
(entry 16), the count of refusals (entry 17), and that a fifth data byte is refused alone (entry 18). -/
def Obligations.ReadingAFrameFollowsTheObserverRule : Prop :=
  ∀ (s : State) (f : List Byte), s.seq = [] → s.NoReset → s.display.data = [] → s.display.inbox = [f] →
    ∃ k, k ≤ f.length + 1 ∧
      run k s = .next { s with display := ({ s.display with inbox := [] } : Display).readFrame f }

/-- An invariant of every step: the observer, once it has read what it has received, is what `readFrame`
makes of `decode(TRACE)`, frame by frame. Where 20_memory.md R61 speaks, `readFrame` is R61; that the
observer may lag behind the trace is entry 15, and empty frames, the count of refusals and a fifth data byte
are the model's choices (entries 16, 17 and 18). -/
def Obligations.StepKeepsTheObserverInStepWithTheTrace : Prop :=
  ∀ s t : State, s.DisplayAgrees → step s = .next t → t.DisplayAgrees

/-! Invariants. -/

/-- Every step keeps the invariants of 10_state.md R44, from every state that meets them. -/
def Obligations.StepKeepsTheInvariants : Prop :=
  ∀ s t : State, s.Inv → step s = .next t → t.Inv

/-- Every step keeps the agreement of the lines and the decoder with the trace: `decode(TRACE)` is what
the decoder holds (20_memory.md R55 to R60). -/
def Obligations.StepKeepsTheDecoderInStepWithTheTrace : Prop :=
  ∀ s t : State, s.TraceAgrees → step s = .next t →
    t.TraceAgrees ∧ t.decoder.frames = decodeTrace Lines.atReset t.trace t.pulls

/-- The reset state meets the three invariants. -/
def Obligations.ResetMeetsTheInvariants : Prop :=
  State.reset.Inv ∧ State.reset.TraceAgrees ∧ State.reset.DisplayAgrees

/-- "No ⊥ register is read before it is written" (10_state.md R42): from a state that meets the invariants
no step reads a register that holds `⊥`. The model counts such reads (entry 29), and the count stays. -/
def Obligations.NoStepReadsAnUnwrittenRegister : Prop :=
  ∀ s t : State, s.Inv → step s = .next t → t.unwrittenReads = s.unwrittenReads

/-- A register at `⊥` may hold any value (93_implementation_defined.md U13, 10_state.md R42): filling the
registers that hold `⊥` with any values changes no outcome of a step that reads none of them. It answers a
next state, or is refused, just as before, and the two next states differ at most in registers that hold `⊥`
in the first. That no step from the invariants reads one is NoStepReadsAnUnwrittenRegister. -/
def Obligations.UnwrittenRegistersMayHoldAnyValue : Prop :=
  ∀ s u : State, FillsUnwritten s u →
    (∀ t, step s = .next t → t.unwrittenReads = s.unwrittenReads →
      ∃ v, step u = .next v ∧ FillsUnwritten t v) ∧
    (∀ r, step s = .refused r → step u = .refused r)

/-- Every operation ends: a busy block, with no reset to come, is idle after exactly as many steps as SEQ
has micro-ops (10_state.md R43, 60_exceptions.md R129). -/
def Obligations.BusyBlockEndsItsOperation : Prop :=
  ∀ s : State, s.NoReset → ∃ t, run s.seq.length s = .next t ∧ t.busy = false ∧
    t.fault = s.fault ∧ t.port = s.port

/-! Levels and the slave. -/

/-- The level of each line is the wired-AND of every agent's drive (20_memory.md R54). -/
def Obligations.LevelsAreTheWiredAnd : Prop :=
  ∀ s : State, (s.levelClk = true ↔ s.dir.clk = .released) ∧
    (s.levelDio = true ↔ s.dir.dio = .released ∧ s.slave.pull = false)

/-- The host's status outputs and the pins: BUSY is `SEQ ≠ []`, FAULT and SEGOUT are their registers, a
line's output enable is 1 exactly when it is asserted low, and the output data are 0, so no pin is ever
driven high (10_state.md R24, R36, R37, R44). -/
def Obligations.OutputsFollowTheRegisters : Prop :=
  ∀ s : State, (s.hostStatus.busy = true ↔ s.seq ≠ []) ∧ s.hostStatus.fault = s.fault ∧
    s.hostStatus.segout = s.segout ∧ (s.pins.clkOE = true ↔ s.dir.clk = .assertedLow) ∧
    (s.pins.dioOE = true ↔ s.dir.dio = .assertedLow) ∧ s.pins.clkO = false ∧ s.pins.dioO = false

/-- A step without reset changes slave_pull only at an event after which CLK is low; a slave that pulls only
inside an acknowledge window goes on doing so, and it has let go when a window has closed (20_memory.md R54).
A window opens exactly at the Low(CLK) that begins an acknowledge phase, where the slave takes its next
choice, and closes at the next Low(CLK) (41_bus_protocol.md R92; that the slave takes one choice at each
event inside the window with CLK low is entry 7). A slave that pulls outside a window, which only a reset can
leave, goes on pulling until the first event after which CLK is low, and lets go there (entry 6). -/
def Obligations.SlavePullsOnlyInsideTheWindow : Prop :=
  ∀ s t : State, s.resetAsserted = false → step s = .next t →
    (t.slave.pull ≠ s.slave.pull → t.levelClk = false ∧ ∃ e, t.trace = s.trace ++ [e]) ∧
    ((s.slave.pull = true → s.slave.window = true) → t.slave.pull = true → t.slave.window = true) ∧
    (s.slave.window = true → t.slave.window = false → t.slave.pull = false) ∧
    (t.trace ≠ s.trace → t.levelClk = false → t.slave.window = false → t.slave.pull = false) ∧
    (s.slave.window = false → (t.slave.window = true ↔ ∃ rest, s.seq = ackPhase ++ rest)) ∧
    (s.slave.window = true → (t.slave.window = false ↔ ∃ rest, s.seq = .low .clk :: rest)) ∧
    (t.trace ≠ s.trace → t.levelClk = false → t.slave.window = true →
      ∀ a as, s.slave.moves = a :: as → t.slave.pull = a ∧ t.slave.moves = as)

/-- The acknowledge is ignored: two busy states that differ only in the slave, what it has answered and
what has been received take steps that keep them so; the event is the same up to the sampled value
(41_bus_protocol.md R93). -/
def Obligations.AcknowledgeNeverSteersTheController : Prop :=
  ∀ s t s' : State, SlaveBlind s t → s.busy = true → step s = .next s' →
    ∃ t', step t = .next t' ∧ SlaveBlind s' t'

/-! Operations run to their end. -/

/-- REL, LOW and WAIT run to their end: the line has the direction, the other line is as it was, one
event is emitted, and no register changes (40_line_and_delay.md R80, R81, R83). -/
def Obligations.LineCommandsRunToTheirEnd : Prop :=
  ∀ s : State, s.Accepting → s.NoReset →
    (∀ l, ∃ t, runCommand (.rel l) s = .next t ∧ t.dir = s.dir.set l .released ∧
      t.trace = s.trace ++ [.rel l] ∧ SameRegisters s t ∧ t.Accepting) ∧
    (∀ l, ∃ t, runCommand (.low l) s = .next t ∧ t.dir = s.dir.set l .assertedLow ∧
      t.trace = s.trace ++ [.low l] ∧ SameRegisters s t ∧ t.Accepting) ∧
    (∃ t, runCommand .wait s = .next t ∧ t.dir = s.dir ∧ t.trace = s.trace ++ [.wait] ∧
      SameRegisters s t ∧ t.Accepting)

/-- START from any line directions ends with both lines asserted low after its six events
(41_bus_protocol.md R90, R96). -/
def Obligations.StartEndsWithBothLinesLow : Prop :=
  ∀ s : State, s.Accepting → s.NoReset →
    ∃ t, runCommand .start s = .next t ∧ t.dir = { clk := .assertedLow, dio := .assertedLow } ∧
      t.trace = s.trace ++ [.rel .dio, .rel .clk, .wait, .low .dio, .wait, .low .clk] ∧
      SameRegisters s t ∧ t.Accepting

/-- STOP ends with both lines released after its seven events (41_bus_protocol.md R94). -/
def Obligations.StopEndsWithBothLinesReleased : Prop :=
  ∀ s : State, s.Accepting → s.NoReset →
    ∃ t, runCommand .stop s = .next t ∧ t.dir = { clk := .released, dio := .released } ∧
      t.trace = s.trace ++ [.low .clk, .wait, .low .dio, .wait, .rel .clk, .wait, .rel .dio] ∧
      SameRegisters s t ∧ t.Accepting

/-- WRB sends the byte's bits least significant first and the acknowledge phase, 47 events, and ends with
CLK low, DIO released, SR 0, BC 8 and the sampled bit in ACK (41_bus_protocol.md R91, R92; 20_memory.md R50).
The sampled bit is what the slave chose: it holds its choice of the last event of the window with CLK low,
the third, and a pull reads as 0, so any value is possible (R92; one choice at each such event is entry 7). -/
def Obligations.WrbSendsItsBitsLeastSignificantFirst : Prop :=
  ∀ (s : State) (b : Byte), s.Accepting → s.NoReset →
    ∃ t v, runCommand (.wrb b) s = .next t ∧ t.dir = { clk := .assertedLow, dio := .released } ∧
      t.trace = s.trace ++ wrbEvents b v ∧ t.sr = some 0#8 ∧ t.bc = some 8#4 ∧ t.ack = some v ∧
      t.n = s.n ∧ t.d = s.d ∧ t.p = s.p ∧ t.segout = s.segout ∧ t.Accepting ∧
      (s.slave.window = false → ∀ x y pull rest, s.slave.moves = x :: y :: pull :: rest →
        v = !pull ∧ t.slave.moves = rest ∧ t.slave.window = false ∧ t.slave.pull = false)

/-- Inside a frame with no bits latched and CLK low, WRB adds exactly its byte, with the sampled bit as
the acknowledge bit, and ends inside the frame with no bits latched (41_bus_protocol.md R92, R95). -/
def Obligations.WrbIsDecodedAsItsByte : Prop :=
  ∀ (s : State) (b : Byte), s.Accepting → s.NoReset → s.SlaveQuiet → s.LevelsSeen →
    s.decoder.inFrame = true → s.decoder.bits = [] → s.dir.clk = .assertedLow →
    ∃ t v, runCommand (.wrb b) s = .next t ∧ t.ack = some v ∧ t.decoder.cur = s.decoder.cur ++ [(b, v)] ∧
      t.decoder.frames = s.decoder.frames ∧ t.decoder.inFrame = true ∧ t.decoder.bits = [] ∧
      t.SlaveQuiet ∧ t.LevelsSeen

/-- SHOW runs to its end in every accepting state: 368 events, 141 WAITs, 7 samples, both lines released,
SR 0, BC 8, D and P `⊥`, N the number (43_sequencer.md R106, R110, R114; 95_test_vectors.md V-SHOW). -/
def Obligations.ShowRunsToItsEnd : Prop :=
  ∀ (s : State) (n : BitVec 16), s.Accepting → s.NoReset →
    ∃ t evs, runCommand (.showNum n) s = .next t ∧ t.trace = s.trace ++ evs ∧ evs.length = 368 ∧
      evs.count .wait = 141 ∧ minDurationUs evs = 141 * Config.delayUnitUs ∧ (samples evs).length = 7 ∧
      t.dir = { clk := .released, dio := .released } ∧ t.sr = some 0#8 ∧ t.bc = some 8#4 ∧
      t.n = some n ∧ t.d = { q0 := none, q1 := none, q2 := none, q3 := none } ∧
      t.p = { q0 := none, q1 := none, q2 := none, q3 := none } ∧ t.segout = s.segout ∧ t.Accepting

/-- The framing law (41_bus_protocol.md R98): from idle, `start; wrb b1; ...; wrb bk; stop` adds exactly
one frame, the bytes with the sampled acknowledge bits, and the bus ends idle. Where the decoder held
`decode(TRACE)` before, it does after, so the frame is added to `decode(TRACE)`. -/
def Obligations.FramedBytesAreDecodedAsOneFrame : Prop :=
  ∀ (s : State) (bs : List Byte) (rest : List CommandWord), s.Idle →
    s.port.words = commandWords (.start :: bs.map .wrb ++ [.stop]) ++ rest →
    ∃ t evs, run (7 + 57 * bs.length + 8) s = .next t ∧ t.port.words = rest ∧
      t.trace = s.trace ++ evs ∧ (samples evs).length = bs.length ∧
      t.decoder.frames = s.decoder.frames ++ [bs.zip (samples evs)] ∧
      (s.TraceAgrees → decodeTrace Lines.atReset t.trace t.pulls =
        decodeTrace Lines.atReset s.trace s.pulls ++ [bs.zip (samples evs)]) ∧
      t.decoder.inFrame = false ∧
      t.dir = { clk := .released, dio := .released } ∧ t.SlaveQuiet ∧ t.LevelsSeen ∧ t.Accepting

/-- The decoder's other cases, whatever the line directions: a START closes an open frame and opens the
next (a repeated START, 20_memory.md R57, 41_bus_protocol.md R96), a STOP closes an open frame and without
one adds nothing (R59), and the latches of a WRB outside a frame are ignored (R58). The stray bit that the
CLK rise of a START or a STOP may latch is dropped; it must not be a ninth bit. -/
def Obligations.FramesOpenAndCloseFromAnyDirections : Prop :=
  ∀ s : State, s.Accepting → s.NoReset → s.SlaveQuiet → s.LevelsSeen →
    (s.decoder.inFrame = true → s.decoder.bits.length < 8 →
      (∃ t, runCommand .start s = .next t ∧ t.decoder.frames = s.decoder.frames ++ [s.decoder.cur] ∧
        t.decoder.inFrame = true ∧ t.decoder.cur = [] ∧ t.decoder.bits = []) ∧
      ∃ t, runCommand .stop s = .next t ∧ t.decoder.frames = s.decoder.frames ++ [s.decoder.cur] ∧
        t.decoder.inFrame = false) ∧
    (s.decoder.inFrame = false →
      (∃ t, runCommand .start s = .next t ∧ t.decoder.frames = s.decoder.frames ∧
        t.decoder.inFrame = true ∧ t.decoder.cur = [] ∧ t.decoder.bits = []) ∧
      (∃ t, runCommand .stop s = .next t ∧ t.decoder.frames = s.decoder.frames ∧ t.decoder.inFrame = false) ∧
      ∀ b, ∃ t, runCommand (.wrb b) s = .next t ∧ t.decoder.frames = s.decoder.frames ∧
        t.decoder.inFrame = false)

/-- SHOW emits three frames (43_sequencer.md R113): from idle, taking the word, its 432 micro-ops and the
observer's 7 bytes, the decoder has three more frames, the observer holds the four patterns with the
display on at the configured brightness, nothing was refused, and the bus is idle again. The observer's 7
steps and the count of refusals are the model's choices (entries 15 and 17). -/
def Obligations.ShowEmitsThreeFramesAndProgramsTheDisplay : Prop :=
  ∀ (s : State) (n : BitVec 16) (rest : List CommandWord), s.Idle →
    s.port.words = commandWords [.showNum n] ++ rest →
    ∃ t f0 f1 f2, run (1 + 432 + 7) s = .next t ∧ t.Idle ∧ t.port.words = rest ∧
      t.decoder.frames = s.decoder.frames ++ [f0, f1, f2] ∧
      frameBytes f0 = [0x40#8] ∧
      frameBytes f1 = [0xC0#8, Config.segTable (digits n).q0, Config.segTable (digits n).q1,
        Config.segTable (digits n).q2, Config.segTable (digits n).q3] ∧
      frameBytes f2 = [0x88#8 ||| Config.brightness.zeroExtend 8] ∧
      t.display.mode = some .autoIncWrite ∧ t.display.addr = some 4 ∧
      t.display.ram.read 0 = some (Config.segTable (digits n).q0) ∧
      t.display.ram.read 1 = some (Config.segTable (digits n).q1) ∧
      t.display.ram.read 2 = some (Config.segTable (digits n).q2) ∧
      t.display.ram.read 3 = some (Config.segTable (digits n).q3) ∧
      t.display.dispOn = some true ∧ t.display.bright = some Config.brightness ∧
      t.display.refusals = s.display.refusals

/-- A first SHOW after reset is enough, whichever way the lines are reset, for a slave that keeps its
discipline (70_reset_and_hazards.md R134, R138; 95_test_vectors.md V-SHOW-11). With CLK asserted low the
slave may hold anything at first, because it lets go at the first event (the model's choice, entry 6); the
observer's 7 steps and the count of refusals are entries 15 and 17. -/
def Obligations.FirstShowAfterResetProgramsTheDisplay : Prop :=
  ∀ (s : State) (x : Dir) (n : BitVec 16) (rest : List CommandWord), s.JustReset x →
    s.port.words = commandWords [.showNum n] ++ rest →
    ∃ t, run (1 + 432 + 7) s = .next t ∧ t.Idle ∧ t.port.words = rest ∧
      t.decoder.frames.map frameBytes =
        [[0x40#8],
         [0xC0#8, Config.segTable (digits n).q0, Config.segTable (digits n).q1,
          Config.segTable (digits n).q2, Config.segTable (digits n).q3],
         [0x88#8 ||| Config.brightness.zeroExtend 8]] ∧
      t.display.mode = some .autoIncWrite ∧
      t.display.ram.read 0 = some (Config.segTable (digits n).q0) ∧
      t.display.ram.read 1 = some (Config.segTable (digits n).q1) ∧
      t.display.ram.read 2 = some (Config.segTable (digits n).q2) ∧
      t.display.ram.read 3 = some (Config.segTable (digits n).q3) ∧
      t.display.dispOn = some true ∧ t.display.bright = some Config.brightness ∧ t.display.refusals = 0

/-- SHOW equals its three transactions by hand: `txa; txb P[0..3]; txc` ends in the same state but for N,
D and P, with the same slave, so the same events (43_sequencer.md R113, 30_encoding.md R79). -/
def Obligations.ShowEqualsItsTransactionsByHand : Prop :=
  ∀ (s : State) (n : BitVec 16), s.Accepting → s.NoReset →
    ∃ t, runCommand (.showNum n) s = .next t ∧
      runCommands (pseudoTxa ++ pseudoTxb ((digits n).map segPattern) ++ pseudoTxc Config.brightness) s =
        .next { t with n := s.n, d := s.d, p := s.p }

/-- After any sequence of REL and LOW commands each line has the direction of the last command on it, and
of no command on the other line (40_line_and_delay.md R82). -/
def Obligations.LastCommandSetsTheDirection : Prop :=
  ∀ (cs : List (Line × Dir)) (s : State), s.Accepting → s.NoReset →
    ∃ t, runCommands (cs.map lineCommand) s = .next t ∧ t.Accepting ∧
      ∀ l, t.dir.get l = lastDir l (s.dir.get l) cs

/-- In every trace made of START, WRB and STOP the only changes of DIO the controller makes while CLK is
high are the fall of each START and the rise of each STOP (41_bus_protocol.md R99). The run may begin idle,
after a reset, or after a START or a WRB: "CLK is high before a START only when the bus is idle", so where
CLK is released at the beginning DIO is too; with CLK asserted low DIO may be either. -/
def Obligations.DioChangesWhileHighOnlyInStartAndStop : Prop :=
  ∀ (cs : List Instr) (s : State), (∀ i ∈ cs, i = .start ∨ i = .stop ∨ ∃ b, i = .wrb b) →
    s.Accepting → s.NoReset → (s.dir.clk = .released → s.dir.dio = .released) →
    ∃ t evs, runCommands cs s = .next t ∧ t.trace = s.trace ++ evs ∧
      dioChangesWhileHigh s.dir evs = cs.flatMap busEdge

/-! Sizes and hazards. -/

/-- The sizes of a data bit time, of the acknowledge phase and of the expansions, and their WAITs (41_bus_protocol.md R97,
43_sequencer.md R114, 70_reset_and_hazards.md R143, R144). -/
def Obligations.ExpansionsHaveTheStatedSizes : Prop :=
  bitTime.length = 6 ∧ bitTime.count .wait = 2 ∧ ackPhase.length = 7 ∧ ackPhase.count .wait = 2 ∧
  startList.length = 6 ∧ startList.count .wait = 2 ∧ stopList.length = 7 ∧ stopList.count .wait = 3 ∧
  (∀ b, (wrbList b).length = 56 ∧ (wrbList b).count .wait = 18) ∧
  txaList.length = 69 ∧ txaList.count .wait = 23 ∧
  (∀ p, (txbList p).length = 293 ∧ (txbList p).count .wait = 95) ∧
  (∀ b, (txcList b).length = 69 ∧ (txcList b).count .wait = 23) ∧
  (∀ p b, (showList p b).length = 432 ∧ (showList p b).count .wait = 141)

/-- In START, WRB, STOP and SHOW every release of CLK is followed at once by a WAIT, so the rise time has
its settle delay (70_reset_and_hazards.md R136). -/
def Obligations.ClockReleasesAreFollowedByWaits : Prop :=
  clockReleasesSettle startList = true ∧ clockReleasesSettle stopList = true ∧
  (∀ b, clockReleasesSettle (wrbList b) = true) ∧ ∀ p b, clockReleasesSettle (showList p b) = true
end

