-- ==== Sys2Proof/Laws/Decode.lean ====
section
/-! SUPPORT. The decoder's fields as numbers. -/

namespace Sys2Proof

/-- A concatenation as a number: the high part weighs 2^n. -/
theorem append_toNat {m n : Nat} (x : BitVec m) (y : BitVec n) : (x ++ y).toNat = x.toNat * 2 ^ n + y.toNat := by
  rw [BitVec.toNat_append, ← Nat.shiftLeft_add_eq_or_of_lt y.isLt, Nat.shiftLeft_eq]

theorem opField_toNat (w : CommandWord) : (opField w).toNat = w.toNat / 65536 := by
  have := w.isLt
  simp only [opField, BitVec.extractLsb'_toNat, Nat.shiftRight_eq_div_pow]
  omega

theorem argField_toNat (w : CommandWord) : (argField w).toNat = w.toNat % 65536 := by
  simp only [argField, BitVec.extractLsb'_toNat, Nat.shiftRight_zero, Nat.reducePow]

/-- A field of ARG as a number. -/
theorem argField_extract_toNat (w : CommandWord) (lo len : Nat) :
    ((argField w).extractLsb' lo len).toNat = w.toNat % 65536 / 2 ^ lo % 2 ^ len := by
  rw [BitVec.extractLsb'_toNat, argField_toNat, Nat.shiftRight_eq_div_pow]

/-- Bit 0 of ARG. -/
theorem argField_bit0 (w : CommandWord) : (argField w).getLsbD 0 = decide (w.toNat % 2 = 1) := by
  rw [BitVec.getLsbD, argField_toNat, Nat.testBit_zero]
  congr 1
  exact propext (by omega)

/-- A must-be-0 field, by its number. -/
theorem requireZero_eq {k : Nat} (field : BitVec k) (i : Instr) :
    requireZero field i = if field.toNat = 0 then .instr i else .rejected .mustBeZero := by
  unfold requireZero
  congr 1
  exact propext ⟨fun h => by simp [h], fun h => BitVec.eq_of_toNat_eq (by simpa using h)⟩

/-- Masking a 20-bit number with its high bits, from bit `k` up. -/
theorem and_highMask (w k : Nat) (hk : k ≤ 20) (h : w < 2 ^ 20) :
    w &&& ((2 ^ (20 - k) - 1) * 2 ^ k) = w / 2 ^ k * 2 ^ k := by
  have hd : w / 2 ^ k < 2 ^ (20 - k) := by
    rw [Nat.div_lt_iff_lt_mul (Nat.two_pow_pos k), ← Nat.pow_add, Nat.sub_add_cancel hk]; exact h
  apply Nat.eq_of_testBit_eq
  intro i
  rw [Nat.testBit_and, Nat.testBit_mul_two_pow, Nat.testBit_mul_two_pow, Nat.testBit_two_pow_sub_one, Nat.testBit_div_two_pow]
  by_cases hi : k ≤ i
  · have : i - k + k = i := by omega
    simp only [hi, decide_true, Bool.true_and, this]
    by_cases h2 : i - k < 20 - k
    · simp [h2]
    · have : w.testBit i = false := Nat.testBit_lt_two_pow (lt_of_lt_of_le h (Nat.pow_le_pow_right (by decide) (by omega)))
      simp [h2, this]
  · simp [hi]

end Sys2Proof
end

