-- ==== Sys2Proof/Laws/State.lean ====
section
/-! SUPPORT. One lemma per field of State per named update, true by rfl. -/

namespace Sys2Proof.Machine

variable (s : State)

@[simp] theorem State.setDir_dir (l : Line) (x : Dir) : (s.setDir l x).dir = s.dir.set l x := rfl
@[simp] theorem State.setDir_sr (l : Line) (x : Dir) : (s.setDir l x).sr = s.sr := rfl
@[simp] theorem State.setDir_bc (l : Line) (x : Dir) : (s.setDir l x).bc = s.bc := rfl
@[simp] theorem State.setDir_ack (l : Line) (x : Dir) : (s.setDir l x).ack = s.ack := rfl
@[simp] theorem State.setDir_n (l : Line) (x : Dir) : (s.setDir l x).n = s.n := rfl
@[simp] theorem State.setDir_d (l : Line) (x : Dir) : (s.setDir l x).d = s.d := rfl
@[simp] theorem State.setDir_p (l : Line) (x : Dir) : (s.setDir l x).p = s.p := rfl
@[simp] theorem State.setDir_segout (l : Line) (x : Dir) : (s.setDir l x).segout = s.segout := rfl
@[simp] theorem State.setDir_seq (l : Line) (x : Dir) : (s.setDir l x).seq = s.seq := rfl
@[simp] theorem State.setDir_fault (l : Line) (x : Dir) : (s.setDir l x).fault = s.fault := rfl
@[simp] theorem State.setDir_trace (l : Line) (x : Dir) : (s.setDir l x).trace = s.trace := rfl
@[simp] theorem State.setDir_pulls (l : Line) (x : Dir) : (s.setDir l x).pulls = s.pulls := rfl
@[simp] theorem State.setDir_decoder (l : Line) (x : Dir) : (s.setDir l x).decoder = s.decoder := rfl
@[simp] theorem State.setDir_slave (l : Line) (x : Dir) : (s.setDir l x).slave = s.slave := rfl
@[simp] theorem State.setDir_display (l : Line) (x : Dir) : (s.setDir l x).display = s.display := rfl
@[simp] theorem State.setDir_port (l : Line) (x : Dir) : (s.setDir l x).port = s.port := rfl
@[simp] theorem State.setDir_unwrittenReads (l : Line) (x : Dir) : (s.setDir l x).unwrittenReads = s.unwrittenReads := rfl

@[simp] theorem State.setSeq_dir (q : List MicroOp) : (s.setSeq q).dir = s.dir := rfl
@[simp] theorem State.setSeq_sr (q : List MicroOp) : (s.setSeq q).sr = s.sr := rfl
@[simp] theorem State.setSeq_bc (q : List MicroOp) : (s.setSeq q).bc = s.bc := rfl
@[simp] theorem State.setSeq_ack (q : List MicroOp) : (s.setSeq q).ack = s.ack := rfl
@[simp] theorem State.setSeq_n (q : List MicroOp) : (s.setSeq q).n = s.n := rfl
@[simp] theorem State.setSeq_d (q : List MicroOp) : (s.setSeq q).d = s.d := rfl
@[simp] theorem State.setSeq_p (q : List MicroOp) : (s.setSeq q).p = s.p := rfl
@[simp] theorem State.setSeq_segout (q : List MicroOp) : (s.setSeq q).segout = s.segout := rfl
@[simp] theorem State.setSeq_seq (q : List MicroOp) : (s.setSeq q).seq = q := rfl
@[simp] theorem State.setSeq_fault (q : List MicroOp) : (s.setSeq q).fault = s.fault := rfl
@[simp] theorem State.setSeq_trace (q : List MicroOp) : (s.setSeq q).trace = s.trace := rfl
@[simp] theorem State.setSeq_pulls (q : List MicroOp) : (s.setSeq q).pulls = s.pulls := rfl
@[simp] theorem State.setSeq_decoder (q : List MicroOp) : (s.setSeq q).decoder = s.decoder := rfl
@[simp] theorem State.setSeq_slave (q : List MicroOp) : (s.setSeq q).slave = s.slave := rfl
@[simp] theorem State.setSeq_display (q : List MicroOp) : (s.setSeq q).display = s.display := rfl
@[simp] theorem State.setSeq_port (q : List MicroOp) : (s.setSeq q).port = s.port := rfl
@[simp] theorem State.setSeq_unwrittenReads (q : List MicroOp) : (s.setSeq q).unwrittenReads = s.unwrittenReads := rfl

@[simp] theorem State.setSerializer_dir (v : Byte) (c : BitVec 4) : (s.setSerializer v c).dir = s.dir := rfl
@[simp] theorem State.setSerializer_sr (v : Byte) (c : BitVec 4) : (s.setSerializer v c).sr = some v := rfl
@[simp] theorem State.setSerializer_bc (v : Byte) (c : BitVec 4) : (s.setSerializer v c).bc = some c := rfl
@[simp] theorem State.setSerializer_ack (v : Byte) (c : BitVec 4) : (s.setSerializer v c).ack = s.ack := rfl
@[simp] theorem State.setSerializer_n (v : Byte) (c : BitVec 4) : (s.setSerializer v c).n = s.n := rfl
@[simp] theorem State.setSerializer_d (v : Byte) (c : BitVec 4) : (s.setSerializer v c).d = s.d := rfl
@[simp] theorem State.setSerializer_p (v : Byte) (c : BitVec 4) : (s.setSerializer v c).p = s.p := rfl
@[simp] theorem State.setSerializer_segout (v : Byte) (c : BitVec 4) : (s.setSerializer v c).segout = s.segout := rfl
@[simp] theorem State.setSerializer_seq (v : Byte) (c : BitVec 4) : (s.setSerializer v c).seq = s.seq := rfl
@[simp] theorem State.setSerializer_fault (v : Byte) (c : BitVec 4) : (s.setSerializer v c).fault = s.fault := rfl
@[simp] theorem State.setSerializer_trace (v : Byte) (c : BitVec 4) : (s.setSerializer v c).trace = s.trace := rfl
@[simp] theorem State.setSerializer_pulls (v : Byte) (c : BitVec 4) : (s.setSerializer v c).pulls = s.pulls := rfl
@[simp] theorem State.setSerializer_decoder (v : Byte) (c : BitVec 4) : (s.setSerializer v c).decoder = s.decoder := rfl
@[simp] theorem State.setSerializer_slave (v : Byte) (c : BitVec 4) : (s.setSerializer v c).slave = s.slave := rfl
@[simp] theorem State.setSerializer_display (v : Byte) (c : BitVec 4) : (s.setSerializer v c).display = s.display := rfl
@[simp] theorem State.setSerializer_port (v : Byte) (c : BitVec 4) : (s.setSerializer v c).port = s.port := rfl
@[simp] theorem State.setSerializer_unwrittenReads (v : Byte) (c : BitVec 4) : (s.setSerializer v c).unwrittenReads = s.unwrittenReads := rfl

@[simp] theorem State.noteRead_dir (b : Bool) : (s.noteRead b).dir = s.dir := rfl
@[simp] theorem State.noteRead_sr (b : Bool) : (s.noteRead b).sr = s.sr := rfl
@[simp] theorem State.noteRead_bc (b : Bool) : (s.noteRead b).bc = s.bc := rfl
@[simp] theorem State.noteRead_ack (b : Bool) : (s.noteRead b).ack = s.ack := rfl
@[simp] theorem State.noteRead_n (b : Bool) : (s.noteRead b).n = s.n := rfl
@[simp] theorem State.noteRead_d (b : Bool) : (s.noteRead b).d = s.d := rfl
@[simp] theorem State.noteRead_p (b : Bool) : (s.noteRead b).p = s.p := rfl
@[simp] theorem State.noteRead_segout (b : Bool) : (s.noteRead b).segout = s.segout := rfl
@[simp] theorem State.noteRead_seq (b : Bool) : (s.noteRead b).seq = s.seq := rfl
@[simp] theorem State.noteRead_fault (b : Bool) : (s.noteRead b).fault = s.fault := rfl
@[simp] theorem State.noteRead_trace (b : Bool) : (s.noteRead b).trace = s.trace := rfl
@[simp] theorem State.noteRead_pulls (b : Bool) : (s.noteRead b).pulls = s.pulls := rfl
@[simp] theorem State.noteRead_decoder (b : Bool) : (s.noteRead b).decoder = s.decoder := rfl
@[simp] theorem State.noteRead_slave (b : Bool) : (s.noteRead b).slave = s.slave := rfl
@[simp] theorem State.noteRead_display (b : Bool) : (s.noteRead b).display = s.display := rfl
@[simp] theorem State.noteRead_port (b : Bool) : (s.noteRead b).port = s.port := rfl
@[simp] theorem State.noteRead_unwrittenReads (b : Bool) : (s.noteRead b).unwrittenReads = s.unwrittenReads + b.toNat := rfl

@[simp] theorem State.setAck_dir (v : Bool) : (s.setAck v).dir = s.dir := rfl
@[simp] theorem State.setAck_sr (v : Bool) : (s.setAck v).sr = s.sr := rfl
@[simp] theorem State.setAck_bc (v : Bool) : (s.setAck v).bc = s.bc := rfl
@[simp] theorem State.setAck_ack (v : Bool) : (s.setAck v).ack = some v := rfl
@[simp] theorem State.setAck_n (v : Bool) : (s.setAck v).n = s.n := rfl
@[simp] theorem State.setAck_d (v : Bool) : (s.setAck v).d = s.d := rfl
@[simp] theorem State.setAck_p (v : Bool) : (s.setAck v).p = s.p := rfl
@[simp] theorem State.setAck_segout (v : Bool) : (s.setAck v).segout = s.segout := rfl
@[simp] theorem State.setAck_seq (v : Bool) : (s.setAck v).seq = s.seq := rfl
@[simp] theorem State.setAck_fault (v : Bool) : (s.setAck v).fault = s.fault := rfl
@[simp] theorem State.setAck_trace (v : Bool) : (s.setAck v).trace = s.trace := rfl
@[simp] theorem State.setAck_pulls (v : Bool) : (s.setAck v).pulls = s.pulls := rfl
@[simp] theorem State.setAck_decoder (v : Bool) : (s.setAck v).decoder = s.decoder := rfl
@[simp] theorem State.setAck_slave (v : Bool) : (s.setAck v).slave = s.slave := rfl
@[simp] theorem State.setAck_display (v : Bool) : (s.setAck v).display = s.display := rfl
@[simp] theorem State.setAck_port (v : Bool) : (s.setAck v).port = s.port := rfl
@[simp] theorem State.setAck_unwrittenReads (v : Bool) : (s.setAck v).unwrittenReads = s.unwrittenReads := rfl

@[simp] theorem State.setSegout_dir (v : Byte) : (s.setSegout v).dir = s.dir := rfl
@[simp] theorem State.setSegout_sr (v : Byte) : (s.setSegout v).sr = s.sr := rfl
@[simp] theorem State.setSegout_bc (v : Byte) : (s.setSegout v).bc = s.bc := rfl
@[simp] theorem State.setSegout_ack (v : Byte) : (s.setSegout v).ack = s.ack := rfl
@[simp] theorem State.setSegout_n (v : Byte) : (s.setSegout v).n = s.n := rfl
@[simp] theorem State.setSegout_d (v : Byte) : (s.setSegout v).d = s.d := rfl
@[simp] theorem State.setSegout_p (v : Byte) : (s.setSegout v).p = s.p := rfl
@[simp] theorem State.setSegout_segout (v : Byte) : (s.setSegout v).segout = some v := rfl
@[simp] theorem State.setSegout_seq (v : Byte) : (s.setSegout v).seq = s.seq := rfl
@[simp] theorem State.setSegout_fault (v : Byte) : (s.setSegout v).fault = s.fault := rfl
@[simp] theorem State.setSegout_trace (v : Byte) : (s.setSegout v).trace = s.trace := rfl
@[simp] theorem State.setSegout_pulls (v : Byte) : (s.setSegout v).pulls = s.pulls := rfl
@[simp] theorem State.setSegout_decoder (v : Byte) : (s.setSegout v).decoder = s.decoder := rfl
@[simp] theorem State.setSegout_slave (v : Byte) : (s.setSegout v).slave = s.slave := rfl
@[simp] theorem State.setSegout_display (v : Byte) : (s.setSegout v).display = s.display := rfl
@[simp] theorem State.setSegout_port (v : Byte) : (s.setSegout v).port = s.port := rfl
@[simp] theorem State.setSegout_unwrittenReads (v : Byte) : (s.setSegout v).unwrittenReads = s.unwrittenReads := rfl

@[simp] theorem State.setFrame_dir (m : BitVec 16) (x : Quad (BitVec 4)) (y : Quad Byte) : (s.setFrame m x y).dir = s.dir := rfl
@[simp] theorem State.setFrame_sr (m : BitVec 16) (x : Quad (BitVec 4)) (y : Quad Byte) : (s.setFrame m x y).sr = s.sr := rfl
@[simp] theorem State.setFrame_bc (m : BitVec 16) (x : Quad (BitVec 4)) (y : Quad Byte) : (s.setFrame m x y).bc = s.bc := rfl
@[simp] theorem State.setFrame_ack (m : BitVec 16) (x : Quad (BitVec 4)) (y : Quad Byte) : (s.setFrame m x y).ack = s.ack := rfl
@[simp] theorem State.setFrame_n (m : BitVec 16) (x : Quad (BitVec 4)) (y : Quad Byte) : (s.setFrame m x y).n = some m := rfl
@[simp] theorem State.setFrame_d (m : BitVec 16) (x : Quad (BitVec 4)) (y : Quad Byte) : (s.setFrame m x y).d = x.map some := rfl
@[simp] theorem State.setFrame_p (m : BitVec 16) (x : Quad (BitVec 4)) (y : Quad Byte) : (s.setFrame m x y).p = y.map some := rfl
@[simp] theorem State.setFrame_segout (m : BitVec 16) (x : Quad (BitVec 4)) (y : Quad Byte) : (s.setFrame m x y).segout = s.segout := rfl
@[simp] theorem State.setFrame_seq (m : BitVec 16) (x : Quad (BitVec 4)) (y : Quad Byte) : (s.setFrame m x y).seq = s.seq := rfl
@[simp] theorem State.setFrame_fault (m : BitVec 16) (x : Quad (BitVec 4)) (y : Quad Byte) : (s.setFrame m x y).fault = s.fault := rfl
@[simp] theorem State.setFrame_trace (m : BitVec 16) (x : Quad (BitVec 4)) (y : Quad Byte) : (s.setFrame m x y).trace = s.trace := rfl
@[simp] theorem State.setFrame_pulls (m : BitVec 16) (x : Quad (BitVec 4)) (y : Quad Byte) : (s.setFrame m x y).pulls = s.pulls := rfl
@[simp] theorem State.setFrame_decoder (m : BitVec 16) (x : Quad (BitVec 4)) (y : Quad Byte) : (s.setFrame m x y).decoder = s.decoder := rfl
@[simp] theorem State.setFrame_slave (m : BitVec 16) (x : Quad (BitVec 4)) (y : Quad Byte) : (s.setFrame m x y).slave = s.slave := rfl
@[simp] theorem State.setFrame_display (m : BitVec 16) (x : Quad (BitVec 4)) (y : Quad Byte) : (s.setFrame m x y).display = s.display := rfl
@[simp] theorem State.setFrame_port (m : BitVec 16) (x : Quad (BitVec 4)) (y : Quad Byte) : (s.setFrame m x y).port = s.port := rfl
@[simp] theorem State.setFrame_unwrittenReads (m : BitVec 16) (x : Quad (BitVec 4)) (y : Quad Byte) : (s.setFrame m x y).unwrittenReads = s.unwrittenReads := rfl

@[simp] theorem State.endFrame_dir : (s.endFrame).dir = s.dir := rfl
@[simp] theorem State.endFrame_sr : (s.endFrame).sr = s.sr := rfl
@[simp] theorem State.endFrame_bc : (s.endFrame).bc = s.bc := rfl
@[simp] theorem State.endFrame_ack : (s.endFrame).ack = s.ack := rfl
@[simp] theorem State.endFrame_n : (s.endFrame).n = s.n := rfl
@[simp] theorem State.endFrame_d : (s.endFrame).d = Quad.fill none := rfl
@[simp] theorem State.endFrame_p : (s.endFrame).p = Quad.fill none := rfl
@[simp] theorem State.endFrame_segout : (s.endFrame).segout = s.segout := rfl
@[simp] theorem State.endFrame_seq : (s.endFrame).seq = s.seq := rfl
@[simp] theorem State.endFrame_fault : (s.endFrame).fault = s.fault := rfl
@[simp] theorem State.endFrame_trace : (s.endFrame).trace = s.trace := rfl
@[simp] theorem State.endFrame_pulls : (s.endFrame).pulls = s.pulls := rfl
@[simp] theorem State.endFrame_decoder : (s.endFrame).decoder = s.decoder := rfl
@[simp] theorem State.endFrame_slave : (s.endFrame).slave = s.slave := rfl
@[simp] theorem State.endFrame_display : (s.endFrame).display = s.display := rfl
@[simp] theorem State.endFrame_port : (s.endFrame).port = s.port := rfl
@[simp] theorem State.endFrame_unwrittenReads : (s.endFrame).unwrittenReads = s.unwrittenReads := rfl

@[simp] theorem State.setSlave_dir (v : Slave) : (s.setSlave v).dir = s.dir := rfl
@[simp] theorem State.setSlave_sr (v : Slave) : (s.setSlave v).sr = s.sr := rfl
@[simp] theorem State.setSlave_bc (v : Slave) : (s.setSlave v).bc = s.bc := rfl
@[simp] theorem State.setSlave_ack (v : Slave) : (s.setSlave v).ack = s.ack := rfl
@[simp] theorem State.setSlave_n (v : Slave) : (s.setSlave v).n = s.n := rfl
@[simp] theorem State.setSlave_d (v : Slave) : (s.setSlave v).d = s.d := rfl
@[simp] theorem State.setSlave_p (v : Slave) : (s.setSlave v).p = s.p := rfl
@[simp] theorem State.setSlave_segout (v : Slave) : (s.setSlave v).segout = s.segout := rfl
@[simp] theorem State.setSlave_seq (v : Slave) : (s.setSlave v).seq = s.seq := rfl
@[simp] theorem State.setSlave_fault (v : Slave) : (s.setSlave v).fault = s.fault := rfl
@[simp] theorem State.setSlave_trace (v : Slave) : (s.setSlave v).trace = s.trace := rfl
@[simp] theorem State.setSlave_pulls (v : Slave) : (s.setSlave v).pulls = s.pulls := rfl
@[simp] theorem State.setSlave_decoder (v : Slave) : (s.setSlave v).decoder = s.decoder := rfl
@[simp] theorem State.setSlave_slave (v : Slave) : (s.setSlave v).slave = v := rfl
@[simp] theorem State.setSlave_display (v : Slave) : (s.setSlave v).display = s.display := rfl
@[simp] theorem State.setSlave_port (v : Slave) : (s.setSlave v).port = s.port := rfl
@[simp] theorem State.setSlave_unwrittenReads (v : Slave) : (s.setSlave v).unwrittenReads = s.unwrittenReads := rfl

@[simp] theorem State.setDisplay_dir (v : Display) : (s.setDisplay v).dir = s.dir := rfl
@[simp] theorem State.setDisplay_sr (v : Display) : (s.setDisplay v).sr = s.sr := rfl
@[simp] theorem State.setDisplay_bc (v : Display) : (s.setDisplay v).bc = s.bc := rfl
@[simp] theorem State.setDisplay_ack (v : Display) : (s.setDisplay v).ack = s.ack := rfl
@[simp] theorem State.setDisplay_n (v : Display) : (s.setDisplay v).n = s.n := rfl
@[simp] theorem State.setDisplay_d (v : Display) : (s.setDisplay v).d = s.d := rfl
@[simp] theorem State.setDisplay_p (v : Display) : (s.setDisplay v).p = s.p := rfl
@[simp] theorem State.setDisplay_segout (v : Display) : (s.setDisplay v).segout = s.segout := rfl
@[simp] theorem State.setDisplay_seq (v : Display) : (s.setDisplay v).seq = s.seq := rfl
@[simp] theorem State.setDisplay_fault (v : Display) : (s.setDisplay v).fault = s.fault := rfl
@[simp] theorem State.setDisplay_trace (v : Display) : (s.setDisplay v).trace = s.trace := rfl
@[simp] theorem State.setDisplay_pulls (v : Display) : (s.setDisplay v).pulls = s.pulls := rfl
@[simp] theorem State.setDisplay_decoder (v : Display) : (s.setDisplay v).decoder = s.decoder := rfl
@[simp] theorem State.setDisplay_slave (v : Display) : (s.setDisplay v).slave = s.slave := rfl
@[simp] theorem State.setDisplay_display (v : Display) : (s.setDisplay v).display = v := rfl
@[simp] theorem State.setDisplay_port (v : Display) : (s.setDisplay v).port = s.port := rfl
@[simp] theorem State.setDisplay_unwrittenReads (v : Display) : (s.setDisplay v).unwrittenReads = s.unwrittenReads := rfl

@[simp] theorem State.setPort_dir (v : HostPort) : (s.setPort v).dir = s.dir := rfl
@[simp] theorem State.setPort_sr (v : HostPort) : (s.setPort v).sr = s.sr := rfl
@[simp] theorem State.setPort_bc (v : HostPort) : (s.setPort v).bc = s.bc := rfl
@[simp] theorem State.setPort_ack (v : HostPort) : (s.setPort v).ack = s.ack := rfl
@[simp] theorem State.setPort_n (v : HostPort) : (s.setPort v).n = s.n := rfl
@[simp] theorem State.setPort_d (v : HostPort) : (s.setPort v).d = s.d := rfl
@[simp] theorem State.setPort_p (v : HostPort) : (s.setPort v).p = s.p := rfl
@[simp] theorem State.setPort_segout (v : HostPort) : (s.setPort v).segout = s.segout := rfl
@[simp] theorem State.setPort_seq (v : HostPort) : (s.setPort v).seq = s.seq := rfl
@[simp] theorem State.setPort_fault (v : HostPort) : (s.setPort v).fault = s.fault := rfl
@[simp] theorem State.setPort_trace (v : HostPort) : (s.setPort v).trace = s.trace := rfl
@[simp] theorem State.setPort_pulls (v : HostPort) : (s.setPort v).pulls = s.pulls := rfl
@[simp] theorem State.setPort_decoder (v : HostPort) : (s.setPort v).decoder = s.decoder := rfl
@[simp] theorem State.setPort_slave (v : HostPort) : (s.setPort v).slave = s.slave := rfl
@[simp] theorem State.setPort_display (v : HostPort) : (s.setPort v).display = s.display := rfl
@[simp] theorem State.setPort_port (v : HostPort) : (s.setPort v).port = v := rfl
@[simp] theorem State.setPort_unwrittenReads (v : HostPort) : (s.setPort v).unwrittenReads = s.unwrittenReads := rfl

@[simp] theorem State.raiseFault_dir (k : FaultKind) : (s.raiseFault k).dir = s.dir := rfl
@[simp] theorem State.raiseFault_sr (k : FaultKind) : (s.raiseFault k).sr = s.sr := rfl
@[simp] theorem State.raiseFault_bc (k : FaultKind) : (s.raiseFault k).bc = s.bc := rfl
@[simp] theorem State.raiseFault_ack (k : FaultKind) : (s.raiseFault k).ack = s.ack := rfl
@[simp] theorem State.raiseFault_n (k : FaultKind) : (s.raiseFault k).n = s.n := rfl
@[simp] theorem State.raiseFault_d (k : FaultKind) : (s.raiseFault k).d = s.d := rfl
@[simp] theorem State.raiseFault_p (k : FaultKind) : (s.raiseFault k).p = s.p := rfl
@[simp] theorem State.raiseFault_segout (k : FaultKind) : (s.raiseFault k).segout = s.segout := rfl
@[simp] theorem State.raiseFault_seq (k : FaultKind) : (s.raiseFault k).seq = [] := rfl
@[simp] theorem State.raiseFault_fault (k : FaultKind) : (s.raiseFault k).fault = if s.fault = .none then k else s.fault := rfl
@[simp] theorem State.raiseFault_trace (k : FaultKind) : (s.raiseFault k).trace = s.trace := rfl
@[simp] theorem State.raiseFault_pulls (k : FaultKind) : (s.raiseFault k).pulls = s.pulls := rfl
@[simp] theorem State.raiseFault_decoder (k : FaultKind) : (s.raiseFault k).decoder = s.decoder := rfl
@[simp] theorem State.raiseFault_slave (k : FaultKind) : (s.raiseFault k).slave = s.slave := rfl
@[simp] theorem State.raiseFault_display (k : FaultKind) : (s.raiseFault k).display = s.display := rfl
@[simp] theorem State.raiseFault_port (k : FaultKind) : (s.raiseFault k).port = s.port := rfl
@[simp] theorem State.raiseFault_unwrittenReads (k : FaultKind) : (s.raiseFault k).unwrittenReads = s.unwrittenReads := rfl

@[simp] theorem State.tick_dir : (s.tick).dir = s.dir := rfl
@[simp] theorem State.tick_sr : (s.tick).sr = s.sr := rfl
@[simp] theorem State.tick_bc : (s.tick).bc = s.bc := rfl
@[simp] theorem State.tick_ack : (s.tick).ack = s.ack := rfl
@[simp] theorem State.tick_n : (s.tick).n = s.n := rfl
@[simp] theorem State.tick_d : (s.tick).d = s.d := rfl
@[simp] theorem State.tick_p : (s.tick).p = s.p := rfl
@[simp] theorem State.tick_segout : (s.tick).segout = s.segout := rfl
@[simp] theorem State.tick_seq : (s.tick).seq = s.seq := rfl
@[simp] theorem State.tick_fault : (s.tick).fault = s.fault := rfl
@[simp] theorem State.tick_trace : (s.tick).trace = s.trace := rfl
@[simp] theorem State.tick_pulls : (s.tick).pulls = s.pulls := rfl
@[simp] theorem State.tick_decoder : (s.tick).decoder = s.decoder := rfl
@[simp] theorem State.tick_slave : (s.tick).slave = s.slave := rfl
@[simp] theorem State.tick_display : (s.tick).display = s.display := rfl
@[simp] theorem State.tick_port : (s.tick).port = { s.port with resetLine := s.port.resetLine.tail } := rfl
@[simp] theorem State.tick_unwrittenReads : (s.tick).unwrittenReads = s.unwrittenReads := rfl

@[simp] theorem State.emit_dir (e : Event) : (s.emit e).dir = s.dir := rfl
@[simp] theorem State.emit_sr (e : Event) : (s.emit e).sr = s.sr := rfl
@[simp] theorem State.emit_bc (e : Event) : (s.emit e).bc = s.bc := rfl
@[simp] theorem State.emit_ack (e : Event) : (s.emit e).ack = s.ack := rfl
@[simp] theorem State.emit_n (e : Event) : (s.emit e).n = s.n := rfl
@[simp] theorem State.emit_d (e : Event) : (s.emit e).d = s.d := rfl
@[simp] theorem State.emit_p (e : Event) : (s.emit e).p = s.p := rfl
@[simp] theorem State.emit_segout (e : Event) : (s.emit e).segout = s.segout := rfl
@[simp] theorem State.emit_seq (e : Event) : (s.emit e).seq = s.seq := rfl
@[simp] theorem State.emit_fault (e : Event) : (s.emit e).fault = s.fault := rfl
@[simp] theorem State.emit_trace (e : Event) : (s.emit e).trace = s.trace ++ [e] := rfl
@[simp] theorem State.emit_pulls (e : Event) : (s.emit e).pulls = s.pulls ++ [(s.slave.react s.levelClk).pull] := rfl
@[simp] theorem State.emit_decoder (e : Event) : (s.emit e).decoder = s.decoder.observe s.levelClk (Machine.levelDio s.dir (s.slave.react s.levelClk).pull) := rfl
@[simp] theorem State.emit_slave (e : Event) : (s.emit e).slave = s.slave.react s.levelClk := rfl
@[simp] theorem State.emit_display (e : Event) : (s.emit e).display = s.display.receive (s.decoder.completed (s.decoder.condition s.levelClk (Machine.levelDio s.dir (s.slave.react s.levelClk).pull))) := rfl
@[simp] theorem State.emit_port (e : Event) : (s.emit e).port = s.port := rfl
@[simp] theorem State.emit_unwrittenReads (e : Event) : (s.emit e).unwrittenReads = s.unwrittenReads := rfl

/-! The later of two updates of one field stands. -/

@[simp] theorem State.setDir_setDir (l : Line) (x y : Dir) : (s.setDir l x).setDir l y = s.setDir l y := by cases l <;> rfl
@[simp] theorem State.setSeq_setSeq (x y : List MicroOp) : (s.setSeq x).setSeq y = s.setSeq y := rfl
@[simp] theorem State.setSlave_setSlave (x y : Slave) : (s.setSlave x).setSlave y = s.setSlave y := rfl
@[simp] theorem State.setDisplay_setDisplay (x y : Display) : (s.setDisplay x).setDisplay y = s.setDisplay y := rfl
@[simp] theorem State.setPort_setPort (x y : HostPort) : (s.setPort x).setPort y = s.setPort y := rfl

end Sys2Proof.Machine
end

