-- ==== Sys2Proof/Laws/Memory.lean ====
section
/-! SUPPORT. The display memory keeps its canonical form under every operation. -/

namespace Sys2Proof.Machine

theorem cellsAbove_putCell (a : Nat) (v : Byte) :
    ∀ (cells : List Host.Cell) (low : Nat), low ≤ a → cellsAbove low cells = true →
      cellsAbove low (putCell a v cells) = true := by
  intro cells
  induction cells with
  | nil => intro low h _; simp [putCell, cellsAbove, h]
  | cons c rest ih =>
    intro low h hc
    simp only [cellsAbove, Bool.and_eq_true, decide_eq_true_eq] at hc
    by_cases h1 : a < c.1
    · simp only [putCell, h1, if_true, cellsAbove, Bool.and_eq_true, decide_eq_true_eq]
      exact ⟨h, by omega, hc.2⟩
    · by_cases h2 : c.1 = a
      · subst h2
        simpa [putCell, cellsAbove] using hc
      · simp only [putCell, h1, h2, if_false, cellsAbove, Bool.and_eq_true, decide_eq_true_eq]
        exact ⟨hc.1, ih (c.1 + 1) (by omega) hc.2⟩

theorem all_putCell (a : Nat) (v : Byte) (q : Host.Cell → Bool) (ha : q (a, v) = true) :
    ∀ cells : List Host.Cell, cells.all q = true → (putCell a v cells).all q = true := by
  intro cells
  induction cells with
  | nil => intro _; simp [putCell, ha]
  | cons c rest ih =>
    intro hc
    simp only [List.all_cons, Bool.and_eq_true] at hc
    unfold putCell
    split
    · simp [ha, hc.1, hc.2]
    · split
      · simp [ha, hc.2]
      · simp [hc.1, ih hc.2]

/-- A write answers only inside the display's addresses. -/
theorem Memory.write_eq_some {m m' : Memory} {a : Nat} {v : Byte} (h : m.write a v = some m') :
    a < Config.ndigits ∧ m' = { cells := putCell a v m.cells } := by
  unfold Memory.write at h
  split at h
  · exact ⟨‹_›, by simpa using h.symm⟩
  · cases h

theorem Memory.write_of_lt {a : Nat} (m : Memory) (v : Byte) (h : a < 4) :
    m.write a v = some { cells := putCell a v m.cells } := if_pos h

theorem Memory.write_of_ge {a : Nat} (m : Memory) (v : Byte) (h : 4 ≤ a) : m.write a v = none :=
  if_neg (Nat.not_lt.mpr h)

/-- Every write keeps the canonical form. -/
theorem Memory.wf_write {m m' : Memory} {a : Nat} {v : Byte} (hm : m.wf = true) (h : m.write a v = some m') :
    m'.wf = true := by
  obtain ⟨ha, rfl⟩ := Memory.write_eq_some h
  simp only [Memory.wf, Bool.and_eq_true] at hm ⊢
  exact ⟨cellsAbove_putCell a v _ 0 (Nat.zero_le a) hm.1, all_putCell a v _ (by simpa using ha) _ hm.2⟩

/-- The memory at reset is canonical. -/
theorem Memory.wf_reset : State.reset.display.ram.wf = true := rfl

end Sys2Proof.Machine
end

