-- ==== Sys2Proof/Laws/Ops.lean ====
section
/-! SUPPORT. What each shared operation can do, said once. -/

namespace Sys2Proof.Machine

/-! Lines, levels and quads. -/

@[simp] theorem Lines.get_set_self (dir : Lines) (l : Line) (x : Dir) : (dir.set l x).get l = x := by
  cases l <;> rfl

theorem Lines.get_set_other (dir : Lines) {l k : Line} (x : Dir) (h : k ≠ l) : (dir.set l x).get k = dir.get k := by
  cases l <;> cases k <;> first | rfl | exact absurd rfl h

@[simp] theorem Lines.set_clk (dir : Lines) (x : Dir) : dir.set .clk x = { dir with clk := x } := rfl
@[simp] theorem Lines.set_dio (dir : Lines) (x : Dir) : dir.set .dio x = { dir with dio := x } := rfl
@[simp] theorem Dir.level_released : Dir.level .released = true := rfl
@[simp] theorem Dir.level_assertedLow : Dir.level .assertedLow = false := rfl

/-- The directions after a line event are those its micro-op wrote. -/
theorem Lines.afterEvent_rel (dir : Lines) (l : Line) : dir.afterEvent (.rel l) = dir.set l .released := by
  cases l <;> rfl

theorem Lines.afterEvent_low (dir : Lines) (l : Line) : dir.afterEvent (.low l) = dir.set l .assertedLow := by
  cases l <;> rfl

/-! The slave. -/

@[simp] theorem Slave.draw_window (v : Slave) : v.draw.window = v.window := by
  unfold Slave.draw; split <;> rfl

@[simp] theorem Slave.react_window (v : Slave) (h : Bool) : (v.react h).window = v.window := by
  unfold Slave.react; split <;> [rfl; (split <;> simp)]

@[simp] theorem Slave.react_high (v : Slave) : v.react true = v := rfl

theorem Slave.react_low_outside {v : Slave} (h : v.window = false) : v.react false = { v with pull := false } := by
  simp [Slave.react, h]

/-! Accepting a command. -/

/-- A command that answers a next state was accepted, and the state is its effect. -/
theorem accept_next {f : State → State} {s t : State} (h : accept f s = .next t) :
    s.Accepting ∧ t = f s := by
  unfold accept at h
  split at h
  · cases h
  · next hb =>
    split at h
    · cases h
    · next hf =>
      refine ⟨⟨?_, not_not.mp hf⟩, by simpa using h.symm⟩
      simpa [State.busy] using hb

theorem accept_of_accepting (f : State → State) {s : State} (h : s.Accepting) : accept f s = .next (f s) := by
  simp [accept, State.busy, h.1, h.2]

theorem accept_busy (f : State → State) {s : State} (h : s.seq ≠ []) : accept f s = .refused .busy := by
  simp [accept, State.busy, h]

theorem accept_faulted (f : State → State) {s : State} (h : s.seq = []) (hf : s.fault ≠ .none) :
    accept f s = .refused .faulted := by
  simp [accept, State.busy, h, hf]

/-! Micro-ops. -/

/-- A read of a register that has been written gives what it holds. -/
@[simp] theorem State.readSR_of_some {s : State} {v : Byte} (h : s.sr = some v) : s.readSR = v := by
  simp [State.readSR, h]

@[simp] theorem State.readBC_of_some {s : State} {c : BitVec 4} (h : s.bc = some c) : s.readBC = c := by
  simp [State.readBC, h]

@[simp] theorem State.noteRead_false (s : State) : s.noteRead false = s := rfl

/-- mOUTBIT on a written SR is the line operation of its bit. -/
theorem State.outBit_of_some {s : State} {v : Byte} (h : s.sr = some v) :
    s.outBit = if v.getLsbD 0 then s.releaseLine .dio else s.assertLine .dio := by
  simp only [State.outBit, State.readSR_of_some h, h, Option.isNone_some, State.noteRead_false]

/-- mSHIFT on a written SR and BC. -/
theorem State.shift_of_some {s : State} {v : Byte} {c : BitVec 4} (h : s.sr = some v) (h' : s.bc = some c) :
    s.shift = s.setSerializer (v >>> 1) (c + 1#4) := by
  simp only [State.shift, State.readSR_of_some h, State.readBC_of_some h', h, h', Option.isNone_some,
    Bool.or_self, State.noteRead_false]

/-- Every micro-op answers a next state. -/
theorem perform_total (m : MicroOp) (s : State) : ∃ t, perform m s = .next t := by
  cases m <;> exact ⟨_, rfl⟩

/-- Everything a micro-op can do. -/
theorem perform_cases {m : MicroOp} {s t : State} (h : perform m s = .next t) :
    (∃ l, m = .rel l ∧ t = s.releaseLine l) ∨ (∃ l, m = .low l ∧ t = s.assertLine l) ∨
    (m = .wait ∧ t = s.emit .wait) ∨ (m = .sample ∧ t = s.sampleAck) ∨
    (∃ b, m = .loadSR b ∧ t = s.setSerializer b 0#4) ∨
    (m = .outBit ∧ s.readSR.getLsbD 0 = true ∧ t = (s.noteRead s.sr.isNone).releaseLine .dio) ∨
    (m = .outBit ∧ s.readSR.getLsbD 0 = false ∧ t = (s.noteRead s.sr.isNone).assertLine .dio) ∨
    (m = .shift ∧
      t = (s.noteRead (s.sr.isNone || s.bc.isNone)).setSerializer (s.readSR >>> 1) (s.readBC + 1#4)) ∨
    (m = .endFrame ∧ t = s.endFrame) := by
  cases m <;> simp only [perform, Host.Outcome.next.injEq] at h <;> subst h
  case outBit => cases hb : s.readSR.getLsbD 0 <;> simp [State.outBit, hb, -BitVec.getLsbD_eq_getElem]
  all_goals simp [State.shift]

/-- No micro-op touches SEQ, FAULT, N, SEGOUT or the port; taking it out of SEQ is the step's own work. -/
theorem perform_keeps {m : MicroOp} {s t : State} (h : perform m s = .next t) :
    t.seq = s.seq ∧ t.fault = s.fault ∧ t.n = s.n ∧ t.segout = s.segout ∧ t.port = s.port := by
  obtain ⟨l, -, rfl⟩ | ⟨l, -, rfl⟩ | ⟨-, rfl⟩ | ⟨-, rfl⟩ | ⟨b, -, rfl⟩ | ⟨-, -, rfl⟩ | ⟨-, -, rfl⟩ | ⟨-, rfl⟩ |
    ⟨-, rfl⟩ := perform_cases h <;>
    simp [State.releaseLine, State.assertLine, State.sampleAck]

/-- A micro-op counts a read of `⊥` exactly when it is mOUTBIT or mSHIFT on an unwritten serializer. -/
theorem perform_unwrittenReads {m : MicroOp} {s t : State} (h : perform m s = .next t)
    (hm : m = .outBit → s.sr ≠ none) (hm' : m = .shift → s.sr ≠ none ∧ s.bc ≠ none) :
    t.unwrittenReads = s.unwrittenReads := by
  have some_of : ∀ {α : Type} {x : Option α}, x ≠ none → x.isNone = false := by
    intro α x hx; cases x <;> [exact absurd rfl hx; rfl]
  obtain ⟨l, -, rfl⟩ | ⟨l, -, rfl⟩ | ⟨-, rfl⟩ | ⟨-, rfl⟩ | ⟨b, -, rfl⟩ | ⟨hx, -, rfl⟩ | ⟨hx, -, rfl⟩ | ⟨hx, rfl⟩ |
    ⟨-, rfl⟩ := perform_cases h
  case inr.inr.inr.inr.inr.inl => simp [State.releaseLine, some_of (hm hx)]
  case inr.inr.inr.inr.inr.inr.inl => simp [State.assertLine, some_of (hm hx)]
  case inr.inr.inr.inr.inr.inr.inr.inl => simp [some_of (hm' hx).1, some_of (hm' hx).2]
  all_goals rfl

theorem perform_ne_refused (m : MicroOp) (s : State) (r : Refusal) : perform m s ≠ .refused r := by
  obtain ⟨t, h⟩ := perform_total m s
  rw [h]; exact fun h => by cases h

end Sys2Proof.Machine
end

