-- ==== Sys2Proof/Laws/Step.lean ====
section
/-! SUPPORT. What a meaning, a word at the port, the observer and a step can do, said once. -/

namespace Sys2Proof.Machine

/-! The equation of each instruction. -/

@[simp] theorem exec_rel (l : Line) (s : State) :
    exec (.rel l) s = accept (fun t => t.setSeq [.rel l]) s := rfl
@[simp] theorem exec_low (l : Line) (s : State) :
    exec (.low l) s = accept (fun t => t.setSeq [.low l]) s := rfl
@[simp] theorem exec_wait (s : State) : exec .wait s = accept (fun t => t.setSeq [.wait]) s := rfl
@[simp] theorem exec_start (s : State) : exec .start s = accept (fun t => t.setSeq startList) s := rfl
@[simp] theorem exec_stop (s : State) : exec .stop s = accept (fun t => t.setSeq stopList) s := rfl
@[simp] theorem exec_wrb (b : Byte) (s : State) :
    exec (.wrb b) s = accept (fun t => t.setSeq (wrbList b)) s := rfl
@[simp] theorem exec_enc (d : BitVec 4) (s : State) :
    exec (.enc d) s = accept (fun t => t.lookUpDigit d) s := rfl
@[simp] theorem exec_showNum (n : BitVec 16) (s : State) :
    exec (.showNum n) s = accept (fun t => t.issueShow n) s := rfl
@[simp] theorem exec_reserved (low : BitVec 19) (s : State) :
    exec (.reserved low) s = accept (fun t => t.raiseFault .illegalCommand) s := rfl
@[simp] theorem exec_cmdData (s : State) : exec .cmdData s = .next (s.setDisplay s.display.dataCommand) := rfl
@[simp] theorem exec_cmdAddr (s : State) : exec .cmdAddr s = .next (s.setDisplay s.display.addressCommand) := rfl
@[simp] theorem exec_cmdDisp (b : BitVec 3) (s : State) :
    exec (.cmdDisp b) s = .next (s.setDisplay (s.display.controlCommand b)) := rfl
@[simp] theorem exec_segData (p : Byte) (s : State) :
    exec (.segData p) s = .next (s.setDisplay (s.display.patternByte p)) := rfl

/-- Everything an instruction can do when it answers a next state. -/
theorem exec_cases {i : Instr} {s t : State} (h : exec i s = .next t) :
    (∃ l, i = .rel l ∧ s.Accepting ∧ t = s.setSeq [.rel l]) ∨
    (∃ l, i = .low l ∧ s.Accepting ∧ t = s.setSeq [.low l]) ∨
    (i = .wait ∧ s.Accepting ∧ t = s.setSeq [.wait]) ∨
    (i = .start ∧ s.Accepting ∧ t = s.setSeq startList) ∨
    (i = .stop ∧ s.Accepting ∧ t = s.setSeq stopList) ∨
    (∃ b, i = .wrb b ∧ s.Accepting ∧ t = s.setSeq (wrbList b)) ∨
    (∃ d, i = .enc d ∧ s.Accepting ∧ t = s.lookUpDigit d) ∨
    (∃ n, i = .showNum n ∧ s.Accepting ∧ t = s.issueShow n) ∨
    (∃ low, i = .reserved low ∧ s.Accepting ∧ t = s.raiseFault .illegalCommand) ∨
    (i = .cmdData ∧ t = s.setDisplay s.display.dataCommand) ∨
    (i = .cmdAddr ∧ t = s.setDisplay s.display.addressCommand) ∨
    (∃ b, i = .cmdDisp b ∧ t = s.setDisplay (s.display.controlCommand b)) ∨
    (∃ p, i = .segData p ∧ t = s.setDisplay (s.display.patternByte p)) := by
  cases i with
  | rel l => rw [exec_rel] at h; have := accept_next h; simp [this]
  | low l => rw [exec_low] at h; have := accept_next h; simp [this]
  | wait => rw [exec_wait] at h; have := accept_next h; simp [this]
  | start => rw [exec_start] at h; have := accept_next h; simp [this]
  | stop => rw [exec_stop] at h; have := accept_next h; simp [this]
  | wrb b => rw [exec_wrb] at h; have := accept_next h; simp [this]
  | enc d => rw [exec_enc] at h; have := accept_next h; simp [this]
  | showNum n => rw [exec_showNum] at h; have := accept_next h; simp [this]
  | reserved low => rw [exec_reserved] at h; have := accept_next h; simp [this]
  | cmdData => simpa [exec, execCmdData] using h.symm
  | cmdAddr => simpa [exec, execCmdAddr] using h.symm
  | cmdDisp b => simpa [exec, execCmdDisp] using h.symm
  | segData p => simpa [exec, execSegData] using h.symm

/-- A word at the port decodes to a host command, never to a wire byte. -/
theorem decodeWord_isCommand {w : CommandWord} {i : Instr} (h : decode (.word w) = .instr i) :
    isCommand i = true := by
  simp only [decode, decodeWord] at h
  split at h <;> (try simp only [requireZero] at h) <;> (try split at h) <;> cases h <;> rfl

/-- Everything a word at the port can do when it answers a next state. -/
theorem acceptWord_cases {w : CommandWord} {s t : State} (h : acceptWord w s = .next t) :
    (∃ i, decode (.word w) = .instr i ∧ isCommand i = true ∧ exec i s = .next t) ∨
    (∃ r, decode (.word w) = .rejected r ∧ s.Accepting ∧ t = s.raiseFault .illegalCommand) := by
  unfold acceptWord at h
  split at h
  · next i hi => exact .inl ⟨i, hi, decodeWord_isCommand hi, h⟩
  · next r hr => exact .inr ⟨r, hr, accept_next h⟩

/-- What the observer's display becomes when it begins a frame. -/
def openedDisplay (v : Display) (bytes : List Byte) : Display :=
  match bytes with
  | [] => v
  | c :: xs =>
    match decode (.commandByte c) with
    | .instr .cmdAddr => ({ v with data := dataAfterAddress v xs } : Display).addressCommand
    | .instr .cmdData => if xs = [] then v.dataCommand else v.refuse
    | .instr (.cmdDisp b) => if xs = [] then v.controlCommand b else v.refuse
    | _ => v.refuse

/-- A frame's first byte is one of the three commands or none. -/
theorem decodeCommandByte_cases (c : Byte) :
    decode (.commandByte c) = .instr .cmdData ∨ decode (.commandByte c) = .instr .cmdAddr ∨
      (∃ b, decode (.commandByte c) = .instr (.cmdDisp b)) ∨
      decode (.commandByte c) = .rejected .unknownCommandByte := by
  simp only [decode, decodeCommandByte]
  split
  · exact .inl rfl
  · split
    · exact .inr (.inl rfl)
    · split
      · exact .inr (.inr (.inl ⟨_, rfl⟩))
      · exact .inr (.inr (.inr rfl))

/-- Beginning a frame always answers a next state, and changes the display only. -/
theorem openFrame_next (bytes : List Byte) (s : State) :
    openFrame bytes s = .next (s.setDisplay (openedDisplay s.display bytes)) := by
  cases bytes with
  | nil => rfl
  | cons c xs =>
    obtain h | h | ⟨b, h⟩ | h := decodeCommandByte_cases c
    · by_cases hx : xs = [] <;> simp [openFrame, openedDisplay, h, hx, exec, execCmdData]
    · simp [openFrame, openedDisplay, h]
    · by_cases hx : xs = [] <;> simp [openFrame, openedDisplay, h, hx, exec, execCmdDisp]
    · simp [openFrame, openedDisplay, h]

/-- Everything a step can do when it answers a next state. -/
theorem step_cases {s t : State} (h : step s = .next t) :
    (s.resetAsserted = true ∧ t = s.applyReset) ∨
    (s.resetAsserted = false ∧ ∃ m rest, s.seq = m :: rest ∧ perform m (s.tick.setSeq rest) = .next t) ∨
    (s.resetAsserted = false ∧ s.seq = [] ∧ ∃ x xs, s.display.data = x :: xs ∧
      t = s.tick.setDisplay (({ s.display with data := xs } : Display).patternByte x)) ∨
    (s.resetAsserted = false ∧ s.seq = [] ∧ s.display.data = [] ∧ ∃ f fs, s.display.inbox = f :: fs ∧
      t = s.tick.setDisplay (openedDisplay { s.display with inbox := fs } f)) ∨
    (s.resetAsserted = false ∧ s.seq = [] ∧ s.display.data = [] ∧ s.display.inbox = [] ∧
      s.port.resetLine ≠ [] ∧ (s.fault = .none → s.port.words = []) ∧ t = s.tick) ∨
    (s.HostTurn ∧ ∃ w rest, s.port.words = w :: rest ∧
      acceptWord w (s.tick.setPort { s.tick.port with words := rest }) = .next t) := by
  have waits : ∀ {r}, waiting r s = .next t → s.port.resetLine ≠ [] ∧ t = s.tick := by
    intro r hw
    unfold waiting at hw
    split at hw
    · cases hw
    · exact ⟨‹_›, by simpa using hw.symm⟩
  simp only [step, nextStep] at h
  cases hr : s.resetAsserted with
  | true => exact .inl ⟨rfl, by simpa [hr] using h.symm⟩
  | false =>
    simp only [hr, Bool.false_eq_true, if_false] at h
    cases hq : s.seq with
    | cons m rest =>
      refine .inr (.inl ⟨rfl, m, rest, rfl, ?_⟩)
      simpa [State.busy, hq, controllerStep] using h
    | nil =>
      simp only [State.busy, hq, List.isEmpty_nil, Bool.not_true, Bool.false_eq_true, if_false] at h
      cases hd : s.display.data with
      | cons x xs =>
        refine .inr (.inr (.inl ⟨rfl, rfl, x, xs, rfl, ?_⟩))
        simpa [Display.hasWork, hd, observerStep, decode, exec, execSegData] using h.symm
      | nil =>
        cases hi : s.display.inbox with
        | cons f fs =>
          refine .inr (.inr (.inr (.inl ⟨rfl, rfl, rfl, f, fs, rfl, ?_⟩)))
          simp only [Display.hasWork, hd, hi, observerStep, State.tick_display, List.isEmpty_nil,
            List.isEmpty_cons, Bool.and_false, Bool.not_false, if_true, openFrame_next,
            Host.Outcome.next.injEq, State.setDisplay_display] at h
          simpa [hd] using h.symm
        | nil =>
          simp only [Display.hasWork, hd, hi, List.isEmpty_nil, Bool.and_true, Bool.not_true,
            Bool.false_eq_true, if_false, hostStep] at h
          split at h
          · next hf =>
            have := waits h
            exact .inr (.inr (.inr (.inr (.inl ⟨rfl, rfl, rfl, rfl, this.1, fun h0 => absurd h0 hf, this.2⟩))))
          · next hf =>
            split at h
            · next hw =>
              have := waits h
              exact .inr (.inr (.inr (.inr (.inl ⟨rfl, rfl, rfl, rfl, this.1, fun _ => hw, this.2⟩))))
            · next w rest hw =>
              exact .inr (.inr (.inr (.inr (.inr ⟨⟨⟨hq, not_not.mp hf⟩, hi, hd, hr⟩, w, rest, hw, h⟩))))

/-! Runs. -/

@[simp] theorem run_zero (s : State) : run 0 s = .next s := rfl

theorem run_succ_of_next {k : Nat} {s t : State} (h : step s = .next t) : run (k + 1) s = run k t := by
  simp [run, h]

/-- Two runs in a row are one run. -/
theorem run_add {j k : Nat} {s t : State} (h : run j s = .next t) : run (j + k) s = run k t := by
  induction j generalizing s with
  | zero => simp only [run, Host.Outcome.next.injEq] at h; simp [h]
  | succ j ih =>
    rw [show j + 1 + k = j + k + 1 by omega]
    simp only [run] at h ⊢
    split at h
    · next u hu => exact ih h
    · cases h
    · cases h

end Sys2Proof.Machine
end

