-- ==== Sys2Proof/Laws/Run.lean ====
section
/-! SUPPORT. Running a busy block: one lemma per micro-op and per bus operation, as an equation of the run. -/

namespace Sys2Proof.Machine

/-- With no reset to come, time passing changes nothing. -/
theorem tick_of_noReset {s : State} (h : s.NoReset) : s.tick = s := by
  have hp : s.port = { words := s.port.words, resetLine := [] } := by
    rw [← show s.port.resetLine = [] from h]
  show ({ s with port := { s.port with resetLine := s.port.resetLine.tail } } : State) = s
  rw [show s.port.resetLine.tail = s.port.resetLine by rw [show s.port.resetLine = [] from h]; rfl]

theorem resetAsserted_of_noReset {s : State} (h : s.NoReset) : s.resetAsserted = false := by
  simp [State.resetAsserted, show s.port.resetLine = [] from h]

/-- With no reset to come, a busy block performs the head of SEQ. -/
theorem step_of_seq {s : State} {m : MicroOp} {rest : List MicroOp} (h : s.NoReset) (hq : s.seq = m :: rest) :
    step s = perform m (s.setSeq rest) := by
  simp [step, nextStep, resetAsserted_of_noReset h, State.busy, hq, controllerStep, tick_of_noReset h]

theorem run_of_seq {s t : State} {m : MicroOp} {rest : List MicroOp} (k : Nat) (h : s.NoReset)
    (hq : s.seq = m :: rest) (hm : perform m (s.setSeq rest) = .next t) : run (k + 1) s = run k t :=
  run_succ_of_next ((step_of_seq h hq).trans hm)

/-- The fields of `releaseLine` and `assertLine` that are no part of the bus. -/
@[simp] theorem releaseLine_sr (s : State) (l : Line) : (s.releaseLine l).sr = s.sr := rfl
@[simp] theorem releaseLine_bc (s : State) (l : Line) : (s.releaseLine l).bc = s.bc := rfl
@[simp] theorem releaseLine_ack (s : State) (l : Line) : (s.releaseLine l).ack = s.ack := rfl
@[simp] theorem releaseLine_n (s : State) (l : Line) : (s.releaseLine l).n = s.n := rfl
@[simp] theorem releaseLine_d (s : State) (l : Line) : (s.releaseLine l).d = s.d := rfl
@[simp] theorem releaseLine_p (s : State) (l : Line) : (s.releaseLine l).p = s.p := rfl
@[simp] theorem releaseLine_segout (s : State) (l : Line) : (s.releaseLine l).segout = s.segout := rfl
@[simp] theorem releaseLine_seq (s : State) (l : Line) : (s.releaseLine l).seq = s.seq := rfl
@[simp] theorem releaseLine_fault (s : State) (l : Line) : (s.releaseLine l).fault = s.fault := rfl
@[simp] theorem releaseLine_port (s : State) (l : Line) : (s.releaseLine l).port = s.port := rfl
@[simp] theorem releaseLine_dir (s : State) (l : Line) : (s.releaseLine l).dir = s.dir.set l .released := rfl
@[simp] theorem releaseLine_trace (s : State) (l : Line) : (s.releaseLine l).trace = s.trace ++ [.rel l] := rfl
@[simp] theorem assertLine_sr (s : State) (l : Line) : (s.assertLine l).sr = s.sr := rfl
@[simp] theorem assertLine_bc (s : State) (l : Line) : (s.assertLine l).bc = s.bc := rfl
@[simp] theorem assertLine_ack (s : State) (l : Line) : (s.assertLine l).ack = s.ack := rfl
@[simp] theorem assertLine_n (s : State) (l : Line) : (s.assertLine l).n = s.n := rfl
@[simp] theorem assertLine_d (s : State) (l : Line) : (s.assertLine l).d = s.d := rfl
@[simp] theorem assertLine_p (s : State) (l : Line) : (s.assertLine l).p = s.p := rfl
@[simp] theorem assertLine_segout (s : State) (l : Line) : (s.assertLine l).segout = s.segout := rfl
@[simp] theorem assertLine_seq (s : State) (l : Line) : (s.assertLine l).seq = s.seq := rfl
@[simp] theorem assertLine_fault (s : State) (l : Line) : (s.assertLine l).fault = s.fault := rfl
@[simp] theorem assertLine_port (s : State) (l : Line) : (s.assertLine l).port = s.port := rfl
@[simp] theorem assertLine_dir (s : State) (l : Line) : (s.assertLine l).dir = s.dir.set l .assertedLow := rfl
@[simp] theorem assertLine_trace (s : State) (l : Line) : (s.assertLine l).trace = s.trace ++ [.low l] := rfl

/-! The decoder's conditions and latches. -/

theorem onLatch_levels (x : Decoder) (c d b : Bool) :
    ({ x with clk := c, dio := d } : Decoder).onLatch b = { x.onLatch b with clk := c, dio := d } := by
  unfold Decoder.onLatch
  cases hf : x.inFrame
  · simp [hf]
  · simp only [if_true]; split <;> rfl

theorem condition_low (x : Decoder) (d : Bool) : x.condition false d = .nothing := by
  unfold Decoder.condition; cases x.clk <;> rfl

/-! One event, as a record, when the levels are known. -/

/-- An event that leaves CLK low outside an acknowledge window: the levels change and the slave lets go. -/
def State.lowEvent (s : State) (dir : Lines) (e : Event) : State :=
  { s with
    dir := dir
    trace := s.trace ++ [e]
    pulls := s.pulls ++ [false]
    slave := { s.slave with pull := false }
    decoder := { s.decoder with clk := false, dio := Dir.level dir.dio } }

/-- An event with CLK high that changes no level. -/
def State.quietEvent (s : State) (e : Event) : State :=
  { s with trace := s.trace ++ [e], pulls := s.pulls ++ [s.slave.pull] }

/-- The rise of CLK, which latches the level of DIO. -/
def State.latchEvent (s : State) : State :=
  { s with
    dir := { s.dir with clk := .released }
    trace := s.trace ++ [.rel .clk]
    pulls := s.pulls ++ [s.slave.pull]
    decoder := { s.decoder.onLatch s.levelDio with clk := true, dio := s.levelDio } }

theorem emit_low_outside {s : State} (e : Event) (hc : s.dir.clk = .assertedLow) (hw : s.slave.window = false) :
    s.emit e = s.lowEvent s.dir e := by
  have hl : s.levelClk = false := by simp [State.levelClk, levelClk, hc]
  simp [State.emit, State.lowEvent, hl, Slave.react_low_outside hw, Decoder.observe, condition_low,
    Decoder.apply, Decoder.completed, Display.receive, Machine.levelDio]

theorem emit_quiet {s : State} (e : Event) (hc : s.dir.clk = .released) (h1 : s.decoder.clk = true)
    (h2 : s.decoder.dio = s.levelDio) : s.emit e = s.quietEvent e := by
  have hl : s.levelClk = true := by simp [State.levelClk, levelClk, hc]
  have hl' : Machine.levelDio s.dir s.slave.pull = s.decoder.dio := h2.symm
  have hn : s.decoder.condition true s.decoder.dio = .nothing := by
    unfold Decoder.condition; rw [h1]; cases s.decoder.dio <;> rfl
  have hd : s.decoder.observe true s.decoder.dio = s.decoder := by
    rw [Decoder.observe, hn]
    simp only [Decoder.apply]
    rw [← h1]
  simp [State.emit, State.quietEvent, hl, hl', hn, hd, Decoder.completed, Display.receive]

theorem emit_latch {s : State} (hc : s.dir.clk = .released) (h1 : s.decoder.clk = false) :
    s.emit (.rel .clk) = s.latchEvent := by
  have hl : s.levelClk = true := by simp [State.levelClk, levelClk, hc]
  have hn : s.decoder.condition true s.levelDio = .latch s.levelDio := by unfold Decoder.condition; rw [h1]
  simp only [State.levelDio] at hn
  simp [State.emit, State.latchEvent, hl, State.levelDio, Decoder.observe, hn, Decoder.apply, Decoder.completed,
    Display.receive, ← hc]

/-! One step of a busy block, when the levels are known. -/

theorem step_of_seq_run (k : Nat) {s : State} {m : MicroOp} {rest : List MicroOp} (h : s.NoReset)
    (hq : s.seq = m :: rest) : run (k + 1) s =
      match perform m (s.setSeq rest) with
      | .next t => run k t
      | .fault r => .fault r
      | .refused r => .refused r := by
  simp only [run, step_of_seq h hq]
  cases perform m (s.setSeq rest) <;> rfl

theorem run_low_clk (k : Nat) {s : State} {rest : List MicroOp} (h : s.NoReset) (hq : s.seq = .low .clk :: rest)
    (hw : s.slave.window = false) (hr : rest.take 6 ≠ ackTail) :
    run (k + 1) s = run k ((s.setSeq rest).lowEvent { s.dir with clk := .assertedLow } (.low .clk)) := by
  have hwin : (s.setSeq rest).windowAtLow .clk = false := by
    simp only [State.windowAtLow, State.setSeq_slave, hw, State.setSeq_seq, Bool.false_eq_true, if_false]
    exact decide_eq_false hr
  rw [run_of_seq k h hq rfl, State.assertLine, hwin, emit_low_outside _ rfl rfl, ← hw]
  rfl

theorem run_bit_low (k : Nat) {s : State} {rest : List MicroOp} {v : Byte} (h : s.NoReset)
    (hq : s.seq = .outBit :: rest) (hs : s.sr = some v) (hc : s.dir.clk = .assertedLow)
    (hw : s.slave.window = false) :
    run (k + 1) s = run k ((s.setSeq rest).lowEvent { s.dir with dio := dirOfBit (v.getLsbD 0) }
      (if v.getLsbD 0 then .rel .dio else .low .dio)) := by
  rw [step_of_seq_run k h hq]
  simp only [perform, State.outBit_of_some (s := s.setSeq rest) hs]
  cases v.getLsbD 0
  · exact congrArg (run k) (emit_low_outside
      (s := ((s.setSeq rest).setDir .dio .assertedLow).setSlave { s.slave with window := s.slave.window }) _ hc hw)
  · exact congrArg (run k) (emit_low_outside (s := (s.setSeq rest).setDir .dio .released) _ hc hw)

theorem run_relDio_low (k : Nat) {s : State} {rest : List MicroOp} (h : s.NoReset)
    (hq : s.seq = .rel .dio :: rest) (hc : s.dir.clk = .assertedLow) (hw : s.slave.window = false) :
    run (k + 1) s = run k ((s.setSeq rest).lowEvent { s.dir with dio := .released } (.rel .dio)) :=
  (run_of_seq k h hq rfl).trans
    (congrArg (run k) (emit_low_outside (s := (s.setSeq rest).setDir .dio .released) _ hc hw))

theorem run_lowDio_low (k : Nat) {s : State} {rest : List MicroOp} (h : s.NoReset)
    (hq : s.seq = .low .dio :: rest) (hc : s.dir.clk = .assertedLow) (hw : s.slave.window = false) :
    run (k + 1) s = run k ((s.setSeq rest).lowEvent { s.dir with dio := .assertedLow } (.low .dio)) :=
  (run_of_seq k h hq rfl).trans (congrArg (run k) (emit_low_outside
    (s := ((s.setSeq rest).setDir .dio .assertedLow).setSlave { s.slave with window := s.slave.window }) _ hc hw))

theorem run_wait_low (k : Nat) {s : State} {rest : List MicroOp} (h : s.NoReset)
    (hq : s.seq = .wait :: rest) (hc : s.dir.clk = .assertedLow) (hw : s.slave.window = false) :
    run (k + 1) s = run k ((s.setSeq rest).lowEvent s.dir .wait) :=
  (run_of_seq k h hq rfl).trans (congrArg (run k) (emit_low_outside (s := s.setSeq rest) _ hc hw))

theorem run_latch (k : Nat) {s : State} {rest : List MicroOp} (h : s.NoReset) (hq : s.seq = .rel .clk :: rest)
    (h1 : s.decoder.clk = false) : run (k + 1) s = run k (s.setSeq rest).latchEvent :=
  (run_of_seq k h hq rfl).trans
    (congrArg (run k) (emit_latch (s := (s.setSeq rest).setDir .clk .released) rfl h1))

theorem run_wait_quiet (k : Nat) {s : State} {rest : List MicroOp} (h : s.NoReset) (hq : s.seq = .wait :: rest)
    (hc : s.dir.clk = .released) (h1 : s.decoder.clk = true) (h2 : s.decoder.dio = s.levelDio) :
    run (k + 1) s = run k ((s.setSeq rest).quietEvent .wait) :=
  (run_of_seq k h hq rfl).trans (congrArg (run k) (emit_quiet (s := s.setSeq rest) _ hc h1 h2))

/-- After one bit time of WRB that drives `b`. -/
def State.afterBit (s : State) (b : Bool) (v : Byte) (c : BitVec 4) (rest : List MicroOp) : State :=
  { s with
    dir := { clk := .released, dio := dirOfBit b }
    sr := some v
    bc := some c
    seq := rest
    trace := s.trace ++ bitEvents b
    pulls := s.pulls ++ [false, false, false, false, false]
    slave := { s.slave with pull := false }
    decoder := { s.decoder.onLatch b with clk := true, dio := b } }

theorem level_dirOfBit (b : Bool) : Dir.level (dirOfBit b) = b := by cases b <;> rfl

theorem run_bitTime (k : Nat) {s : State} {v : Byte} {c : BitVec 4} {rest : List MicroOp} (h : s.NoReset)
    (hq : s.seq = bitTime ++ rest) (hs : s.sr = some v) (hb : s.bc = some c) (hw : s.slave.window = false) :
    run (k + 6) s = run k (s.afterBit (v.getLsbD 0) (v >>> 1) (c + 1#4) rest) := by
  refine Eq.trans (run_low_clk (k + 5) h hq hw (by simp [ackTail])) ?_
  refine Eq.trans (run_bit_low (k + 4) (v := v) h rfl hs rfl hw) ?_
  refine Eq.trans (run_wait_low (k + 3) h rfl rfl hw) ?_
  refine Eq.trans (run_latch (k + 2) h rfl rfl) ?_
  refine Eq.trans (run_wait_quiet (k + 1) h rfl rfl rfl rfl) ?_
  refine Eq.trans (run_of_seq k h rfl (congrArg Host.Outcome.next (State.shift_of_some (v := v) (c := c) hs hb))) ?_
  congr 1
  simp [State.afterBit, State.setSerializer, State.setSeq, State.quietEvent, State.latchEvent, State.lowEvent,
    State.levelDio, Machine.levelDio, level_dirOfBit, onLatch_levels, bitEvents]

/-- An event that leaves CLK low inside an acknowledge window: the slave chooses its pull. -/
def State.windowEvent (s : State) (dir : Lines) (e : Event) : State :=
  { s with
    dir := dir
    trace := s.trace ++ [e]
    pulls := s.pulls ++ [s.slave.draw.pull]
    slave := s.slave.draw
    decoder := { s.decoder with clk := false, dio := Machine.levelDio dir s.slave.draw.pull } }

theorem emit_low_inside {s : State} (e : Event) (hc : s.dir.clk = .assertedLow) (hw : s.slave.window = true) :
    s.emit e = s.windowEvent s.dir e := by
  have hl : s.levelClk = false := by simp [State.levelClk, levelClk, hc]
  simp [State.emit, State.windowEvent, hl, Slave.react, hw, Decoder.observe, condition_low,
    Decoder.apply, Decoder.completed, Display.receive]

theorem run_open_window (k : Nat) {s : State} {rest : List MicroOp} (h : s.NoReset)
    (hq : s.seq = .low .clk :: rest) (hw : s.slave.window = false) (hr : rest.take 6 = ackTail) :
    run (k + 1) s = run k (((s.setSeq rest).setSlave { s.slave with window := true }).windowEvent
      { s.dir with clk := .assertedLow } (.low .clk)) := by
  have hwin : (s.setSeq rest).windowAtLow .clk = true := by
    simp only [State.windowAtLow, State.setSeq_slave, hw, State.setSeq_seq, Bool.false_eq_true, if_false]
    exact decide_eq_true hr
  refine Eq.trans (run_of_seq k h hq rfl) ?_
  rw [State.assertLine, hwin]
  exact congrArg (run k) (emit_low_inside
    (s := ((s.setSeq rest).setDir .clk .assertedLow).setSlave { s.slave with window := true }) _ rfl rfl)

theorem run_relDio_inside (k : Nat) {s : State} {rest : List MicroOp} (h : s.NoReset)
    (hq : s.seq = .rel .dio :: rest) (hc : s.dir.clk = .assertedLow) (hw : s.slave.window = true) :
    run (k + 1) s = run k ((s.setSeq rest).windowEvent { s.dir with dio := .released } (.rel .dio)) :=
  (run_of_seq k h hq rfl).trans
    (congrArg (run k) (emit_low_inside (s := (s.setSeq rest).setDir .dio .released) _ hc hw))

theorem run_wait_inside (k : Nat) {s : State} {rest : List MicroOp} (h : s.NoReset)
    (hq : s.seq = .wait :: rest) (hc : s.dir.clk = .assertedLow) (hw : s.slave.window = true) :
    run (k + 1) s = run k ((s.setSeq rest).windowEvent s.dir .wait) :=
  (run_of_seq k h hq rfl).trans (congrArg (run k) (emit_low_inside (s := s.setSeq rest) _ hc hw))

theorem run_sample_quiet (k : Nat) {s : State} {rest : List MicroOp} (h : s.NoReset) (hq : s.seq = .sample :: rest)
    (hc : s.dir.clk = .released) (h1 : s.decoder.clk = true) (h2 : s.decoder.dio = s.levelDio) :
    run (k + 1) s = run k (((s.setSeq rest).setAck s.levelDio).quietEvent (.sample s.levelDio)) :=
  (run_of_seq k h hq rfl).trans
    (congrArg (run k) (emit_quiet (s := (s.setSeq rest).setAck s.levelDio) _ hc h1 h2))

theorem run_close_window (k : Nat) {s : State} {rest : List MicroOp} (h : s.NoReset)
    (hq : s.seq = .low .clk :: rest) (hw : s.slave.window = true) :
    run (k + 1) s = run k (((s.setSeq rest).setSlave { s.slave with window := false }).lowEvent
      { s.dir with clk := .assertedLow } (.low .clk)) := by
  have hwin : (s.setSeq rest).windowAtLow .clk = false := by
    simp only [State.windowAtLow, State.setSeq_slave, hw, if_true]
  refine Eq.trans (run_of_seq k h hq rfl) ?_
  rw [State.assertLine, hwin]
  exact congrArg (run k) (emit_low_outside
    (s := ((s.setSeq rest).setDir .clk .assertedLow).setSlave { s.slave with window := false }) _ rfl rfl)

/-- The slave with its acknowledge window open. -/
def Slave.opened (v : Slave) : Slave := { v with window := true }

/-- The value sampled in the coming acknowledge window, after the slave's three choices in it. -/
def State.ackValue (s : State) : Bool := !s.slave.opened.draw.draw.draw.pull

/-- After an acknowledge phase. -/
def State.afterAck (s : State) (rest : List MicroOp) : State :=
  let x1 := s.slave.opened.draw
  let x2 := x1.draw
  let x3 := x2.draw
  { s with
    dir := { clk := .assertedLow, dio := .released }
    ack := some s.ackValue
    seq := rest
    trace := s.trace ++ ackEvents s.ackValue
    pulls := s.pulls ++ [x1.pull, x2.pull, x3.pull, x3.pull, x3.pull, x3.pull, false]
    slave := { x3 with window := false, pull := false }
    decoder := { s.decoder.onLatch s.ackValue with clk := false, dio := true } }

theorem run_ackPhase (k : Nat) {s : State} {rest : List MicroOp} (h : s.NoReset)
    (hq : s.seq = ackPhase ++ rest) (hw : s.slave.window = false) :
    run (k + 7) s = run k (s.afterAck rest) := by
  refine Eq.trans (run_open_window (k + 6) h hq hw (by simp [ackTail])) ?_
  refine Eq.trans (run_relDio_inside (k + 5) h rfl rfl (by simp [State.windowEvent])) ?_
  refine Eq.trans (run_wait_inside (k + 4) h rfl rfl (by simp [State.windowEvent])) ?_
  refine Eq.trans (run_latch (k + 3) h rfl rfl) ?_
  refine Eq.trans (run_wait_quiet (k + 2) h rfl rfl rfl rfl) ?_
  refine Eq.trans (run_sample_quiet (k + 1) h rfl rfl rfl rfl) ?_
  refine Eq.trans (run_close_window k h rfl (by simp [State.quietEvent, State.latchEvent, State.windowEvent])) ?_
  congr 1
  simp [State.afterAck, State.ackValue, Slave.opened, State.quietEvent, State.latchEvent, State.lowEvent,
    State.windowEvent, State.setSeq, State.setAck, State.setSlave, State.levelDio, Machine.levelDio, onLatch_levels,
    ackEvents]

theorem Slave.opened_draw_pull (v : Slave) (x : Bool) : ({ v with pull := x } : Slave).opened.draw = v.opened.draw := by
  cases v with
  | mk p w m d => cases m <;> rfl

/-- The decoder's latches for a byte and its acknowledge bit. -/
def Decoder.latchByte (x : Decoder) (b : Byte) (v : Bool) : Decoder :=
  ((((((((x.onLatch (b.getLsbD 0)).onLatch (b.getLsbD 1)).onLatch (b.getLsbD 2)).onLatch (b.getLsbD 3)).onLatch
    (b.getLsbD 4)).onLatch (b.getLsbD 5)).onLatch (b.getLsbD 6)).onLatch (b.getLsbD 7)).onLatch v

/-- After a byte write. -/
def State.afterWrb (s : State) (b : Byte) (rest : List MicroOp) : State :=
  let x1 := s.slave.opened.draw
  let x2 := x1.draw
  let x3 := x2.draw
  { s with
    dir := { clk := .assertedLow, dio := .released }
    sr := some 0#8
    bc := some 8#4
    ack := some s.ackValue
    seq := rest
    trace := s.trace ++ wrbEvents b s.ackValue
    pulls := s.pulls ++ (List.replicate 40 false ++
      [x1.pull, x2.pull, x3.pull, x3.pull, x3.pull, x3.pull, false])
    slave := { x3 with window := false, pull := false }
    decoder := { s.decoder.latchByte b s.ackValue with clk := false, dio := true } }

theorem shr_bits (b : Byte) :
    (b >>> 1).getLsbD 0 = b.getLsbD 1 ∧ (b >>> 1 >>> 1).getLsbD 0 = b.getLsbD 2 ∧
    (b >>> 1 >>> 1 >>> 1).getLsbD 0 = b.getLsbD 3 ∧ (b >>> 1 >>> 1 >>> 1 >>> 1).getLsbD 0 = b.getLsbD 4 ∧
    (b >>> 1 >>> 1 >>> 1 >>> 1 >>> 1).getLsbD 0 = b.getLsbD 5 ∧
    (b >>> 1 >>> 1 >>> 1 >>> 1 >>> 1 >>> 1).getLsbD 0 = b.getLsbD 6 ∧
    (b >>> 1 >>> 1 >>> 1 >>> 1 >>> 1 >>> 1 >>> 1).getLsbD 0 = b.getLsbD 7 ∧
    b >>> 1 >>> 1 >>> 1 >>> 1 >>> 1 >>> 1 >>> 1 >>> 1 = 0#8 := by
  simp only [BitVec.getLsbD_ushiftRight, ← BitVec.shiftRight_add]
  refine ⟨trivial, trivial, trivial, trivial, trivial, trivial, trivial, ?_⟩
  apply BitVec.eq_of_toNat_eq
  simpa [Nat.shiftRight_eq_div_pow] using b.isLt

theorem run_wrb (k : Nat) {s : State} {b : Byte} {rest : List MicroOp} (h : s.NoReset)
    (hq : s.seq = wrbList b ++ rest) (hw : s.slave.window = false) :
    run (k + 56) s = run k (s.afterWrb b rest) := by
  obtain ⟨h1, h2, h3, h4, h5, h6, h7, h8⟩ := shr_bits b
  refine Eq.trans (run_of_seq (k + 55) h hq rfl) ?_
  refine Eq.trans (run_bitTime (k + 49) h rfl rfl rfl hw) ?_
  refine Eq.trans (run_bitTime (k + 43) h rfl rfl rfl hw) ?_
  refine Eq.trans (run_bitTime (k + 37) h rfl rfl rfl hw) ?_
  refine Eq.trans (run_bitTime (k + 31) h rfl rfl rfl hw) ?_
  refine Eq.trans (run_bitTime (k + 25) h rfl rfl rfl hw) ?_
  refine Eq.trans (run_bitTime (k + 19) h rfl rfl rfl hw) ?_
  refine Eq.trans (run_bitTime (k + 13) h rfl rfl rfl hw) ?_
  refine Eq.trans (run_bitTime (k + 7) h rfl rfl rfl hw) ?_
  refine Eq.trans (run_ackPhase k h rfl hw) ?_
  congr 1
  rw [h1, h2, h3, h4, h5, h6, h7, h8]
  simp [State.afterWrb, State.afterAck, State.afterBit, State.setSerializer, State.setSeq, State.ackValue,
    Slave.opened_draw_pull, onLatch_levels, wrbEvents, Decoder.latchByte, List.replicate]

/-- A byte latched inside a frame, with no bits before it. -/
theorem latchByte_inFrame {x : Decoder} (b : Byte) (v : Bool) (h : x.inFrame = true) (hb : x.bits = []) :
    x.latchByte b v = { x with cur := x.cur ++ [(b, v)] } := by
  obtain ⟨c, d, i, bits, cur, fr⟩ := x
  subst h hb
  have : byteOfBits [b.getLsbD 0, b.getLsbD 1, b.getLsbD 2, b.getLsbD 3, b.getLsbD 4, b.getLsbD 5, b.getLsbD 6, b.getLsbD 7] = b := by
    revert b; decide
  simp [Decoder.latchByte, Decoder.onLatch, Config.bitsPerByte]
  simpa using this

theorem latchByte_outside {x : Decoder} (b : Byte) (v : Bool) (h : x.inFrame = false) :
    x.latchByte b v = x := by
  simp [Decoder.latchByte, Decoder.onLatch, h]


/-- The fall of DIO while CLK is high. -/
theorem run_lowDio_high (k : Nat) {s : State} {rest : List MicroOp} (h : s.NoReset)
    (hq : s.seq = .low .dio :: rest) (hc : s.dir.clk = .released) (h1 : s.decoder.clk = true)
    (h2 : s.decoder.dio = true) :
    run (k + 1) s = run k { s with
      seq := rest
      dir := { s.dir with dio := .assertedLow }
      trace := s.trace ++ [.low .dio]
      pulls := s.pulls ++ [s.slave.pull]
      decoder := { s.decoder.onStart with clk := true, dio := false }
      display := s.display.receive s.decoder.closed } := by
  refine Eq.trans (run_of_seq k h hq rfl) ?_
  congr 1
  simp [State.assertLine, State.emit, State.windowAtLow, State.setDir, State.setSeq, State.setSlave, State.levelClk, levelClk, hc,
    Machine.levelDio, Decoder.observe, Decoder.condition, h1, h2, Decoder.apply, Decoder.completed]

/-- The rise of DIO while CLK is high. -/
theorem run_relDio_high (k : Nat) {s : State} {rest : List MicroOp} (h : s.NoReset)
    (hq : s.seq = .rel .dio :: rest) (hc : s.dir.clk = .released) (h1 : s.decoder.clk = true)
    (h2 : s.decoder.dio = false) (hp : s.slave.pull = false) :
    run (k + 1) s = run k { s with
      seq := rest
      dir := { s.dir with dio := .released }
      trace := s.trace ++ [.rel .dio]
      pulls := s.pulls ++ [false]
      decoder := { s.decoder.onStop with clk := true, dio := true }
      display := s.display.receive s.decoder.closed } := by
  refine Eq.trans (run_of_seq k h hq rfl) ?_
  congr 1
  simp [State.releaseLine, State.emit, State.setDir, State.setSeq, State.levelClk, levelClk, hc, hp,
    Machine.levelDio, Decoder.observe, Decoder.condition, h1, h2, Decoder.apply, Decoder.completed]

/-- After a START on a bus with no open frame. -/
def State.afterStart (s : State) (rest : List MicroOp) : State :=
  { s with
    dir := { clk := .assertedLow, dio := .assertedLow }
    seq := rest
    trace := s.trace ++ [.rel .dio, .rel .clk, .wait, .low .dio, .wait, .low .clk]
    pulls := s.pulls ++ [false, false, false, false, false, false]
    slave := { s.slave with pull := false }
    decoder :=
      { clk := false, dio := false, inFrame := true, bits := [], cur := [], frames := s.decoder.frames } }

/-- A bus with no open frame where START is a clean start: CLK is low, or both lines are seen high. -/
def State.ReadyForStart (s : State) : Prop :=
  s.slave.window = false ∧ s.decoder.inFrame = false ∧
    (s.dir.clk = .assertedLow ∨ (s.dir = { clk := .released, dio := .released } ∧ s.decoder.clk = true ∧
      s.decoder.dio = true ∧ s.slave.pull = false))

theorem run_start_tail (k : Nat) {s : State} {rest : List MicroOp} (h : s.NoReset)
    (hq : s.seq = [.wait, .low .dio, .wait, .low .clk] ++ rest) (hd : s.dir = { clk := .released, dio := .released })
    (h1 : s.decoder.clk = true) (h2 : s.decoder.dio = true) (h3 : s.decoder.inFrame = false)
    (hw : s.slave.window = false) (hp : s.slave.pull = false) (hr : rest.take 6 ≠ ackTail) :
    run (k + 4) s = run k { s with
      dir := { clk := .assertedLow, dio := .assertedLow }
      seq := rest
      trace := s.trace ++ [.wait, .low .dio, .wait, .low .clk]
      pulls := s.pulls ++ [false, false, false, false]
      decoder :=
        { clk := false, dio := false, inFrame := true, bits := [], cur := [], frames := s.decoder.frames } } := by
  have hl : s.levelDio = true := by simp [State.levelDio, Machine.levelDio, hd, hp]
  refine Eq.trans (run_wait_quiet (k + 3) h hq (by rw [hd]) h1 (by rw [h2, hl])) ?_
  refine Eq.trans (run_lowDio_high (k + 2) h rfl (by simp [State.quietEvent, hd]) h1 h2) ?_
  refine Eq.trans (run_wait_quiet (k + 1) h rfl (by simp [State.quietEvent, hd]) rfl rfl) ?_
  refine Eq.trans (run_low_clk k h rfl hw hr) ?_
  congr 1
  simp [State.quietEvent, State.lowEvent, State.setSeq, Decoder.onStart, Decoder.closed, h3, Display.receive, hp, hd]
  rw [← hp]


theorem run_start (k : Nat) {s : State} {rest : List MicroOp} (h : s.NoReset) (hq : s.seq = startList ++ rest)
    (hs : s.ReadyForStart) (hr : rest.take 6 ≠ ackTail) : run (k + 6) s = run k (s.afterStart rest) := by
  obtain ⟨hw, hf, hc | ⟨hd, h1, h2, hp⟩⟩ := hs
  · refine Eq.trans (run_relDio_low (k + 5) h hq hc hw) ?_
    refine Eq.trans (run_latch (k + 4) h rfl rfl) ?_
    refine Eq.trans (run_start_tail k h rfl rfl rfl rfl (by simp [State.latchEvent, State.lowEvent, State.setSeq, Decoder.onLatch, hf]) hw rfl hr) ?_
    congr 1
    simp [State.afterStart, State.latchEvent, State.lowEvent, State.setSeq, Decoder.onLatch, hf]
  · have hl : s.levelDio = true := by simp [State.levelDio, Machine.levelDio, hd, hp]
    have e1 : run (k + 6) s = run (k + 5) ((s.setSeq ([.rel .clk, .wait, .low .dio, .wait, .low .clk] ++ rest)).quietEvent (.rel .dio)) := by
      refine Eq.trans (run_of_seq (k + 5) h hq rfl) ?_
      congr 1
      have := emit_quiet (s := s.setSeq ([.rel .clk, .wait, .low .dio, .wait, .low .clk] ++ rest)) (.rel .dio) (by rw [State.setSeq_dir, hd]) h1 (h2.trans hl.symm)
      rw [← this, State.releaseLine]
      congr 1
      simp [State.setDir, State.setSeq, hd]
    have e2 : ∀ u : State, u.NoReset → u.seq = [.rel .clk, .wait, .low .dio, .wait, .low .clk] ++ rest → u.dir = { clk := .released, dio := .released } → u.decoder.clk = true → u.decoder.dio = u.levelDio →
        run (k + 5) u = run (k + 4) ((u.setSeq ([.wait, .low .dio, .wait, .low .clk] ++ rest)).quietEvent (.rel .clk)) := by
      intro u hu hq hd h1 h2
      refine Eq.trans (run_of_seq (k + 4) hu hq rfl) ?_
      congr 1
      have := emit_quiet (s := u.setSeq ([.wait, .low .dio, .wait, .low .clk] ++ rest)) (.rel .clk) (by rw [State.setSeq_dir, hd]) h1 h2
      rw [← this, State.releaseLine]
      congr 1
      simp [State.setDir, State.setSeq, hd]
    refine Eq.trans e1 ?_
    refine Eq.trans (e2 _ h rfl hd h1 (h2.trans hl.symm)) ?_
    refine Eq.trans (run_start_tail k h rfl hd h1 h2 hf hw hp hr) ?_
    congr 1
    simp [State.afterStart, State.quietEvent, State.setSeq, hp]
    rw [← hp]

/-- After a STOP that closes an open frame. -/
def State.afterStop (s : State) (rest : List MicroOp) : State :=
  { s with
    dir := { clk := .released, dio := .released }
    seq := rest
    trace := s.trace ++ [.low .clk, .wait, .low .dio, .wait, .rel .clk, .wait, .rel .dio]
    pulls := s.pulls ++ [false, false, false, false, false, false, false]
    slave := { s.slave with pull := false }
    decoder :=
      { clk := true, dio := true, inFrame := false, bits := [], cur := [], frames := s.decoder.frames ++ [s.decoder.cur] }
    display := s.display.receive [s.decoder.cur] }

theorem onLatch_inFrame (x : Decoder) (b : Bool) : (x.onLatch b).inFrame = x.inFrame := by
  unfold Decoder.onLatch; split
  · split <;> rfl
  · rfl

theorem onLatch_frames (x : Decoder) (b : Bool) : (x.onLatch b).frames = x.frames := by
  unfold Decoder.onLatch; split
  · split <;> rfl
  · rfl

theorem onLatch_of_short {x : Decoder} (b : Bool) (h : x.inFrame = true) (hb : x.bits = []) :
    x.onLatch b = { x with bits := [b] } := by
  simp [Decoder.onLatch, h, hb, Config.bitsPerByte]

/-- A stray bit that is no ninth bit leaves what a START or a STOP closes. -/
theorem onLatch_closed {x : Decoder} (b : Bool) (h : x.inFrame = true → x.bits.length < 8) :
    (x.onLatch b).closed = x.closed := by
  unfold Decoder.onLatch Decoder.closed
  cases hf : x.inFrame
  · simp [hf]
  · have h8 : x.bits.length ≠ Config.bitsPerByte := Nat.ne_of_lt (h hf)
    simp [h8]

theorem run_stop (k : Nat) {s : State} {rest : List MicroOp} (h : s.NoReset) (hq : s.seq = stopList ++ rest)
    (hw : s.slave.window = false) (hf : s.decoder.inFrame = true) (hb : s.decoder.bits = []) :
    run (k + 7) s = run k (s.afterStop rest) := by
  refine Eq.trans (run_low_clk (k + 6) h hq hw (by simp [ackTail])) ?_
  refine Eq.trans (run_wait_low (k + 5) h rfl rfl hw) ?_
  refine Eq.trans (run_lowDio_low (k + 4) h rfl rfl hw) ?_
  refine Eq.trans (run_wait_low (k + 3) h rfl rfl hw) ?_
  refine Eq.trans (run_latch (k + 2) h rfl rfl) ?_
  refine Eq.trans (run_wait_quiet (k + 1) h rfl rfl rfl rfl) ?_
  refine Eq.trans (run_relDio_high k h rfl rfl rfl rfl rfl) ?_
  congr 1
  simp [State.afterStop, State.quietEvent, State.latchEvent, State.lowEvent, State.setSeq, Decoder.onStop, Decoder.closed,
    onLatch_of_short, hf, hb]

/-- The host's turn: the word at the port is taken and its instruction runs. -/
theorem run_hostWord (k : Nat) {s t : State} {w : CommandWord} {ws : List CommandWord} {i : Instr} (h : s.NoReset)
    (ht : s.HostTurn) (hw : s.port.words = w :: ws) (hd : decode (.word w) = .instr i)
    (he : exec i { s with port := { words := ws, resetLine := [] } } = .next t) : run (k + 1) s = run k t := by
  apply run_succ_of_next
  obtain ⟨⟨h1, h2⟩, h3, h4, h5⟩ := ht
  have hp : s.port.resetLine = [] := h
  have hb : s.busy = false := by simp [State.busy, h1]
  have hk : s.display.hasWork = false := by simp [Display.hasWork, h3, h4]
  have hf : ¬ s.fault ≠ .none := not_not.mpr h2
  rw [step, nextStep, if_neg (by simp [h5]), if_neg (by simp [hb]), if_neg (by simp [hk]), hostStep, if_neg hf, hw]
  simp only [tick_of_noReset h, acceptWord, hd, State.setPort, hp, he]

end Sys2Proof.Machine
end

