-- ==== Sys2Proof/Laws/Observer.lean ====
section
/-! SUPPORT. The observer: reading a byte, a frame, and a frame's data, as equations of the run. -/

namespace Sys2Proof.Machine

/-- The observer reads the next data byte of the open frame. -/
theorem run_dataByte (k : Nat) {s : State} {x xs} (h : s.NoReset) (hq : s.seq = []) (hd : s.display.data = x :: xs) :
    run (k + 1) s = run k (s.setDisplay (({ s.display with data := xs } : Display).patternByte x)) := by
  apply run_succ_of_next
  simp [step, nextStep, resetAsserted_of_noReset h, State.busy, hq, Display.hasWork, hd, tick_of_noReset h, observerStep, decode]

/-- The observer begins the next frame. -/
theorem run_openFrame (k : Nat) {s : State} {f fs} (h : s.NoReset) (hq : s.seq = []) (hd : s.display.data = []) (hi : s.display.inbox = f :: fs) :
    run (k + 1) s = run k (s.setDisplay (openedDisplay { s.display with inbox := fs } f)) := by
  apply run_succ_of_next
  simp [step, nextStep, resetAsserted_of_noReset h, State.busy, hq, Display.hasWork, hd, hi, tick_of_noReset h, observerStep, openFrame_next]


/-- A pattern byte does not touch what is still to be read. -/
theorem patternByte_unread (v : Display) (x : Byte) (xs : List Byte) (ib) :
    ({ v with data := xs, inbox := ib } : Display).patternByte x = { v.patternByte x with data := xs, inbox := ib } := by
  obtain ⟨mode, addr, ram, don, br, rf, ib', d'⟩ := v
  cases addr with
  | none => rfl
  | some a => simp only [Display.patternByte]; cases ram.write a x <;> rfl

theorem patternBytes_unread (xs : List Byte) : ∀ (v : Display) (d ib), xs.foldl Display.patternByte { v with data := d, inbox := ib } = { xs.foldl Display.patternByte v with data := d, inbox := ib } := by
  induction xs with
  | nil => intros; rfl
  | cons x xs ih => intro v d ib; rw [List.foldl_cons, List.foldl_cons, patternByte_unread, ih]

/-- The observer reads all data bytes of the open frame. -/
theorem run_dataBytes (xs : List Byte) : ∀ (k : Nat) (s : State), s.NoReset → s.seq = [] → s.display.data = xs →
    run (k + xs.length) s = run k (s.setDisplay { xs.foldl Display.patternByte s.display with data := [], inbox := s.display.inbox }) := by
  induction xs with
  | nil => intro k s h hq hd; 
           have : s.setDisplay { s.display with data := [], inbox := s.display.inbox } = s := by rw [← hd]; rfl
           simp only [List.foldl_nil, this]; rfl
  | cons x xs ih =>
    intro k s h hq hd
    have hp := patternByte_unread s.display x xs s.display.inbox
    have hp' : ({ s.display with data := xs } : Display).patternByte x = { s.display.patternByte x with data := xs, inbox := s.display.inbox } := hp
    rw [show k + (x :: xs).length = (k + xs.length) + 1 by simp; omega]
    refine Eq.trans (run_dataByte _ h hq hd) ?_
    refine Eq.trans (ih k (s.setDisplay (({ s.display with data := xs } : Display).patternByte x)) h hq (by rw [State.setDisplay_display, hp'])) ?_
    rw [State.setDisplay_display, hp', List.foldl_cons, patternBytes_unread]
    rfl

/-- The observer's case analysis of a first byte. -/
theorem decodeCommandByte_eq (c : Byte) : decode (.commandByte c) = if c = 0x40#8 then .instr .cmdData else if c = 0xC0#8 then .instr .cmdAddr else if c.extractLsb' 3 5 = 0b10001#5 then .instr (.cmdDisp (c.extractLsb' 0 3)) else .rejected .unknownCommandByte := by
  revert c; decide

/-- A frame that has been begun, once its data bytes are read, is read as 20_memory.md R61 says. -/
theorem openedDisplay_settles (v : Display) (f : List Byte) (hd : v.data = []) :
    (openedDisplay v f).inbox = v.inbox ∧
    { (openedDisplay v f).data.foldl Display.patternByte (openedDisplay v f) with data := [], inbox := v.inbox } = v.readFrame f ∧
    (openedDisplay v f).data.length ≤ f.length - 1 ∧
    (f.head? = some 0xC0#8 → v.mode = some .autoIncWrite → (openedDisplay v f).data.length = f.length - 1) ∧
    (f.head? ≠ some 0xC0#8 → (openedDisplay v f).data = []) := by
  cases f with
  | nil => 
    refine ⟨rfl, ?_, by simp [openedDisplay, hd], by simp, fun _ => hd⟩
    obtain ⟨mode, addr, ram, don, br, rf, ib', d'⟩ := v
    simp at hd; subst hd; rfl
  | cons c xs =>
    by_cases h1 : c = 0x40#8
    · subst h1
      have : decode (.commandByte 0x40#8) = .instr .cmdData := rfl
      obtain ⟨mode, addr, ram, don, br, rf, ib', d'⟩ := v
      simp at hd; subst hd
      by_cases hx : xs = []
      · subst hx; simp [openedDisplay, this, Display.readFrame, Config.cmdData, Display.dataCommand]
      · simp [openedDisplay, this, Display.readFrame, Config.cmdData, Config.cmdAddr, Display.refuse, hx]
    · by_cases h2 : c = 0xC0#8
      · subst h2
        have : decode (.commandByte 0xC0#8) = .instr .cmdAddr := rfl
        by_cases hm : v.mode = some .autoIncWrite
        · have e : openedDisplay v (0xC0#8 :: xs) = { v.addressCommand with data := xs, inbox := v.inbox } := by
            simp [openedDisplay, this, dataAfterAddress, Display.addressCommand, hm]
          have e' : (v.readFrame (0xC0#8 :: xs)) = xs.foldl Display.patternByte v.addressCommand := by
            simp [Display.readFrame, Config.cmdData, Config.cmdAddr, hm]
          rw [e, e']
          refine ⟨rfl, ?_, by simp, by simp, by simp⟩
          rw [patternBytes_unread]
          have hv : v.addressCommand = { v.addressCommand with data := [], inbox := v.inbox } := by
            obtain ⟨mode, addr, ram, don, br, rf, ib', d'⟩ := v
            simp at hd hm; subst hd hm; rfl
          conv_rhs => rw [hv, patternBytes_unread]
        · obtain ⟨mode, addr, ram, don, br, rf, ib', d'⟩ := v
          simp at hd hm; subst hd
          simp [openedDisplay, this, dataAfterAddress, Display.addressCommand, hm, Display.readFrame, Config.cmdData, Config.cmdAddr, Display.refuse]
      · have := decodeCommandByte_eq c
        rw [if_neg h1, if_neg h2] at this
        obtain ⟨mode, addr, ram, don, br, rf, ib', d'⟩ := v
        simp at hd; subst hd
        by_cases h3 : c.extractLsb' 3 5 = 0b10001#5
        · rw [if_pos h3] at this
          by_cases hx : xs = []
          · subst hx; simp [openedDisplay, this, Display.readFrame, Config.cmdData, Config.cmdAddr, h1, h2, h3, Display.controlCommand]
          · simp [openedDisplay, this, Display.readFrame, Config.cmdData, Config.cmdAddr, h1, h2, h3, hx, Display.refuse]
        · rw [if_neg h3] at this
          simp [openedDisplay, this, Display.readFrame, Config.cmdData, Config.cmdAddr, h1, h2, h3, Display.refuse]

/-- Reading a cell after putting one. -/
theorem findCell_putCell (a v m b) : findCell b (putCell a v m) = if b = a then some v else findCell b m := by
  induction m with
  | nil => simp [putCell, findCell]; grind
  | cons c r ih => 
    unfold putCell
    split
    · simp [findCell]; grind
    · split
      · simp [findCell]; grind
      · simp [findCell, ih]; grind

theorem decode_dispControl (b : BitVec 3) : decode (.commandByte (0x88#8 ||| b.zeroExtend 8)) = .instr (.cmdDisp b) := by
  revert b; decide

end Sys2Proof.Machine
end

