-- ==== Sys2Proof/Laws/PerInstr.lean ====
section
/-! SUPPORT. One lemma per constructor of Instr: its code lies in its row of the opcode table. -/

namespace Sys2Proof.Laws

/-- A masked word, from the masks of its two parts. -/
theorem masked_append {m n : Nat} (x mx vx : BitVec m) (y my vy : BitVec n) (hx : x &&& mx = vx)
    (hy : y &&& my = vy) : (x ++ y).toNat &&& (mx ++ my).toNat = (vx ++ vy).toNat := by
  rw [← BitVec.toNat_and, BitVec.and_append, hx, hy]

namespace EncodingInRow

/-- The instruction's code has the fixed bits of its own row (30_encoding.md R66, R67, R73 to R76). -/
def Statement (i : Instr) : Prop :=
  ∃ r ∈ (encode i).rows, r.mnemonic = i.mnemonic ∧ r.holds (encode i).bits = true

theorem rel (l : Line) : Statement (.rel l) :=
  ⟨⟨"REL", 20, 0x00000, 0xFFFFE⟩, show _ ∈ commandRows by decide, rfl, by cases l <;> decide⟩

theorem low (l : Line) : Statement (.low l) :=
  ⟨⟨"LOW", 20, 0x10000, 0xFFFFE⟩, show _ ∈ commandRows by decide, rfl, by cases l <;> decide⟩

theorem wait : Statement .wait := ⟨⟨"WAIT", 20, 0x20000, 0xFFFFF⟩, show _ ∈ commandRows by decide, rfl, by decide⟩

theorem start : Statement .start := ⟨⟨"START", 20, 0x30000, 0xFFFFF⟩, show _ ∈ commandRows by decide, rfl, by decide⟩

theorem stop : Statement .stop := ⟨⟨"STOP", 20, 0x40000, 0xFFFFF⟩, show _ ∈ commandRows by decide, rfl, by decide⟩

theorem wrb (b : Byte) : Statement (.wrb b) :=
  ⟨⟨"WRB", 20, 0x50000, 0xFFF00⟩, show _ ∈ commandRows by decide, rfl, beq_iff_eq.mpr <|
    masked_append (0x5#4 ++ 0#8) 0xFFF#12 0x500#12 b 0x00#8 0x00#8 (by decide) (by simp)⟩

theorem enc (d : BitVec 4) : Statement (.enc d) :=
  ⟨⟨"ENC", 20, 0x60000, 0xFFFF0⟩, show _ ∈ commandRows by decide, rfl, beq_iff_eq.mpr <|
    masked_append (0x6#4 ++ 0#12) 0xFFFF#16 0x6000#16 d 0x0#4 0x0#4 (by decide) (by simp)⟩

theorem showNum (n : BitVec 16) : Statement (.showNum n) :=
  ⟨⟨"SHOW", 20, 0x70000, 0xF0000⟩, show _ ∈ commandRows by decide, rfl, beq_iff_eq.mpr <|
    masked_append 0x7#4 0xF#4 0x7#4 n 0x0000#16 0x0000#16 (by decide) (by simp)⟩

theorem reserved (low : BitVec 19) : Statement (.reserved low) :=
  ⟨⟨"RESERVED", 20, 0x80000, 0x80000⟩, show _ ∈ commandRows by decide, rfl, beq_iff_eq.mpr <|
    masked_append 1#1 1#1 1#1 low 0#19 0#19 (by decide) (by simp)⟩

theorem cmdData : Statement .cmdData := ⟨⟨"CMD_DATA", 8, 0x40, 0xFF⟩, show _ ∈ commandByteRows by decide, rfl, by decide⟩

theorem cmdAddr : Statement .cmdAddr := ⟨⟨"CMD_ADDR", 8, 0xC0, 0xFF⟩, show _ ∈ commandByteRows by decide, rfl, by decide⟩

theorem cmdDisp (b : BitVec 3) : Statement (.cmdDisp b) :=
  ⟨⟨"CMD_DISP", 8, 0x88, 0xF8⟩, show _ ∈ commandByteRows by decide, rfl, beq_iff_eq.mpr <|
    masked_append 0b10001#5 0b11111#5 0b10001#5 b 0#3 0#3 (by decide) (by simp)⟩

theorem segData (p : Byte) : Statement (.segData p) :=
  ⟨⟨"SEG_DATA", 8, 0x00, 0x00⟩, show _ ∈ dataByteRows by decide, rfl, by simp [OpcodeRow.holds, Code.bits, encode]⟩

end EncodingInRow

end Sys2Proof.Laws
end

