-- ==== Sys2Proof/Tests/Slice0.lean ====
section
/-! SUPPORT. Tests of one step each, with results from the spec's tables, and a witness for every statement's hypotheses. -/

namespace Sys2Proof.Tests

open Sys2Proof.Machine

/-! WellFormed refuses an ill-formed instruction (30_encoding.md R67, R69). -/

theorem test_wellFormed_refuses_digit10 : (Instr.enc 10#4).wellFormed = false := by decide
theorem test_wellFormed_accepts_digit9 : (Instr.enc 9#4).wellFormed = true := by decide
theorem test_wellFormed_refuses_reserved : (Instr.reserved 0#19).wellFormed = false := by decide

/-! Words written out bit by bit, OP then ARG (30_encoding.md R65 to R67, R73 to R76). -/

theorem test_word_rel_clk : decode (.word 0b00000000000000000000#20) = .instr (.rel .clk) := by decide
theorem test_word_rel_dio : decode (.word 0b00000000000000000001#20) = .instr (.rel .dio) := by decide
theorem test_word_low_clk : decode (.word 0b00010000000000000000#20) = .instr (.low .clk) := by decide
theorem test_word_low_dio : decode (.word 0b00010000000000000001#20) = .instr (.low .dio) := by decide
theorem test_word_wait : decode (.word 0b00100000000000000000#20) = .instr .wait := by decide
theorem test_word_start : decode (.word 0b00110000000000000000#20) = .instr .start := by decide
theorem test_word_stop : decode (.word 0b01000000000000000000#20) = .instr .stop := by decide
theorem test_word_wrb_40 : decode (.word 0b01010000000001000000#20) = .instr (.wrb 0x40#8) := by decide
theorem test_word_wrb_FF : decode (.word 0b01010000000011111111#20) = .instr (.wrb 0xFF#8) := by decide
theorem test_word_enc_9 : decode (.word 0b01100000000000001001#20) = .instr (.enc 9#4) := by decide
theorem test_word_enc_15 : decode (.word 0b01100000000000001111#20) = .instr (.enc 15#4) := by decide
theorem test_word_show_1234 : decode (.word 0b01110000010011010010#20) = .instr (.showNum 1234#16) := by decide
theorem test_word_show_65535 : decode (.word 0b01111111111111111111#20) = .instr (.showNum 65535#16) := by decide
theorem test_word_reserved_8 : decode (.word 0b10000000000000000000#20) = .instr (.reserved 0#19) := by decide
theorem test_word_reserved_F : decode (.word 0b11111111111111111111#20) = .instr (.reserved 0x7FFFF#19) := by decide
theorem test_byte_cmdData : decode (.commandByte 0b01000000#8) = .instr .cmdData := by decide
theorem test_byte_cmdAddr : decode (.commandByte 0b11000000#8) = .instr .cmdAddr := by decide
theorem test_byte_cmdDisp_3 : decode (.commandByte 0b10001011#8) = .instr (.cmdDisp 3#3) := by decide
theorem test_byte_cmdDisp_0 : decode (.commandByte 0b10001000#8) = .instr (.cmdDisp 0#3) := by decide
theorem test_byte_segData : decode (.dataByte 0b01000000#8) = .instr (.segData 0x40#8) := by decide

/-- 95_test_vectors.md V-BYTE-6: 0x80 is no display-control byte. -/
theorem test_byte_80_is_none : decode (.commandByte 0x80#8) = .rejected .unknownCommandByte := by decide

/-- 95_test_vectors.md V-ILL-3 to V-ILL-8 and V-ENC-13: a must-be-0 bit is set. -/
theorem test_words_with_a_set_zero_bit :
    ([0x00002#20, 0x18001#20, 0x20001#20, 0x30100#20, 0x40001#20, 0x50100#20, 0x60010#20, 0x6001A#20].map
      fun w => decode (.word w)) = List.replicate 8 (.rejected .mustBeZero) := by decide

/-- No command word lies in two rows of the opcode table (30_encoding.md R66). -/
theorem test_rows_disjoint : commandRows.Pairwise (fun r q => r.disjoint q = true) := by decide

/-- 95_test_vectors.md P5: the words of `txb 0xB6, 0x9E, 0xCC, 0xDA`. -/
theorem test_assemble_txb : assemble ["txb 0xB6, 0x9E, 204,0xDA ; P5".toList] =
    some [0x30000#20, 0x500C0#20, 0x500B6#20, 0x5009E#20, 0x500CC#20, 0x500DA#20, 0x40000#20] := by decide

/-- 30_encoding.md R78: the assembler refuses an operand outside its range. -/
theorem test_assemble_refuses_enc_16 : assemble ["enc 16".toList] = none := by decide

/-! One step each. -/

/-- The block idle with its lines at `dir`, a slave with the given coming choices, and these words at
the port. -/
def idle (dir : Lines) (moves : List Bool) (ws : List CommandWord) : State :=
  { State.reset with
    dir := dir
    decoder := Decoder.initial dir
    slave := { pull := false, window := false, moves := moves, draws := 0 }
    port := { words := ws, resetLine := [] } }

/-- The idle block, busy with the list `q`. -/
def busyWith (dir : Lines) (moves : List Bool) (q : List MicroOp) : State := { idle dir moves [] with seq := q }

def bothHigh : Lines := { clk := .released, dio := .released }
def bothLow : Lines := { clk := .assertedLow, dio := .assertedLow }

/-- Something of the next state, if there is one. -/
def after {α : Type} (r : Result) (f : State → α) : Option α :=
  match r with
  | .next t => some (f t)
  | .fault _ => none
  | .refused _ => none

/-- V-LINE-1. -/
theorem test_rel_clk : after (step (busyWith bothLow [] [.rel .clk])) (fun t => (t.dir, t.trace, t.busy)) =
    some ({ clk := .released, dio := .assertedLow }, [.rel .clk], false) := by decide

/-- V-LINE-2: still emitted. -/
theorem test_rel_clk_again : after (step (busyWith bothHigh [] [.rel .clk])) (fun t => (t.dir, t.trace)) =
    some (bothHigh, [.rel .clk]) := by decide

/-- V-LINE-3: the decoder reads it as START. -/
theorem test_low_dio_starts : after (step (busyWith bothHigh [] [.low .dio]))
    (fun t => (t.dir, t.trace, t.decoder.inFrame)) =
    some ({ clk := .released, dio := .assertedLow }, [.low .dio], true) := by decide

/-- V-LINE-4. -/
theorem test_low_clk_again : after (step (busyWith bothLow [] [.low .clk])) (fun t => (t.dir, t.trace)) =
    some (bothLow, [.low .clk]) := by decide

/-- V-WAIT-1. -/
theorem test_wait : after (step (busyWith bothHigh [] [.wait])) (fun t => (t.dir, t.trace, t.sr)) =
    some (bothHigh, [.wait], none) := by decide

/-- V-BUS-1: `start` at the port is accepted, six micro-ops. -/
theorem test_start_accepted : after (step (idle bothHigh [] [0x30000#20])) (fun t => (t.seq, t.busy, t.trace)) =
    some ([.rel .dio, .rel .clk, .wait, .low .dio, .wait, .low .clk], true, []) := by decide

/-- V-BUS-2. -/
theorem test_stop_accepted : after (step (idle bothLow [] [0x40000#20])) (fun t => (t.seq, t.trace)) =
    some ([.low .clk, .wait, .low .dio, .wait, .rel .clk, .wait, .rel .dio], []) := by decide

/-- 41_bus_protocol.md R97: 56 micro-ops, 18 of them WAITs. -/
theorem test_wrb_accepted : after (step (idle bothLow [] [0x50040#20]))
    (fun t => (t.seq.length, t.seq.count .wait, t.seq.head?)) = some (56, 18, some (.loadSR 0x40#8)) := by decide

/-- V-WRB-3 and V-WRB-4: the first bit driven is bit 0. -/
theorem test_outBit : after (perform .outBit { busyWith bothLow [] [] with sr := some 0x01#8 }) (fun t => t.trace) =
      some [.rel .dio] ∧
    after (perform .outBit { busyWith bothLow [] [] with sr := some 0x80#8 }) (fun t => t.trace) =
      some [.low .dio] := by decide

/-- 10_state.md R26: a 0 is shifted in at the top. -/
theorem test_shift : after (perform .shift { busyWith bothLow [] [] with sr := some 0x81#8, bc := some 7#4 })
    (fun t => (t.sr, t.bc)) = some (some 0x40#8, some 8#4) := by decide

/-- 10_state.md R26 with SR at `⊥`: BC still counts, and the read is counted (00_scope.md R11, entry 29). -/
theorem test_shift_unwritten : after (perform .shift { busyWith bothLow [] [] with bc := some 3#4 })
    (fun t => (t.bc, t.unwrittenReads)) = some (some 4#4, 1) := by decide

/-- V-ENC-9 in every instantiation of SEG_TABLE: `enc 8`. -/
theorem test_enc_8 : after (step (idle bothHigh [] [0x60008#20])) (fun t => t.segout) =
    some (some (Config.segTable 8)) := rfl

/-- V-ENC-11: `enc 10` is the first invalid digit. -/
theorem test_enc_10 : after (step (idle bothHigh [] [0x6000A#20])) (fun t => (t.fault.code, t.segout, t.seq, t.trace)) =
    some (1, none, [], []) := by decide

/-- V-ENC-14: the must-be-0 check comes first. -/
theorem test_enc_1A : after (step (idle bothHigh [] [0x6001A#20])) (fun t => (t.fault.code, t.seq)) =
    some (2, []) := by decide

/-- 42_segment_encoder.md R104 under SEG_REF_A. -/
theorem test_segRefA : (List.finRange 10).map Config.segRefA =
    [0x7E#8, 0x0C#8, 0xB6#8, 0x9E#8, 0xCC#8, 0xDA#8, 0xFA#8, 0x0E#8, 0xFE#8, 0xDE#8] := by decide

/-- V-SHOW-2: the digits of 1234. -/
theorem test_show_1234 : after (step (idle bothHigh [] [0x704D2#20])) (fun t => (t.n, t.d.toList)) =
    some (some 1234#16, [some 1#4, some 2#4, some 3#4, some 4#4]) := by decide

/-- V-SHOW-7: 65535 wraps to 5535. -/
theorem test_show_65535 : after (step (idle bothHigh [] [0x7FFFF#20])) (fun t => t.d.toList) =
    some [some 5#4, some 5#4, some 3#4, some 5#4] := by decide

/-- V-ILL-1. -/
theorem test_reserved : after (step (idle bothHigh [] [0x80000#20])) (fun t => (t.fault.code, t.seq, t.trace)) =
    some (2, [], []) := by decide

/-- V-ILL-2. -/
theorem test_reserved_F : after (step (idle bothHigh [] [0xFFFFF#20])) (fun t => (t.fault.code, t.seq)) =
    some (2, []) := by decide

/-- V-ILL-3: REL with ARG[1] set. -/
theorem test_rel_with_zero_bit : after (step (idle bothHigh [] [0x00002#20])) (fun t => (t.fault.code, t.seq)) =
    some (2, []) := by decide

/-- V-ILL-10: the second word is refused. -/
theorem test_faulted_refuses : step { idle bothHigh [] [0x704D2#20] with fault := .illegalCommand } = .refused .faulted :=
  rfl

/-- V-RST-3: reset clears the fault. -/
theorem test_reset_clears_fault : after (step { idle bothHigh [] [] with
      fault := .invalidDigit, port := { words := [], resetLine := [true] } }) (fun t => (t.fault, t.seq, t.trace)) =
    some (.none, [], []) := by decide

/-- 95_test_vectors.md P1, event 47: the acknowledge window opens and the slave pulls. -/
theorem test_window_opens : after (step (busyWith bothHigh [true] ackPhase))
    (fun t => (t.slave.window, t.slave.pull, t.levelClk, t.levelDio)) = some (true, true, false, false) := by decide

/-- P1, event 50: the acknowledge bit is latched and the byte (0x40, 0) is complete. -/
theorem test_ninth_latch : (Decoder.onLatch { Decoder.initial bothHigh with
      inFrame := true, bits := [false, false, false, false, false, false, true, false] } false).cur =
    [(0x40#8, false)] := by decide

/-- P1, event 52: Sample(0). -/
theorem test_sample_acknowledged : after (perform .sample { busyWith bothHigh [] [] with
      slave := { pull := true, window := true, moves := [], draws := 0 } }) (fun t => (t.ack, t.trace)) =
    some (some false, [.sample false]) := by decide

/-- P1, event 53: the window closes and the slave lets go. -/
theorem test_window_closes : after (step { busyWith bothHigh [] [.low .clk] with
      slave := { pull := true, window := true, moves := [true], draws := 0 } })
    (fun t => (t.slave.window, t.slave.pull, t.levelDio)) = some (false, false, true) := by decide

/-- P1, event 60: STOP closes the frame, dropping the stray bit. -/
theorem test_stop_closes_frame : after (step { busyWith { clk := .released, dio := .assertedLow } [] [.rel .dio] with
      decoder := { clk := true, dio := false, inFrame := true, bits := [false], cur := [(0x40#8, false)], frames := [] } })
    (fun t => (t.decoder.frames, t.decoder.inFrame, t.display.inbox)) =
    some ([[(0x40#8, false)]], false, [[0x40#8]]) := by decide

/-- The idle block with the given observer. -/
def withDisplay (v : Display) : State := { idle bothHigh [] [] with display := v }

/-- 20_memory.md R61: the data command's frame. -/
theorem test_cmdData : after (step (withDisplay { Display.initial with inbox := [[0x40#8]] }))
    (fun t => (t.display.mode, t.display.addr)) = some (some .autoIncWrite, none) := by decide

/-- 20_memory.md R61: the address command in mode AutoIncWrite, the data after it still to be read. -/
theorem test_cmdAddr : after (step (withDisplay { Display.initial with
      mode := some .autoIncWrite, inbox := [[0xC0#8, 0x0C#8, 0xB6#8]] })) (fun t => (t.display.addr, t.display.data)) =
    some (some 0, [0x0C#8, 0xB6#8]) := by decide

/-- 20_memory.md R61: outside that mode the frame is refused. -/
theorem test_cmdAddr_refused : after (step (withDisplay { Display.initial with inbox := [[0xC0#8, 0x0C#8]] }))
    (fun t => (t.display.addr, t.display.data, t.display.refusals)) = some (none, [], 1) := by decide

/-- 95_test_vectors.md V-BYTE-5. -/
theorem test_cmdDisp : after (step (withDisplay { Display.initial with inbox := [[0x8B#8]] }))
    (fun t => (t.display.dispOn, t.display.bright)) = some (some true, some 3#3) := by decide

/-- 20_memory.md R61: the third pattern of V-SHOW-2. -/
theorem test_segData : after (step (withDisplay { Display.initial with
      mode := some .autoIncWrite, addr := some 2, data := [0x9E#8, 0xCC#8] }))
    (fun t => (t.display.ram.read 2, t.display.ram.read 3, t.display.addr, t.display.data)) =
    some (some 0x9E#8, none, some 3, [0xCC#8]) := by decide

/-- 20_memory.md R61: address 4 does not exist. -/
theorem test_segData_refused : after (step (withDisplay { Display.initial with
      mode := some .autoIncWrite, addr := some 4, data := [0x9E#8] }))
    (fun t => (t.display.ram, t.display.addr, t.display.refusals)) = some ({ cells := [] }, some 4, 1) := by decide

/-! Witnesses: concrete states and operands that meet the hypotheses of each statement. -/

theorem witness_DecodedCodeIsTheEncodingOfItsInstruction :
    decode (.word 0x50040#20) = .instr (.wrb 0x40#8) := by decide

/-- A word, a command byte and a pattern byte that decode, and a word and a command byte that do not. -/
theorem witness_DecoderFollowsTheOpcodeTable :
    decode (.word 0x00001#20) = .instr (.rel .dio) ∧ decode (.word 0x00002#20) = .rejected .mustBeZero ∧
    decode (.commandByte 0x8F#8) = .instr (.cmdDisp 7#3) ∧
    decode (.commandByte 0x80#8) = .rejected .unknownCommandByte ∧
    decode (.dataByte 0x40#8) = .instr (.segData 0x40#8) ∧
    ⟨"REL", 20, 0x00000, 0xFFFFE⟩ ∈ (Code.word 0x00001#20).rows ∧
    ⟨"CMD_DISP", 8, 0x88, 0xF8⟩ ∈ (Code.commandByte 0x8F#8).rows ∧
    ⟨"SEG_DATA", 8, 0x00, 0x00⟩ ∈ (Code.dataByte 0x40#8).rows := by decide

/-- `s.Accepting`, for every statement that asks it of the state alone: WordAtThePortIsCheckedInOrder,
FaultingCommandsTakeTheirFault, LineCommandsCompleteWithOneMicroOp, BusCommandsCompleteWithTheirLists,
EncPutsTheTableEntryInSegout, ShowIssuesItsThreeTransactions. -/
theorem witness_Accepting : State.reset.Accepting := ⟨rfl, rfl⟩

/-- `s.Accepting` and `s.NoReset`: ShowWrapsNumbersAbove9999, LineCommandsRunToTheirEnd,
StartEndsWithBothLinesLow, StopEndsWithBothLinesReleased, WrbSendsItsBitsLeastSignificantFirst,
ShowRunsToItsEnd, ShowEqualsItsTransactionsByHand, LastCommandSetsTheDirection. -/
theorem witness_AcceptingNoReset : State.reset.Accepting ∧ State.reset.NoReset := ⟨⟨rfl, rfl⟩, rfl⟩

/-- The clauses of WordAtThePortIsCheckedInOrder, each at the ends of its range. -/
theorem witness_WordAtThePortIsCheckedInOrder :
    (8 ≤ (0x80000#20).toNat / 65536 ∧ 8 ≤ (0xFFFFF#20).toNat / 65536) ∧
    ((0x00002#20).toNat / 65536 ≤ 1 ∧ 2 ≤ (0x00002#20).toNat % 65536) ∧
    ((0x1FFFF#20).toNat / 65536 ≤ 1 ∧ 2 ≤ (0x1FFFF#20).toNat % 65536) ∧
    (2 ≤ (0x20001#20).toNat / 65536 ∧ (0x20001#20).toNat / 65536 ≤ 4 ∧ 1 ≤ (0x20001#20).toNat % 65536) ∧
    (2 ≤ (0x4FFFF#20).toNat / 65536 ∧ (0x4FFFF#20).toNat / 65536 ≤ 4 ∧ 1 ≤ (0x4FFFF#20).toNat % 65536) ∧
    ((0x50100#20).toNat / 65536 = 5 ∧ 256 ≤ (0x50100#20).toNat % 65536) ∧
    ((0x60010#20).toNat / 65536 = 6 ∧ 16 ≤ (0x60010#20).toNat % 65536) ∧
    ((0x6000A#20).toNat / 65536 = 6 ∧ (0x6000A#20).toNat % 65536 < 16 ∧ 9 < (0x6000A#20).toNat % 65536) ∧
    ((0x6000F#20).toNat / 65536 = 6 ∧ (0x6000F#20).toNat % 65536 < 16 ∧ 9 < (0x6000F#20).toNat % 65536) ∧
    ((0x00000#20).toNat = 0x00000 ∧ (0x00001#20).toNat = 0x00001 ∧ (0x10000#20).toNat = 0x10000 ∧
      (0x10001#20).toNat = 0x10001 ∧ (0x20000#20).toNat = 0x20000 ∧ (0x30000#20).toNat = 0x30000 ∧
      (0x40000#20).toNat = 0x40000) ∧
    ((0x500FF#20).toNat / 65536 = 5 ∧ (0x500FF#20).toNat % 65536 < 256) ∧
    ((0x60009#20).toNat / 65536 = 6 ∧ (0x60009#20).toNat % 65536 ≤ 9) ∧
    (0x7FFFF#20).toNat / 65536 = 7 := by decide

theorem idle_HostTurn (dir : Lines) (moves : List Bool) (ws : List CommandWord) :
    (idle dir moves ws).HostTurn := ⟨⟨rfl, rfl⟩, rfl, rfl, rfl⟩

theorem idle_Idle (moves : List Bool) (ws : List CommandWord) : (idle bothHigh moves ws).Idle :=
  ⟨idle_HostTurn _ _ _, rfl, ⟨rfl, rfl⟩, ⟨rfl, rfl⟩, rfl, rfl⟩

theorem witness_StepRunsTheDecodedWord :
    (idle bothHigh [] [0x704D2#20]).HostTurn ∧ decode (.word 0x704D2#20) = .instr (.showNum 1234#16) ∧
    (idle bothHigh [] [0x00002#20]).HostTurn ∧ decode (.word 0x00002#20) = .rejected .mustBeZero :=
  ⟨idle_HostTurn _ _ _, by decide, idle_HostTurn _ _ _, by decide⟩

/-- One state for each clause: a data byte, a control command alone, an address command with data. -/
theorem witness_StepRunsTheDecodedWireByte :
    (withDisplay { Display.initial with data := [0x9E#8] }).seq = [] ∧
    (withDisplay { Display.initial with data := [0x9E#8] }).resetAsserted = false ∧
    (withDisplay { Display.initial with inbox := [[0x88#8]] }).display.data = [] ∧
    decode (.commandByte 0x88#8) = .instr (.cmdDisp 0#3) ∧
    (withDisplay { Display.initial with mode := some .autoIncWrite, inbox := [[0xC0#8, 0x0C#8]] }).display.mode =
      some .autoIncWrite := by decide

theorem witness_PlacedInstructionRunsNext :
    decodeTableWord 20 0x704D2 = some (.showNum 1234#16) ∧
    decode (.commandByte (BitVec.ofNat 8 0x8F)) = .instr (.cmdDisp 7#3) ∧
    decode (.commandByte (BitVec.ofNat 8 0x80)) = .rejected .unknownCommandByte := by decide

theorem witness_StepPerformsTheHeadOfSeq :
    (busyWith bothHigh [] [.wait, .sample]).resetAsserted = false ∧
    (busyWith bothHigh [] [.wait, .sample]).seq = .wait :: [.sample] ∧
    ∃ t, step (busyWith bothHigh [] [.wait, .sample]) = .next t := ⟨rfl, rfl, _, rfl⟩

theorem witness_MicroOpsDoWhatTheTableSays :
    Line.dio ≠ .clk ∧
    ({ State.reset with sr := some 0x01#8, bc := some 7#4 } : State).sr = some 0x01#8 ∧
    (0x01#8).getLsbD 0 = true ∧ (0x80#8).getLsbD 0 = false ∧
    ({ State.reset with sr := some 0x01#8, bc := some 7#4 } : State).bc = some 7#4 ∧ State.reset.sr = none ∧
    ({ State.reset with sr := some 0x01#8 } : State).bc = none :=
  ⟨by decide, rfl, rfl, rfl, rfl, rfl, rfl⟩

theorem witness_CommandsAreRefusedWhileBusyOrFaulted :
    isCommand .start = true ∧ (busyWith bothHigh [] [.wait]).seq ≠ [] ∧
    ({ idle bothHigh [] [] with fault := .invalidDigit } : State).seq = [] ∧
    ({ idle bothHigh [] [] with fault := .invalidDigit } : State).fault ≠ .none ∧
    ∃ t, exec .start (idle bothHigh [] []) = .next t := ⟨rfl, by decide, rfl, by decide, _, rfl⟩

theorem witness_IdleBlockWaitsForACommand :
    (idle bothHigh [] []).HostTurn ∧ (idle bothHigh [] []).NoReset ∧ (idle bothHigh [] []).port.words = [] :=
  ⟨idle_HostTurn _ _ _, rfl, rfl⟩

theorem witness_FaultIsRaisedOnlyByTheAcceptingStep :
    (idle bothHigh [] [0x6000C#20]).resetAsserted = false ∧
    ∃ t, step (idle bothHigh [] [0x6000C#20]) = .next t ∧ t.fault ≠ (idle bothHigh [] [0x6000C#20]).fault :=
  ⟨rfl, _, rfl, by decide⟩

/-- A faulted block that still has a step (the observer's), one that has none, and one being reset. -/
theorem witness_FaultIsStickyUntilReset :
    (∃ t, step { withDisplay { Display.initial with inbox := [[0x40#8]] } with fault := .illegalCommand } = .next t) ∧
    ({ idle bothHigh [] [] with fault := .illegalCommand } : State).fault ≠ .none ∧
    ({ idle bothHigh [] [] with fault := .illegalCommand } : State).seq = [] ∧
    ({ idle bothHigh [] [] with fault := .illegalCommand } : State).display.inbox = [] ∧
    ({ idle bothHigh [] [] with fault := .illegalCommand } : State).display.data = [] ∧
    ({ idle bothHigh [] [] with fault := .illegalCommand } : State).NoReset ∧
    ({ idle bothHigh [] [] with port := { words := [], resetLine := [true] } } : State).resetAsserted = true ∧
    isCommand (.reserved 0#19) = true :=
  ⟨⟨_, rfl⟩, by decide, rfl, rfl, rfl, rfl, rfl, rfl⟩

/-- The first digit that is refused and the last that can be encoded. -/
theorem witness_InvalidDigitNeverReachesTheBus :
    State.reset.Accepting ∧ 9 < (10#4).toNat ∧ 9 < (15#4).toNat ∧ ∃ t, exec (.enc 10#4) State.reset = .next t :=
  ⟨⟨rfl, rfl⟩, by decide, by decide, _, rfl⟩

/-- A busy block with the reset line asserted; also for ResetKeepsTheHostsInputs. -/
theorem witness_ResetLeavesTheStatedValues :
    ({ busyWith bothHigh [] [.wait] with port := { words := [], resetLine := [true] } } : State).resetAsserted = true :=
  rfl

theorem witness_IssuedBusCommandsChangeSeqOnly :
    (∃ t, exec (.rel .clk) State.reset = .next t) ∧ (∃ t, exec (.low .dio) State.reset = .next t) ∧
    (∃ t, exec .wait State.reset = .next t) ∧ (∃ t, exec .start State.reset = .next t) ∧
    (∃ t, exec .stop State.reset = .next t) ∧ (∃ t, exec (.wrb 0#8) State.reset = .next t) :=
  ⟨⟨_, rfl⟩, ⟨_, rfl⟩, ⟨_, rfl⟩, ⟨_, rfl⟩, ⟨_, rfl⟩, ⟨_, rfl⟩⟩

theorem witness_EncWritesSegoutOnly :
    (∃ t, exec (.enc 9#4) State.reset = .next t) ∧ (9#4).toNat ≤ 9 ∧ ∃ t, exec (.enc 10#4) State.reset = .next t :=
  ⟨⟨_, rfl⟩, by decide, _, rfl⟩

theorem witness_IssuedShowChangesItsOwnRegistersOnly : ∃ t, exec (.showNum 9999#16) State.reset = .next t := ⟨_, rfl⟩

theorem witness_DigitsRejoinToTheNumber : (9999#16).toNat ≤ 9999 := by decide

theorem witness_WireBytesCompleteInTheObserver :
    (withDisplay { Display.initial with mode := some .autoIncWrite }).display.mode = some .autoIncWrite ∧
    (withDisplay { Display.initial with addr := some 0 }).display.addr = some 0 ∧
    (withDisplay { Display.initial with addr := some 3 }).display.addr = some 3 ∧ 0 < 4 ∧ 3 < 4 := by decide

theorem witness_ObserverRefusesWhatHasNoMeaning :
    (withDisplay Display.initial).display.mode = none ∧ (withDisplay Display.initial).display.addr = none ∧
    (withDisplay { Display.initial with addr := some 4 }).display.addr = some 4 ∧ 4 ≤ 4 := by decide

/-- A command byte, and a pattern byte with an address, with address 4, and with no address. -/
theorem witness_WireBytesLeaveTheBlockAlone :
    isCommand .cmdAddr = false ∧ isCommand (.segData 0#8) = false ∧
    (∃ t, exec .cmdAddr State.reset = .next t) ∧ (∀ p, Instr.cmdAddr ≠ .segData p) ∧
    (∃ t, exec (.segData 0#8) (withDisplay { Display.initial with addr := some 3 }) = .next t) ∧
    (∃ t, exec (.segData 0#8) (withDisplay { Display.initial with addr := some 4 }) = .next t) ∧
    (∃ t, exec (.segData 0#8) (withDisplay Display.initial) = .next t) ∧ (2 : Nat) ≠ 3 :=
  ⟨rfl, rfl, ⟨_, rfl⟩, fun _ h => (nomatch h), ⟨_, rfl⟩, ⟨_, rfl⟩, ⟨_, rfl⟩, by decide⟩

theorem witness_DisplayMemoryReadsWhatWasWritten :
    ({ cells := [(0, 0x0C#8), (3, 0xCC#8)] } : Memory).wf = true ∧ 4 ≤ 4 ∧ 3 < 4 ∧ 0 < 4 := by decide

theorem witness_CanonicalMemoriesThatReadAlikeAreEqual :
    ({ cells := [(1, 0xB6#8)] } : Memory).wf = true ∧
    ∀ a, ({ cells := [(1, 0xB6#8)] } : Memory).read a = ({ cells := [(1, 0xB6#8)] } : Memory).read a :=
  ⟨by decide, fun _ => rfl⟩

theorem witness_ReadingAFrameFollowsTheObserverRule :
    (withDisplay { Display.initial with inbox := [[0xC0#8, 0x0C#8]] }).seq = [] ∧
    (withDisplay { Display.initial with inbox := [[0xC0#8, 0x0C#8]] }).NoReset ∧
    (withDisplay { Display.initial with inbox := [[0xC0#8, 0x0C#8]] }).display.data = [] ∧
    (withDisplay { Display.initial with inbox := [[0xC0#8, 0x0C#8]] }).display.inbox = [[0xC0#8, 0x0C#8]] :=
  ⟨rfl, rfl, rfl, rfl⟩

/-- The state right after reset with a START first at the port. -/
def resetThenStart : State := { State.reset with port := { words := [0x30000#20], resetLine := [] } }

theorem resetThenStart_step : ∃ t, step resetThenStart = .next t := ⟨_, rfl⟩

/-- StepKeepsTheInvariants, and `s.Inv` for NoStepReadsAnUnwrittenRegister. -/
theorem witness_StepKeepsTheInvariants : resetThenStart.Inv ∧ ∃ t, step resetThenStart = .next t :=
  ⟨{ bitCounter := fun _ h => (nomatch h)
     digits0 := fun _ h => (nomatch h)
     digits1 := fun _ h => (nomatch h)
     digits2 := fun _ h => (nomatch h)
     digits3 := fun _ h => (nomatch h)
     faultIdle := fun _ => rfl
     pattern0 := fun _ h => (nomatch h)
     pattern1 := fun _ h => (nomatch h)
     pattern2 := fun _ h => (nomatch h)
     pattern3 := fun _ h => (nomatch h)
     serializer := rfl
     memory := rfl }, resetThenStart_step⟩

theorem witness_StepKeepsTheDecoderInStepWithTheTrace :
    resetThenStart.TraceAgrees ∧ ∃ t, step resetThenStart = .next t := ⟨⟨rfl, rfl⟩, resetThenStart_step⟩

theorem witness_StepKeepsTheObserverInStepWithTheTrace :
    resetThenStart.DisplayAgrees ∧ ∃ t, step resetThenStart = .next t := ⟨rfl, resetThenStart_step⟩

/-- A block in the middle of a byte write. -/
def midByte : State :=
  { busyWith bothLow [true] [.outBit, .wait, .rel .clk, .wait, .shift] with sr := some 0x02#8, bc := some 6#4 }

theorem witness_BusyBlockEndsItsOperation : midByte.Inv ∧ midByte.NoReset ∧ midByte.seq ≠ [] :=
  ⟨{ bitCounter := fun c h => by cases h; decide
     digits0 := fun _ h => (nomatch h)
     digits1 := fun _ h => (nomatch h)
     digits2 := fun _ h => (nomatch h)
     digits3 := fun _ h => (nomatch h)
     faultIdle := fun h => absurd rfl h
     pattern0 := fun _ h => (nomatch h)
     pattern1 := fun _ h => (nomatch h)
     pattern2 := fun _ h => (nomatch h)
     pattern3 := fun _ h => (nomatch h)
     serializer := by decide
     memory := by decide }, rfl, by decide⟩

/-- The slave takes its next choice as a window opens, another inside it, lets go as one closes, and lets go
outside a window with CLK low. -/
theorem witness_SlavePullsOnlyInsideTheWindow :
    (after (step (busyWith bothHigh [true] ackPhase)) (fun t => (t.slave.pull, t.trace)) = some (true, [.low .clk])) ∧
    (busyWith bothHigh [true] ackPhase).slave.pull = false ∧ (busyWith bothHigh [true] ackPhase).slave.window = false ∧
    (busyWith bothHigh [true] ackPhase).resetAsserted = false ∧
    (busyWith bothHigh [true] ackPhase).seq = ackPhase ++ [] ∧
    (busyWith bothHigh [true] ackPhase).slave.moves = true :: [] ∧
    (after (step { busyWith bothLow [] [.wait] with
        slave := { pull := false, window := true, moves := [true], draws := 0 } })
      (fun t => (t.levelClk, t.slave.window, t.slave.pull)) = some (false, true, true)) ∧
    (after (step { busyWith bothHigh [] [.low .clk] with
        slave := { pull := true, window := true, moves := [], draws := 0 } }) (fun t => t.slave.window) = some false) ∧
    (after (step (busyWith bothLow [] [.wait])) (fun t => (t.trace, t.levelClk, t.slave.window)) =
      some ([.wait], false, false)) := by decide

/-- A slave that will acknowledge; for the rest of WrbSendsItsBitsLeastSignificantFirst see
witness_AcceptingNoReset. -/
theorem witness_WrbSendsItsBitsLeastSignificantFirst :
    (idle bothLow [true, true, true] []).Accepting ∧ (idle bothLow [true, true, true] []).NoReset ∧
    (idle bothLow [true, true, true] []).slave.window = false ∧
    (idle bothLow [true, true, true] []).slave.moves = true :: true :: true :: [] := ⟨⟨rfl, rfl⟩, rfl, rfl, rfl⟩

/-- Two states with different slaves and different answers so far. -/
theorem witness_AcknowledgeNeverSteersTheController :
    SlaveBlind { busyWith bothHigh [true] ackPhase with trace := [.sample true], ack := some true }
      { busyWith bothHigh [false] ackPhase with trace := [.sample false], ack := some false } ∧
    ({ busyWith bothHigh [true] ackPhase with trace := [.sample true], ack := some true } : State).busy = true ∧
    ∃ t, step { busyWith bothHigh [true] ackPhase with trace := [.sample true], ack := some true } = .next t :=
  ⟨by constructor <;> rfl, rfl, _, rfl⟩

/-- Inside a frame after a START. -/
def inFrame : State :=
  { idle bothLow [] [] with decoder := { Decoder.initial bothLow with inFrame := true } }

theorem witness_WrbIsDecodedAsItsByte :
    inFrame.Accepting ∧ inFrame.NoReset ∧ inFrame.SlaveQuiet ∧ inFrame.LevelsSeen ∧ inFrame.decoder.inFrame = true ∧
    inFrame.decoder.bits = [] ∧ inFrame.dir.clk = .assertedLow :=
  ⟨⟨rfl, rfl⟩, rfl, ⟨rfl, rfl⟩, ⟨rfl, rfl⟩, rfl, rfl, rfl⟩

/-- Idle from reset with RESET_LINES released, where the decoder agrees with the trace read from lines
that start released; no bytes and two bytes. -/
theorem witness_FramedBytesAreDecodedAsOneFrame :
    (idle bothHigh [] (commandWords [.start, .stop])).Idle ∧
    (idle bothHigh [] (commandWords [.start, .wrb 0x40#8, .wrb 0x01#8, .stop])).Idle ∧
    commandWords [.start, .wrb 0x40#8, .wrb 0x01#8, .stop] =
      commandWords (.start :: [0x40#8, 0x01#8].map .wrb ++ [.stop]) ++ [] :=
  ⟨idle_Idle _ _, idle_Idle _ _, rfl⟩

/-- The premise `s.TraceAgrees` can stand beside `s.Idle`, whichever way the lines were reset. -/
theorem witness_FramedBytes_TraceAgrees :
    ∃ s : State, s.Idle ∧ s.TraceAgrees ∧ s.port.words = commandWords [.start, .stop] ++ [] := by
  refine ⟨{ idle bothHigh [] (commandWords [.start, .stop]) with
    trace := [.rel .dio, .rel .clk], pulls := [false, false] }, idle_Idle [] _, ⟨rfl, ?_⟩, rfl⟩
  show replay (Lines.atReset, Decoder.initial Lines.atReset) [(.rel .dio, false), (.rel .clk, false)] = _
  unfold Lines.atReset
  generalize Config.resetLines = x
  cases x <;> rfl

theorem witness_ShowEmitsThreeFramesAndProgramsTheDisplay :
    (idle bothHigh [] (commandWords [.showNum 1234#16])).Idle ∧
    (idle bothHigh [] (commandWords [.showNum 1234#16])).port.words = commandWords [.showNum 1234#16] ++ [] :=
  ⟨idle_Idle _ _, rfl⟩

/-- Both ways the lines can be reset; with CLK low the slave may hold anything. -/
theorem witness_FirstShowAfterResetProgramsTheDisplay :
    ({ idle bothLow [] (commandWords [.showNum 0#16]) with
      slave := { pull := true, window := false, moves := [], draws := 0 } } : State).JustReset .assertedLow ∧
    (idle bothHigh [] (commandWords [.showNum 65535#16])).JustReset .released :=
  ⟨⟨⟨⟨rfl, rfl⟩, rfl, rfl, rfl⟩, rfl, rfl, .inl rfl, rfl, rfl, rfl⟩,
    ⟨⟨⟨rfl, rfl⟩, rfl, rfl, rfl⟩, rfl, rfl, .inr rfl, rfl, rfl, rfl⟩⟩

/-- From an idle bus, from lines reset low, and after a WRB. -/
theorem witness_DioChangesWhileHighOnlyInStartAndStop :
    (∀ i ∈ [Instr.start, .wrb 0x40#8, .stop], i = .start ∨ i = .stop ∨ ∃ b, i = .wrb b) ∧
    ((idle bothHigh [] []).Accepting ∧ (idle bothHigh [] []).NoReset) ∧
    ((idle bothHigh [] []).dir.clk = .released → (idle bothHigh [] []).dir.dio = .released) ∧
    ((idle bothLow [] []).dir.clk = .released → (idle bothLow [] []).dir.dio = .released) ∧
    ((idle { clk := .assertedLow, dio := .released } [] []).dir.clk = .released →
      (idle { clk := .assertedLow, dio := .released } [] []).dir.dio = .released) :=
  ⟨by simp, ⟨⟨rfl, rfl⟩, rfl⟩, fun _ => rfl, (by decide), fun _ => rfl⟩

/-- V-BUS-8's second START, with a frame open; the longest run of bits; and V-BUS-9, without a frame. -/
theorem witness_FramesOpenAndCloseFromAnyDirections :
    (inFrame.Accepting ∧ inFrame.NoReset ∧ inFrame.SlaveQuiet ∧ inFrame.LevelsSeen) ∧
    inFrame.decoder.inFrame = true ∧ inFrame.decoder.bits.length < 8 ∧ (List.replicate 7 true).length < 8 ∧
    ((idle bothHigh [] []).Accepting ∧ (idle bothHigh [] []).NoReset ∧ (idle bothHigh [] []).SlaveQuiet ∧
      (idle bothHigh [] []).LevelsSeen) ∧ (idle bothHigh [] []).decoder.inFrame = false :=
  ⟨⟨⟨rfl, rfl⟩, rfl, ⟨rfl, rfl⟩, ⟨rfl, rfl⟩⟩, rfl, by decide, by decide,
    ⟨⟨rfl, rfl⟩, rfl, ⟨rfl, rfl⟩, ⟨rfl, rfl⟩⟩, rfl⟩

/-- The state after reset with some values in SR, BC and N; a step of it, and a refusal. -/
theorem witness_UnwrittenRegistersMayHoldAnyValue :
    FillsUnwritten resetThenStart { resetThenStart with sr := some 0xA5#8, bc := some 15#4, n := some 1234#16 } ∧
    (∃ t, step resetThenStart = .next t ∧ t.unwrittenReads = resetThenStart.unwrittenReads) ∧
    step State.reset = .refused .noCommand :=
  ⟨{ sr := fun _ h => (nomatch h)
     bc := fun _ h => (nomatch h)
     ack := fun _ h => h
     n := fun _ h => (nomatch h)
     d := ⟨fun _ h => h, fun _ h => h, fun _ h => h, fun _ h => h⟩
     p := ⟨fun _ h => h, fun _ h => h, fun _ h => h, fun _ h => h⟩
     segout := fun _ h => h
     rest := rfl }, ⟨_, rfl, rfl⟩, rfl⟩

end Sys2Proof.Tests
end

/-! The invariants of 10_state.md R44: what keeps them, operation by operation, then micro-op by micro-op,
instruction by instruction, and for every step. -/

namespace Sys2Proof.Machine

/-! Micro-op lists that the serializer can run (R42: SR and BC are written before they are read). -/

/-- The list runs safely whatever SR and BC hold, `⊥` too. -/
def AlwaysSafe (q : List MicroOp) : Prop := ∀ x, serializerSafe x q = true

theorem alwaysSafe_nil : AlwaysSafe [] := fun _ => rfl

theorem alwaysSafe_startList : AlwaysSafe startList := fun _ => rfl

theorem alwaysSafe_stopList : AlwaysSafe stopList := fun _ => rfl

/-- mLOADSR comes first, and the eight shifts after it count to 8. -/
theorem alwaysSafe_wrbList (b : Byte) : AlwaysSafe (wrbList b) := fun _ => rfl

theorem serializerSafe_append {q : List MicroOp} (hq : AlwaysSafe q) :
    ∀ (p : List MicroOp) (x : Option Nat), serializerSafe x p = true → serializerSafe x (p ++ q) = true := by
  intro p
  induction p with
  | nil => exact fun x _ => hq x
  | cons m rest ih =>
    intro x h
    cases m with
    | outBit =>
      obtain ⟨hx, hrest⟩ := Bool.and_eq_true_iff.mp h
      exact Bool.and_eq_true_iff.mpr ⟨hx, ih x hrest⟩
    | shift =>
      cases x with
      | none => exact h
      | some k =>
        obtain ⟨hk, hrest⟩ := Bool.and_eq_true_iff.mp h
        exact Bool.and_eq_true_iff.mpr ⟨hk, ih _ hrest⟩
    | loadSR b => exact ih (some 0) h
    | rel l => exact ih x h
    | low l => exact ih x h
    | wait => exact ih x h
    | sample => exact ih x h
    | endFrame => exact ih x h

theorem AlwaysSafe.append {p q : List MicroOp} (hp : AlwaysSafe p) (hq : AlwaysSafe q) : AlwaysSafe (p ++ q) :=
  fun x => serializerSafe_append hq p x (hp x)

theorem alwaysSafe_wrbLists (bytes : List Byte) : AlwaysSafe (wrbLists bytes) := by
  induction bytes with
  | nil => exact alwaysSafe_nil
  | cons b rest ih => exact (alwaysSafe_wrbList b).append ih

theorem alwaysSafe_transaction (bytes : List Byte) : AlwaysSafe (transaction bytes) :=
  (alwaysSafe_startList.append (alwaysSafe_wrbLists bytes)).append alwaysSafe_stopList

theorem alwaysSafe_showList (p : Quad Byte) (brightness : BitVec 3) : AlwaysSafe (showList p brightness) :=
  (((alwaysSafe_transaction _).append (alwaysSafe_transaction _)).append (alwaysSafe_transaction _)).append
    fun _ => rfl

theorem State.written_of_loaded {s : State} {k : Nat} (h : s.loaded = some k) :
    ∃ v c, s.sr = some v ∧ s.bc = some c ∧ c.toNat = k := by
  unfold State.loaded at h
  split at h
  · next v c hv hc => exact ⟨v, c, hv, hc, by simpa using h⟩
  · cases h

/-! The observer keeps its memory canonical. -/

theorem Display.ram_addressCommand (v : Display) : v.addressCommand.ram = v.ram := by
  unfold Display.addressCommand
  split <;> rfl

theorem Display.patternByte_wf {v : Display} (p : Byte) (h : v.ram.wf = true) : (v.patternByte p).ram.wf = true := by
  unfold Display.patternByte
  split
  · split
    · next hw => exact Memory.wf_write h hw
    · exact h
  · exact h

/-- Beginning a frame stores nothing. -/
theorem openedDisplay_ram (v : Display) (bytes : List Byte) : (openedDisplay v bytes).ram = v.ram := by
  cases bytes with
  | nil => rfl
  | cons c xs =>
    obtain h | h | ⟨b, h⟩ | h := decodeCommandByte_cases c
    · by_cases hx : xs = [] <;> simp [openedDisplay, h, hx, Display.dataCommand, Display.refuse]
    · simp [openedDisplay, h, Display.ram_addressCommand]
    · by_cases hx : xs = [] <;> simp [openedDisplay, h, hx, Display.controlCommand, Display.refuse]
    · simp [openedDisplay, h, Display.refuse]

/-! What a digit and its pattern are. -/

theorem digitInRange_none : DigitInRange none := fun _ h => nomatch h

theorem digitInRange_digit (i : Fin 10) : DigitInRange (some (digitBits i)) := by
  intro v hv
  obtain rfl : digitBits i = v := Option.some.inj hv
  simp only [digitBits, BitVec.toNat_ofNat]
  omega

theorem patternOf_none (d : Option (BitVec 4)) : PatternOf d none := fun _ h => nomatch h

theorem patternOf_digit (i : Fin 10) : PatternOf (some (digitBits i)) (some (segPattern i)) :=
  fun _ hv => ⟨i, rfl, (Option.some.inj hv).symm⟩

/-! The invariants under the state's operations. -/

namespace State.Inv

variable {s : State}

/-- The invariants speak of SR, BC, D, P, FAULT, SEQ and the display memory only. -/
theorem of_same {t : State} (h : s.Inv) (sr : t.sr = s.sr) (bc : t.bc = s.bc) (d : t.d = s.d) (p : t.p = s.p)
    (fault : t.fault = s.fault) (seq : t.seq = s.seq) (ram : t.display.ram = s.display.ram) : t.Inv where
  bitCounter := bc ▸ h.bitCounter
  digits0 := d ▸ h.digits0
  digits1 := d ▸ h.digits1
  digits2 := d ▸ h.digits2
  digits3 := d ▸ h.digits3
  faultIdle := fault ▸ seq ▸ h.faultIdle
  pattern0 := d ▸ p ▸ h.pattern0
  pattern1 := d ▸ p ▸ h.pattern1
  pattern2 := d ▸ p ▸ h.pattern2
  pattern3 := d ▸ p ▸ h.pattern3
  serializer := by rw [State.loaded, sr, bc, seq]; exact h.serializer
  memory := ram ▸ h.memory

theorem noFault_of_busy {m : MicroOp} {rest : List MicroOp} (h : s.Inv) (hq : s.seq = m :: rest) :
    s.fault = .none := by
  by_contra hf
  cases hq ▸ h.faultIdle hf

/-- An unfaulted block may take any list its serializer can run. -/
theorem setSeq {q : List MicroOp} (h : s.Inv) (hf : s.fault = .none) (hq : serializerSafe s.loaded q = true) :
    (s.setSeq q).Inv :=
  { h with faultIdle := fun hne => absurd hf hne, serializer := hq }

/-- The serializer may be loaded with any byte and any count up to 8 from which SEQ runs on. -/
theorem setSerializer {v : Byte} {c : BitVec 4} {q : List MicroOp} (h : s.Inv) (hf : s.fault = .none)
    (hc : c.toNat ≤ 8) (hq : serializerSafe (some c.toNat) q = true) : ((s.setSeq q).setSerializer v c).Inv :=
  { h with
    bitCounter := fun _ hx => Option.some.inj hx ▸ hc
    faultIdle := fun hne => absurd hf hne
    serializer := hq }

theorem emit (h : s.Inv) (e : Event) : (s.emit e).Inv := h.of_same rfl rfl rfl rfl rfl rfl rfl

theorem setAck (h : s.Inv) (v : Bool) : (s.setAck v).Inv := h.of_same rfl rfl rfl rfl rfl rfl rfl

theorem noteRead (h : s.Inv) (b : Bool) : (s.noteRead b).Inv := h.of_same rfl rfl rfl rfl rfl rfl rfl

theorem releaseLine (h : s.Inv) (l : Line) : (s.releaseLine l).Inv := h.of_same rfl rfl rfl rfl rfl rfl rfl

theorem assertLine (h : s.Inv) (l : Line) : (s.assertLine l).Inv := h.of_same rfl rfl rfl rfl rfl rfl rfl

theorem setPort (h : s.Inv) (v : HostPort) : (s.setPort v).Inv := h.of_same rfl rfl rfl rfl rfl rfl rfl

theorem tick (h : s.Inv) : s.tick.Inv := h.setPort _

theorem setSegout (h : s.Inv) (v : Byte) : (s.setSegout v).Inv := h.of_same rfl rfl rfl rfl rfl rfl rfl

theorem setDisplay {v : Display} (h : s.Inv) (hv : v.ram.wf = true) : (s.setDisplay v).Inv :=
  { h with memory := hv }

theorem raiseFault (h : s.Inv) (kind : FaultKind) : (s.raiseFault kind).Inv :=
  { h with faultIdle := fun _ => rfl, serializer := alwaysSafe_nil _ }

/-- D and P of a SHOW hold the digits of its number and their patterns (43_sequencer.md R106). -/
theorem setFrame (h : s.Inv) (n : BitVec 16) :
    (s.setFrame n ((digits n).map digitBits) ((digits n).map segPattern)).Inv :=
  { h with
    digits0 := digitInRange_digit _
    digits1 := digitInRange_digit _
    digits2 := digitInRange_digit _
    digits3 := digitInRange_digit _
    pattern0 := patternOf_digit _
    pattern1 := patternOf_digit _
    pattern2 := patternOf_digit _
    pattern3 := patternOf_digit _ }

theorem endFrame (h : s.Inv) : s.endFrame.Inv :=
  { h with
    digits0 := digitInRange_none
    digits1 := digitInRange_none
    digits2 := digitInRange_none
    digits3 := digitInRange_none
    pattern0 := patternOf_none _
    pattern1 := patternOf_none _
    pattern2 := patternOf_none _
    pattern3 := patternOf_none _ }

theorem reset : State.reset.Inv where
  bitCounter := fun _ h => nomatch h
  digits0 := digitInRange_none
  digits1 := digitInRange_none
  digits2 := digitInRange_none
  digits3 := digitInRange_none
  faultIdle := fun _ => rfl
  pattern0 := patternOf_none _
  pattern1 := patternOf_none _
  pattern2 := patternOf_none _
  pattern3 := patternOf_none _
  serializer := rfl
  memory := Memory.wf_reset

theorem applyReset (s : State) : s.applyReset.Inv := reset.of_same rfl rfl rfl rfl rfl rfl rfl

/-! What a busy block's serializer holds. -/

theorem written_of_outBit {rest : List MicroOp} (h : s.Inv) (hq : s.seq = .outBit :: rest) :
    (∃ v, s.sr = some v) ∧ serializerSafe s.loaded rest = true := by
  obtain ⟨hl, hsafe⟩ := Bool.and_eq_true_iff.mp (hq ▸ h.serializer)
  obtain ⟨k, hk⟩ := Option.isSome_iff_exists.mp hl
  obtain ⟨v, _, hv, -, -⟩ := written_of_loaded hk
  exact ⟨⟨v, hv⟩, hsafe⟩

theorem written_of_shift {rest : List MicroOp} (h : s.Inv) (hq : s.seq = .shift :: rest) :
    ∃ v c, s.sr = some v ∧ s.bc = some c ∧ c.toNat < 8 ∧ serializerSafe (some (c.toNat + 1)) rest = true := by
  have hs := hq ▸ h.serializer
  cases hl : s.loaded with
  | none => rw [hl] at hs; cases hs
  | some k =>
    rw [hl] at hs
    obtain ⟨hk, hsafe⟩ := Bool.and_eq_true_iff.mp hs
    obtain ⟨v, c, hv, hc, rfl⟩ := written_of_loaded hl
    exact ⟨v, c, hv, hc, of_decide_eq_true hk, hsafe⟩

/-- A micro-op taken from SEQ keeps the invariants. -/
theorem perform {m : MicroOp} {rest : List MicroOp} {t : State} (h : s.Inv) (hq : s.seq = m :: rest)
    (hp : Machine.perform m (s.setSeq rest) = .next t) : t.Inv := by
  have hf := h.noFault_of_busy hq
  have hs : serializerSafe s.loaded (m :: rest) = true := hq ▸ h.serializer
  have keep : serializerSafe s.loaded rest = true → (s.setSeq rest).Inv := h.setSeq hf
  obtain ⟨l, rfl, rfl⟩ | ⟨l, rfl, rfl⟩ | ⟨rfl, rfl⟩ | ⟨rfl, rfl⟩ | ⟨b, rfl, rfl⟩ | ⟨rfl, -, rfl⟩ | ⟨rfl, -, rfl⟩ |
    ⟨rfl, rfl⟩ | ⟨rfl, rfl⟩ := perform_cases hp
  · exact (keep hs).releaseLine l
  · exact (keep hs).assertLine l
  · exact (keep hs).emit .wait
  · exact ((keep hs).setAck _).emit _
  · exact h.setSerializer hf (by decide) hs
  · exact ((keep (h.written_of_outBit hq).2).noteRead _).releaseLine .dio
  · exact ((keep (h.written_of_outBit hq).2).noteRead _).assertLine .dio
  · obtain ⟨v, c, hv, hc, hlt, hsafe⟩ := h.written_of_shift hq
    have hnext : (c + 1#4).toNat = c.toNat + 1 := by bv_omega
    rw [State.readBC_of_some (s := s.setSeq rest) hc]
    exact (h.noteRead _).setSerializer hf (by omega) (hnext ▸ hsafe)
  · exact (keep hs).endFrame

theorem lookUpDigit (h : s.Inv) (hf : s.fault = .none) (d : BitVec 4) : (s.lookUpDigit d).Inv := by
  unfold State.lookUpDigit
  split
  · exact (h.setSegout _).setSeq hf (alwaysSafe_nil _)
  · exact h.raiseFault _

theorem issueShow (h : s.Inv) (hf : s.fault = .none) (n : BitVec 16) : (s.issueShow n).Inv :=
  (h.setFrame n).setSeq hf (alwaysSafe_showList _ _ _)

/-- An instruction keeps the invariants. -/
theorem exec {i : Instr} {t : State} (h : s.Inv) (hx : Machine.exec i s = .next t) : t.Inv := by
  obtain ⟨l, -, ⟨-, hf⟩, rfl⟩ | ⟨l, -, ⟨-, hf⟩, rfl⟩ | ⟨-, ⟨-, hf⟩, rfl⟩ | ⟨-, ⟨-, hf⟩, rfl⟩ | ⟨-, ⟨-, hf⟩, rfl⟩ |
    ⟨b, -, ⟨-, hf⟩, rfl⟩ | ⟨d, -, ⟨-, hf⟩, rfl⟩ | ⟨n, -, ⟨-, hf⟩, rfl⟩ | ⟨low, -, -, rfl⟩ | ⟨-, rfl⟩ |
    ⟨-, rfl⟩ | ⟨b, -, rfl⟩ | ⟨p, -, rfl⟩ := exec_cases hx
  · exact h.setSeq hf rfl
  · exact h.setSeq hf rfl
  · exact h.setSeq hf rfl
  · exact h.setSeq hf (alwaysSafe_startList _)
  · exact h.setSeq hf (alwaysSafe_stopList _)
  · exact h.setSeq hf (alwaysSafe_wrbList b _)
  · exact h.lookUpDigit hf d
  · exact h.issueShow hf n
  · exact h.raiseFault _
  · exact h.setDisplay h.memory
  · exact h.setDisplay (s.display.ram_addressCommand ▸ h.memory)
  · exact h.setDisplay h.memory
  · exact h.setDisplay (Display.patternByte_wf p h.memory)

theorem acceptWord {w : CommandWord} {t : State} (h : s.Inv) (hw : Machine.acceptWord w s = .next t) : t.Inv := by
  obtain ⟨i, -, -, hx⟩ | ⟨r, -, -, rfl⟩ := acceptWord_cases hw
  · exact h.exec hx
  · exact h.raiseFault _

theorem step {t : State} (h : s.Inv) (hs : Machine.step s = .next t) : t.Inv := by
  obtain ⟨-, rfl⟩ | ⟨-, m, rest, hq, hp⟩ | ⟨-, -, x, xs, -, rfl⟩ | ⟨-, -, -, f, fs, -, rfl⟩ |
    ⟨-, -, -, -, -, -, rfl⟩ | ⟨-, w, rest, -, hw⟩ := step_cases hs
  · exact applyReset s
  · exact h.tick.perform hq hp
  · exact h.tick.setDisplay (Display.patternByte_wf x h.memory)
  · exact h.tick.setDisplay (openedDisplay_ram { s.display with inbox := fs } f ▸ h.memory)
  · exact h.tick
  · exact (h.tick.setPort _).acceptWord hw

end State.Inv

end Sys2Proof.Machine

/-! No read of `⊥` from the invariants, and every operation ends. -/

namespace Sys2Proof.Machine

/-- An instruction reads neither SR nor BC. -/
theorem exec_unwrittenReads {i : Instr} {s t : State} (h : exec i s = .next t) :
    t.unwrittenReads = s.unwrittenReads := by
  obtain ⟨l, -, -, rfl⟩ | ⟨l, -, -, rfl⟩ | ⟨-, -, rfl⟩ | ⟨-, -, rfl⟩ | ⟨-, -, rfl⟩ | ⟨b, -, -, rfl⟩ |
    ⟨d, -, -, rfl⟩ | ⟨n, -, -, rfl⟩ | ⟨low, -, -, rfl⟩ | ⟨-, rfl⟩ | ⟨-, rfl⟩ | ⟨b, -, rfl⟩ | ⟨p, -, rfl⟩ :=
    exec_cases h
  case inr.inr.inr.inr.inr.inr.inl => unfold State.lookUpDigit; split <;> rfl
  all_goals rfl

theorem acceptWord_unwrittenReads {w : CommandWord} {s t : State} (h : acceptWord w s = .next t) :
    t.unwrittenReads = s.unwrittenReads := by
  obtain ⟨i, -, -, hx⟩ | ⟨r, -, -, rfl⟩ := acceptWord_cases h
  · exact exec_unwrittenReads hx
  · rfl

/-- Only the micro-ops read SR and BC, and the invariants let them read written ones only. -/
theorem State.Inv.step_unwrittenReads {s t : State} (h : s.Inv) (hs : Machine.step s = .next t) :
    t.unwrittenReads = s.unwrittenReads := by
  obtain ⟨-, rfl⟩ | ⟨-, m, rest, hq, hp⟩ | ⟨-, -, x, xs, -, rfl⟩ | ⟨-, -, -, f, fs, -, rfl⟩ |
    ⟨-, -, -, -, -, -, rfl⟩ | ⟨-, w, rest, -, hw⟩ := step_cases hs
  case inr.inl =>
    refine perform_unwrittenReads (s := s.tick.setSeq rest) hp ?_ ?_
    · rintro rfl
      obtain ⟨⟨v, hv⟩, -⟩ := h.written_of_outBit hq
      simp [hv]
    · rintro rfl
      obtain ⟨v, c, hv, hc, -, -⟩ := h.written_of_shift hq
      simp [hv, hc]
  case inr.inr.inr.inr.inr => simpa using acceptWord_unwrittenReads hw
  all_goals rfl

/-- With no reset to come, a block runs its SEQ to the end, one micro-op a step, and keeps FAULT and the port. -/
theorem run_seq_to_end (q : List MicroOp) : ∀ s : State, s.NoReset → s.seq = q →
    ∃ t, run q.length s = .next t ∧ t.seq = [] ∧ t.fault = s.fault ∧ t.port = s.port := by
  induction q with
  | nil => exact fun s _ hq => ⟨s, rfl, hq, rfl, rfl⟩
  | cons m rest ih =>
    intro s hr hq
    obtain ⟨u, hu⟩ := perform_total m (s.setSeq rest)
    obtain ⟨useq, ufault, -, -, uport⟩ := perform_keeps hu
    have hur : u.NoReset := by rw [State.NoReset, uport]; exact hr
    obtain ⟨t, ht, tseq, tfault, tport⟩ := ih u hur useq
    exact ⟨t, (run_of_seq _ hr hq hu).trans ht, tseq, tfault.trans ufault, tport.trans uport⟩

end Sys2Proof.Machine

/-! What the step does, agent by agent, as equations. -/

namespace Sys2Proof.Machine

theorem step_of_reset {s : State} (hr : s.resetAsserted = true) : step s = .next s.applyReset := by
  simp [step, nextStep, hr]

theorem step_of_busy {s : State} {m : MicroOp} {rest : List MicroOp} (hr : s.resetAsserted = false)
    (hq : s.seq = m :: rest) : step s = perform m (s.tick.setSeq rest) := by
  simp [step, nextStep, hr, State.busy, hq, controllerStep]

theorem step_of_hasWork {s : State} (hr : s.resetAsserted = false) (hq : s.seq = [])
    (hw : s.display.hasWork = true) : step s = observerStep s.tick := by
  simp [step, nextStep, hr, State.busy, hq, hw]

theorem step_of_idle {s : State} (hr : s.resetAsserted = false) (hq : s.seq = [])
    (hw : s.display.hasWork = false) : step s = hostStep s := by
  simp [step, nextStep, hr, State.busy, hq, hw]

theorem State.HostTurn.accepting {s : State} (h : s.HostTurn) : s.Accepting := h.1

theorem step_of_hostTurn {s : State} (h : s.HostTurn) : step s = hostStep s := by
  obtain ⟨⟨hq, -⟩, hi, hd, hr⟩ := h
  exact step_of_idle hr hq (by simp [Display.hasWork, hi, hd])

theorem step_of_word {s : State} {w : CommandWord} {rest : List CommandWord} (h : s.HostTurn)
    (hw : s.port.words = w :: rest) :
    step s = acceptWord w (s.tick.setPort { s.tick.port with words := rest }) := by
  obtain ⟨-, hf⟩ := h.accepting
  simp [step_of_hostTurn h, hostStep, hf, hw]

theorem acceptWord_of_instr {w : CommandWord} {i : Instr} (h : decode (.word w) = .instr i) (s : State) :
    acceptWord w s = exec i s := by
  simp [acceptWord, h]

theorem acceptWord_of_rejected {w : CommandWord} {r : Reject} {s : State} (h : decode (.word w) = .rejected r)
    (ha : s.Accepting) : acceptWord w s = .next { s with fault := .illegalCommand, seq := [] } := by
  simp [acceptWord, h, rejectWord, accept_of_accepting _ ha, State.raiseFault, ha.2]

theorem observerStep_of_data {s : State} {x : Byte} {xs : List Byte} (hd : s.display.data = x :: xs) :
    observerStep s = exec (.segData x) (s.setDisplay { s.display with data := xs }) := by
  simp [observerStep, hd, decode]

theorem observerStep_of_frame {s : State} {f : List Byte} {fs : List (List Byte)} (hd : s.display.data = [])
    (hi : s.display.inbox = f :: fs) :
    observerStep s = openFrame f (s.setDisplay { s.display with inbox := fs }) := by
  simp [observerStep, hd, hi]

theorem observerStep_of_nothing {s : State} (hd : s.display.data = []) (hi : s.display.inbox = []) :
    observerStep s = .next s := by
  simp [observerStep, hd, hi]

/-- A frame of one command byte is that command, read by an observer that is inside no frame. -/
theorem openFrame_single {s : State} {c : Byte} {i : Instr} (h : decode (.commandByte c) = .instr i)
    (hd : s.display.data = []) : openFrame [c] s = exec i s := by
  have hdata : dataAfterAddress s.display [] = s.display.data := by simp [dataAfterAddress, hd]
  by_cases hi : i = .cmdAddr
  · subst hi
    simp [openFrame, h, hdata, State.setDisplay]
  · simp [openFrame, h]

/-! The interface that places an instruction (entry 20). -/

theorem decode_of_decodeTableWord {w : Nat} {i : Instr} (h : decodeTableWord 20 w = some i) :
    decode (.word (BitVec.ofNat 20 w)) = .instr i := by
  have hd : (decode (.word (BitVec.ofNat 20 w))).instr? = some i := by
    simp only [decodeTableWord, show ¬ 20 ≤ 8 by decide, if_false] at h
    split at h
    · exact h
    · cases h
  cases hx : decode (.word (BitVec.ofNat 20 w)) with
  | instr j => rw [hx] at hd; exact congrArg _ (Option.some.inj hd)
  | rejected r => rw [hx] at hd; cases hd

theorem withWord_hostTurn (s : State) (w : CommandWord) : (s.withWord w).HostTurn :=
  ⟨⟨rfl, rfl⟩, rfl, rfl, rfl⟩

theorem withWireByte_of_command {b : Byte} {i : Instr} (h : decode (.commandByte b) = .instr i) (s : State) :
    s.withWireByte b = { s with
      seq := []
      display := { s.display with inbox := [[b]], data := [] }
      port := { s.port with resetLine := [] } } := by
  simp [State.withWireByte, h]

theorem withWireByte_of_pattern {b : Byte} {r : Reject} (h : decode (.commandByte b) = .rejected r) (s : State) :
    s.withWireByte b = { s with
      seq := []
      display :=
        { s.display with mode := some .autoIncWrite, addr := some s.display.dataAddress, data := [b] }
      port := { s.port with resetLine := [] } } := by
  simp [State.withWireByte, h]

/-! What the bus micro-ops leave, micro-ops that read `⊥`, and the commands' refusals. -/

theorem sameRegisters_emit (s : State) (e : Event) : SameRegisters s (s.emit e) :=
  ⟨rfl, rfl, rfl, rfl, rfl, rfl, rfl, rfl⟩

theorem sameRegisters_releaseLine (s : State) (l : Line) : SameRegisters s (s.releaseLine l) :=
  ⟨rfl, rfl, rfl, rfl, rfl, rfl, rfl, rfl⟩

theorem sameRegisters_assertLine (s : State) (l : Line) : SameRegisters s (s.assertLine l) :=
  ⟨rfl, rfl, rfl, rfl, rfl, rfl, rfl, rfl⟩

theorem outBit_of_none {s : State} (h : s.sr = none) :
    s.outBit = if s.readSR.getLsbD 0 then (s.noteRead true).releaseLine .dio
      else (s.noteRead true).assertLine .dio := by
  simp only [State.outBit, h, Option.isNone_none]

theorem shift_of_unwritten {s : State} (h : s.sr = none ∨ s.bc = none) :
    s.shift = (s.noteRead true).setSerializer (s.readSR >>> 1) (s.readBC + 1#4) := by
  have hnote : (s.sr.isNone || s.bc.isNone) = true := by simpa using h
  rw [State.shift, hnote]

/-- The meaning of a command is an acceptance of some effect. -/
theorem exec_command {i : Instr} (h : isCommand i = true) : ∃ f, exec i = accept f := by
  cases i with
  | rel l => exact ⟨_, rfl⟩
  | low l => exact ⟨_, rfl⟩
  | wait => exact ⟨_, rfl⟩
  | start => exact ⟨_, rfl⟩
  | stop => exact ⟨_, rfl⟩
  | wrb b => exact ⟨_, rfl⟩
  | enc d => exact ⟨_, rfl⟩
  | showNum n => exact ⟨_, rfl⟩
  | reserved low => exact ⟨_, rfl⟩
  | cmdData => cases h
  | cmdAddr => cases h
  | cmdDisp b => cases h
  | segData p => cases h

theorem Dir.oe_iff (x : Dir) : Dir.oe x = true ↔ x = .assertedLow := by
  cases x <;> decide

end Sys2Proof.Machine

/-! A register at `⊥` may hold any value (93_implementation_defined.md U13): every operation takes a state and
one that fills its unwritten registers to two such states again, unless it reads one of them. -/

namespace Sys2Proof.Machine

theorem Fills.refl {α : Type} (x : Option α) : Fills x x := fun _ h => h

theorem QuadFills.refl {α : Type} (x : Quad (Option α)) : QuadFills x x :=
  ⟨Fills.refl _, Fills.refl _, Fills.refl _, Fills.refl _⟩

namespace FillsUnwritten

variable {s u : State}

/-! The two states agree on everything but the registers. -/

theorem seq_eq (h : FillsUnwritten s u) : u.seq = s.seq := (congrArg State.seq h.rest :)

theorem fault_eq (h : FillsUnwritten s u) : u.fault = s.fault := (congrArg State.fault h.rest :)

theorem display_eq (h : FillsUnwritten s u) : u.display = s.display := (congrArg State.display h.rest :)

theorem port_eq (h : FillsUnwritten s u) : u.port = s.port := (congrArg State.port h.rest :)

theorem busy_eq (h : FillsUnwritten s u) : u.busy = s.busy := (congrArg State.busy h.rest :)

theorem resetAsserted_eq (h : FillsUnwritten s u) : u.resetAsserted = s.resetAsserted :=
  (congrArg State.resetAsserted h.rest :)

theorem levelDio_eq (h : FillsUnwritten s u) : u.levelDio = s.levelDio := (congrArg State.levelDio h.rest :)

/-! The operations. -/

theorem setSeq (h : FillsUnwritten s u) (q : List MicroOp) : FillsUnwritten (s.setSeq q) (u.setSeq q) :=
  { h with rest := congrArg (State.setSeq · q) h.rest }

theorem setDisplay (h : FillsUnwritten s u) (v : Display) : FillsUnwritten (s.setDisplay v) (u.setDisplay v) :=
  { h with rest := congrArg (State.setDisplay · v) h.rest }

theorem setPort (h : FillsUnwritten s u) (v : HostPort) : FillsUnwritten (s.setPort v) (u.setPort v) :=
  { h with rest := congrArg (State.setPort · v) h.rest }

theorem tick (h : FillsUnwritten s u) : FillsUnwritten s.tick u.tick :=
  { h with rest := congrArg State.tick h.rest }

theorem raiseFault (h : FillsUnwritten s u) (kind : FaultKind) :
    FillsUnwritten (s.raiseFault kind) (u.raiseFault kind) :=
  { h with rest := congrArg (State.raiseFault · kind) h.rest }

theorem emit (h : FillsUnwritten s u) (e : Event) : FillsUnwritten (s.emit e) (u.emit e) :=
  { h with rest := congrArg (State.emit · e) h.rest }

theorem releaseLine (h : FillsUnwritten s u) (l : Line) : FillsUnwritten (s.releaseLine l) (u.releaseLine l) :=
  { h with rest := congrArg (State.releaseLine · l) h.rest }

theorem assertLine (h : FillsUnwritten s u) (l : Line) : FillsUnwritten (s.assertLine l) (u.assertLine l) :=
  { h with rest := congrArg (State.assertLine · l) h.rest }

theorem setAck (h : FillsUnwritten s u) (v : Bool) : FillsUnwritten (s.setAck v) (u.setAck v) :=
  { h with ack := Fills.refl _, rest := congrArg (State.setAck · v) h.rest }

theorem sampleAck (h : FillsUnwritten s u) : FillsUnwritten s.sampleAck u.sampleAck := by
  rw [State.sampleAck, State.sampleAck, h.levelDio_eq]
  exact (h.setAck _).emit _

theorem setSerializer (h : FillsUnwritten s u) (v : Byte) (c : BitVec 4) :
    FillsUnwritten (s.setSerializer v c) (u.setSerializer v c) :=
  { h with sr := Fills.refl _, bc := Fills.refl _, rest := congrArg (State.setSerializer · v c) h.rest }

theorem setSegout (h : FillsUnwritten s u) (v : Byte) : FillsUnwritten (s.setSegout v) (u.setSegout v) :=
  { h with segout := Fills.refl _, rest := congrArg (State.setSegout · v) h.rest }

theorem setFrame (h : FillsUnwritten s u) (n : BitVec 16) (d : Quad (BitVec 4)) (p : Quad Byte) :
    FillsUnwritten (s.setFrame n d p) (u.setFrame n d p) :=
  { h with
    n := Fills.refl _
    d := QuadFills.refl _
    p := QuadFills.refl _
    rest := congrArg (State.setFrame · n d p) h.rest }

theorem endFrame (h : FillsUnwritten s u) : FillsUnwritten s.endFrame u.endFrame :=
  { h with d := QuadFills.refl _, p := QuadFills.refl _, rest := congrArg State.endFrame h.rest }

theorem applyReset (h : FillsUnwritten s u) : FillsUnwritten s.applyReset u.applyReset where
  sr := Fills.refl _
  bc := Fills.refl _
  ack := Fills.refl _
  n := Fills.refl _
  d := QuadFills.refl _
  p := QuadFills.refl _
  segout := Fills.refl _
  rest := (congrArg State.applyReset h.rest :)

theorem lookUpDigit (h : FillsUnwritten s u) (d : BitVec 4) : FillsUnwritten (s.lookUpDigit d) (u.lookUpDigit d) := by
  unfold State.lookUpDigit
  split
  · exact (h.setSegout _).setSeq []
  · exact h.raiseFault _

theorem issueShow (h : FillsUnwritten s u) (n : BitVec 16) : FillsUnwritten (s.issueShow n) (u.issueShow n) :=
  (h.setFrame n _ _).setSeq _

end FillsUnwritten

/-! A micro-op that counts no read of `⊥` has found its registers written. -/

theorem sr_of_outBit_unwrittenReads {s : State} (h : s.outBit.unwrittenReads = s.unwrittenReads) :
    ∃ v, s.sr = some v := by
  cases hs : s.sr with
  | some v => exact ⟨v, rfl⟩
  | none =>
    have hcount : s.outBit.unwrittenReads = s.unwrittenReads + 1 := by
      rw [outBit_of_none hs]
      split <;> rfl
    omega

theorem written_of_shift_unwrittenReads {s : State} (h : s.shift.unwrittenReads = s.unwrittenReads) :
    ∃ v c, s.sr = some v ∧ s.bc = some c := by
  by_cases hs : s.sr = none ∨ s.bc = none
  · have hcount : s.shift.unwrittenReads = s.unwrittenReads + 1 := by rw [shift_of_unwritten hs]; rfl
    omega
  · obtain ⟨hsr, hbc⟩ := not_or.mp hs
    obtain ⟨v, hv⟩ := Option.ne_none_iff_exists'.mp hsr
    obtain ⟨c, hc⟩ := Option.ne_none_iff_exists'.mp hbc
    exact ⟨v, c, hv, hc⟩

/-- Two outcomes of the same kind, with next states as `FillsUnwritten` has them or the same refusal. -/
inductive OutcomeFills : Result → Result → Prop where
  | next {t v : State} (h : FillsUnwritten t v) : OutcomeFills (.next t) (.next v)
  | refused (r : Refusal) : OutcomeFills (.refused r) (.refused r)

theorem OutcomeFills.of_next {t : State} {x : Result} (h : OutcomeFills (.next t) x) :
    ∃ v, x = .next v ∧ FillsUnwritten t v := by
  cases h with
  | next hv => exact ⟨_, rfl, hv⟩

theorem OutcomeFills.of_refused {r : Refusal} {x : Result} (h : OutcomeFills (.refused r) x) : x = .refused r := by
  cases h
  rfl

namespace FillsUnwritten

variable {s u : State}

theorem accept {f : State → State} (h : FillsUnwritten s u) (hf : FillsUnwritten (f s) (f u)) :
    OutcomeFills (accept f s) (accept f u) := by
  unfold Machine.accept
  rw [h.busy_eq, h.fault_eq]
  split
  · exact .refused _
  · split
    · exact .refused _
    · exact .next hf

theorem issue (h : FillsUnwritten s u) (q : List MicroOp) : OutcomeFills (issue q s) (issue q u) :=
  h.accept (f := (·.setSeq q)) (h.setSeq q)

/-- No instruction reads a register. -/
theorem exec (h : FillsUnwritten s u) (i : Instr) : OutcomeFills (exec i s) (exec i u) := by
  cases i with
  | rel l => exact h.issue _
  | low l => exact h.issue _
  | wait => exact h.issue _
  | start => exact h.issue _
  | stop => exact h.issue _
  | wrb b => exact h.issue _
  | enc d => exact h.accept (f := (·.lookUpDigit d)) (h.lookUpDigit d)
  | showNum n => exact h.accept (f := (·.issueShow n)) (h.issueShow n)
  | reserved low => exact h.accept (f := (·.raiseFault .illegalCommand)) (h.raiseFault _)
  | cmdData => rw [exec_cmdData, exec_cmdData, h.display_eq]; exact .next (h.setDisplay _)
  | cmdAddr => rw [exec_cmdAddr, exec_cmdAddr, h.display_eq]; exact .next (h.setDisplay _)
  | cmdDisp b => rw [exec_cmdDisp, exec_cmdDisp, h.display_eq]; exact .next (h.setDisplay _)
  | segData p => rw [exec_segData, exec_segData, h.display_eq]; exact .next (h.setDisplay _)

theorem acceptWord (h : FillsUnwritten s u) (w : CommandWord) : OutcomeFills (acceptWord w s) (acceptWord w u) := by
  unfold Machine.acceptWord
  split
  · exact h.exec _
  · exact h.accept (h.raiseFault _)

theorem outBit {v : Byte} (h : FillsUnwritten s u) (hv : s.sr = some v) : FillsUnwritten s.outBit u.outBit := by
  rw [State.outBit_of_some hv, State.outBit_of_some (h.sr v hv)]
  split
  · exact h.releaseLine .dio
  · exact h.assertLine .dio

theorem shift {v : Byte} {c : BitVec 4} (h : FillsUnwritten s u) (hv : s.sr = some v) (hc : s.bc = some c) :
    FillsUnwritten s.shift u.shift := by
  rw [State.shift_of_some hv hc, State.shift_of_some (h.sr v hv) (h.bc c hc)]
  exact h.setSerializer _ _

/-- A micro-op that counts no read of `⊥` reads the same in both states. -/
theorem perform (h : FillsUnwritten s u) (m : MicroOp)
    (hn : ∀ t, Machine.perform m s = .next t → t.unwrittenReads = s.unwrittenReads) :
    OutcomeFills (perform m s) (perform m u) := by
  cases m with
  | rel l => exact .next (h.releaseLine l)
  | low l => exact .next (h.assertLine l)
  | wait => exact .next (h.emit .wait)
  | sample => exact .next h.sampleAck
  | loadSR b => exact .next (h.setSerializer b 0#4)
  | outBit =>
    obtain ⟨v, hv⟩ := sr_of_outBit_unwrittenReads (hn _ rfl)
    exact .next (h.outBit hv)
  | shift =>
    obtain ⟨v, c, hv, hc⟩ := written_of_shift_unwrittenReads (hn _ rfl)
    exact .next (h.shift hv hc)
  | endFrame => exact .next h.endFrame

theorem observerStep (h : FillsUnwritten s u) : OutcomeFills (observerStep s) (observerStep u) := by
  cases hd : s.display.data with
  | cons x xs =>
    rw [observerStep_of_data hd, observerStep_of_data (h.display_eq.symm ▸ hd), h.display_eq]
    exact (h.setDisplay _).exec _
  | nil =>
    cases hi : s.display.inbox with
    | cons f fs =>
      rw [observerStep_of_frame hd hi, observerStep_of_frame (h.display_eq.symm ▸ hd) (h.display_eq.symm ▸ hi),
        h.display_eq, openFrame_next, openFrame_next]
      exact .next ((h.setDisplay _).setDisplay _)
    | nil =>
      rw [observerStep_of_nothing hd hi, observerStep_of_nothing (h.display_eq.symm ▸ hd) (h.display_eq.symm ▸ hi)]
      exact .next h

theorem waiting (h : FillsUnwritten s u) (r : Refusal) : OutcomeFills (waiting r s) (waiting r u) := by
  unfold Machine.waiting
  rw [h.port_eq]
  split
  · exact .refused r
  · exact .next h.tick

theorem hostStep (h : FillsUnwritten s u) : OutcomeFills (hostStep s) (hostStep u) := by
  unfold Machine.hostStep
  rw [h.fault_eq, h.port_eq, h.tick.port_eq]
  split
  · exact h.waiting _
  · split
    · exact h.waiting _
    · exact (h.tick.setPort _).acceptWord _

/-- A step that counts no read of `⊥` has the same outcome whatever the unwritten registers hold. -/
theorem step (h : FillsUnwritten s u) (hn : ∀ t, Machine.step s = .next t → t.unwrittenReads = s.unwrittenReads) :
    OutcomeFills (step s) (step u) := by
  cases hr : s.resetAsserted with
  | true =>
    rw [step_of_reset hr, step_of_reset (h.resetAsserted_eq.trans hr)]
    exact .next h.applyReset
  | false =>
    have hr' := h.resetAsserted_eq.trans hr
    cases hq : s.seq with
    | cons m rest =>
      rw [step_of_busy hr hq] at hn ⊢
      rw [step_of_busy hr' (h.seq_eq.trans hq)]
      exact (h.tick.setSeq rest).perform m hn
    | nil =>
      have hq' := h.seq_eq.trans hq
      cases hw : s.display.hasWork with
      | true =>
        rw [step_of_hasWork hr hq hw, step_of_hasWork hr' hq' (h.display_eq.symm ▸ hw)]
        exact h.tick.observerStep
      | false =>
        rw [step_of_idle hr hq hw, step_of_idle hr' hq' (h.display_eq.symm ▸ hw)]
        exact h.hostStep

end FillsUnwritten

end Sys2Proof.Machine

/-! The statements. -/

section

open Sys2Proof Sys2Proof.Machine

/-- Settles O36: each case of `step_cases` keeps the invariants. -/
theorem stepKeepsTheInvariants : Obligations.StepKeepsTheInvariants :=
  fun _ _ h hs => h.step hs

/-- Settles O39: a micro-op that reads SR or BC finds them written, by `serializerSafe`. -/
theorem noStepReadsAnUnwrittenRegister : Obligations.NoStepReadsAnUnwrittenRegister :=
  fun _ _ h hs => h.step_unwrittenReads hs

/-- Settles O41, by induction on SEQ. -/
theorem busyBlockEndsItsOperation : Obligations.BusyBlockEndsItsOperation := by
  intro s hr
  obtain ⟨t, ht, tseq, tfault, tport⟩ := run_seq_to_end s.seq s hr rfl
  exact ⟨t, ht, by simp [State.busy, tseq], tfault, tport⟩

/-- Settles O40, by `FillsUnwritten.step`; a refused step counts no read. -/
theorem unwrittenRegistersMayHoldAnyValue : Obligations.UnwrittenRegistersMayHoldAnyValue := by
  intro s u h
  refine ⟨fun t ht hn => ?_, fun r hr => ?_⟩
  · exact (ht ▸ h.step fun t' ht' => Host.Outcome.next.inj (ht.symm.trans ht') ▸ hn).of_next
  · exact (hr ▸ h.step fun t ht => nomatch hr.symm.trans ht).of_refused

/-- Settles O7, by `step_of_word` and the decoder's two answers. -/
theorem stepRunsTheDecodedWord : Obligations.StepRunsTheDecodedWord := by
  intro s w rest h hw
  obtain ⟨hq, hf⟩ := h.accepting
  exact ⟨fun i hi => (step_of_word h hw).trans (acceptWord_of_instr hi _),
    fun x hx => (step_of_word h hw).trans (acceptWord_of_rejected hx ⟨hq, hf⟩)⟩

/-- Settles O9: each placing makes it the turn of the agent that reads the instruction. -/
theorem placedInstructionRunsNext : Obligations.PlacedInstructionRunsNext := by
  refine ⟨fun s w i h => ?_, fun s w i h => ?_, fun s w x h => ?_⟩
  · have hstep := step_of_word (withWord_hostTurn s (BitVec.ofNat 20 w)) rfl
    rw [acceptWord_of_instr (decode_of_decodeTableWord h)] at hstep
    exact hstep
  · rw [show s.withFetchWord 8 w = s.withWireByte (BitVec.ofNat 8 w) from rfl, withWireByte_of_command h,
      step_of_hasWork rfl rfl rfl, observerStep_of_frame rfl rfl, openFrame_single h rfl]
    rfl
  · rw [show s.withFetchWord 8 w = s.withWireByte (BitVec.ofNat 8 w) from rfl, withWireByte_of_pattern h,
      step_of_hasWork rfl rfl rfl, observerStep_of_data rfl]
    rfl

/-- Settles O10, by `step_of_busy`; the frame is `perform_keeps`. -/
theorem stepPerformsTheHeadOfSeq : Obligations.StepPerformsTheHeadOfSeq := by
  intro s m rest hr hq
  refine ⟨step_of_busy hr hq, fun t ht => ?_⟩
  obtain ⟨tseq, tfault, -, -, tport⟩ := perform_keeps ((step_of_busy hr hq).symm.trans ht)
  exact ⟨tseq, by rw [tport]; rfl, tfault⟩

/-- Settles O11, row by row of 10_state.md R28. -/
theorem microOpsDoWhatTheTableSays : Obligations.MicroOpsDoWhatTheTableSays := by
  refine ⟨fun s l => ⟨_, rfl, ?_⟩, fun s l => ⟨_, rfl, ?_⟩, fun s => ⟨_, rfl, ?_⟩, fun s => ⟨_, rfl, ?_⟩,
    fun s b => rfl, fun s v hv hb => ?_, fun s v hv hb => ?_, fun s v c hv hc => ?_, fun s hs => ?_,
    fun s hs => ?_, fun s => rfl⟩
  · exact ⟨Lines.get_set_self _ l _, fun k hk => Lines.get_set_other _ _ hk, rfl, sameRegisters_releaseLine s l⟩
  · exact ⟨Lines.get_set_self _ l _, fun k hk => Lines.get_set_other _ _ hk, rfl, sameRegisters_assertLine s l⟩
  · exact ⟨rfl, rfl, sameRegisters_emit s .wait⟩
  · exact ⟨rfl, rfl, rfl, sameRegisters_emit s (.sample s.levelDio)⟩
  · exact congrArg _ ((State.outBit_of_some hv).trans (if_pos hb))
  · exact congrArg _ ((State.outBit_of_some hv).trans (if_neg (hb ▸ Bool.false_ne_true)))
  · exact congrArg _ (State.shift_of_some hv hc)
  · refine ⟨s.readSR.getLsbD 0, ?_⟩
    rw [perform, outBit_of_none hs]
    split <;> rfl
  · refine ⟨s.readSR, s.readBC, fun x hx => State.readSR_of_some hx, fun x hx => State.readBC_of_some hx, ?_⟩
    rw [perform, shift_of_unwritten hs]
    rfl

/-- Settles O12: every command's meaning goes through `accept`. -/
theorem commandsAreRefusedWhileBusyOrFaulted : Obligations.CommandsAreRefusedWhileBusyOrFaulted := by
  intro i s hi
  obtain ⟨f, hf⟩ := exec_command hi
  rw [hf]
  exact ⟨accept_busy f, accept_faulted f, fun t ht => (accept_next ht).1⟩

/-- Settles O13: it is the host's turn, and the host presents nothing. -/
theorem idleBlockWaitsForACommand : Obligations.IdleBlockWaitsForACommand := by
  intro s h hr hw
  obtain ⟨-, hf⟩ := h.accepting
  simp [step_of_hostTurn h, hostStep, hf, hw, waiting, show s.port.resetLine = [] from hr]

/-- Settles O38: at reset the registers hold `⊥`, and TRACE and the observer are empty. -/
theorem resetMeetsTheInvariants : Obligations.ResetMeetsTheInvariants :=
  ⟨State.Inv.reset, ⟨rfl, rfl⟩, rfl⟩

/-- Settles O43: the outputs are projections of the registers. -/
theorem outputsFollowTheRegisters : Obligations.OutputsFollowTheRegisters :=
  fun s => ⟨by simp [State.hostStatus, State.busy], rfl, rfl, Dir.oe_iff _, Dir.oe_iff _, rfl, rfl⟩

end

/-! What a micro-op and a step do to the bus: an event, said field by field, or nothing. -/

namespace Sys2Proof.Machine

/-- The acknowledge window after an event: only a `Low` can open or close it (entry 8). The micro-op has
already left SEQ. -/
def State.windowAfter (s : State) : Event → Bool
  | .rel _ => s.slave.window
  | .low l => s.windowAtLow l
  | .wait => s.slave.window
  | .sample _ => s.slave.window

/-- `t` is `s` after the event `e`: the line write, the slave's move, and what the decoder sees and the
observer receives (10_state.md R38, 20_memory.md R54, R55). -/
structure AfterEvent (s t : State) (e : Event) : Prop where
  dir : t.dir = s.dir.afterEvent e
  trace : t.trace = s.trace ++ [e]
  pulls : t.pulls = s.pulls ++ [t.slave.pull]
  slave : t.slave = ({ s.slave with window := s.windowAfter e } : Slave).react t.levelClk
  decoder : t.decoder = s.decoder.observe t.levelClk t.levelDio
  display : t.display = s.display.receive (s.decoder.completed (s.decoder.condition t.levelClk t.levelDio))

/-- An emission after the line write `dir` and the window's move is the whole event. -/
theorem afterEvent_emit {s u : State} {e : Event} (hdir : u.dir = s.dir.afterEvent e)
    (hslave : u.slave = { s.slave with window := s.windowAfter e }) (htrace : u.trace = s.trace)
    (hpulls : u.pulls = s.pulls) (hdecoder : u.decoder = s.decoder) (hdisplay : u.display = s.display) :
    AfterEvent s (u.emit e) e where
  dir := hdir
  trace := htrace ▸ rfl
  pulls := hpulls ▸ rfl
  slave := hslave ▸ rfl
  decoder := hdecoder ▸ rfl
  display := hdecoder ▸ hdisplay ▸ rfl

theorem afterEvent_releaseLine (s : State) (l : Line) : AfterEvent s (s.releaseLine l) (.rel l) :=
  afterEvent_emit (s.dir.afterEvent_rel l).symm rfl rfl rfl rfl rfl

theorem afterEvent_assertLine (s : State) (l : Line) : AfterEvent s (s.assertLine l) (.low l) :=
  afterEvent_emit (s.dir.afterEvent_low l).symm rfl rfl rfl rfl rfl

/-- Neither the bus nor the display changes. -/
def SameWire (s t : State) : Prop := SameBus s t ∧ t.display = s.display

/-- A micro-op is an event or leaves the bus and the display alone, and the event is `Low(CLK)` for mLOW(CLK)
only. -/
theorem perform_wire {m : MicroOp} {s t : State} (h : perform m s = .next t) :
    (∃ e, AfterEvent s t e ∧ (e = .low .clk ↔ m = .low .clk)) ∨ (SameWire s t ∧ m ≠ .low .clk) := by
  have noteRead_rel : AfterEvent s ((s.noteRead s.sr.isNone).releaseLine .dio) (.rel .dio) :=
    afterEvent_emit rfl rfl rfl rfl rfl rfl
  have noteRead_low : AfterEvent s ((s.noteRead s.sr.isNone).assertLine .dio) (.low .dio) :=
    afterEvent_emit rfl rfl rfl rfl rfl rfl
  obtain ⟨l, rfl, rfl⟩ | ⟨l, rfl, rfl⟩ | ⟨rfl, rfl⟩ | ⟨rfl, rfl⟩ | ⟨b, rfl, rfl⟩ | ⟨rfl, -, rfl⟩ | ⟨rfl, -, rfl⟩ |
    ⟨rfl, rfl⟩ | ⟨rfl, rfl⟩ := perform_cases h
  · exact .inl ⟨_, afterEvent_releaseLine s l, by simp⟩
  · exact .inl ⟨_, afterEvent_assertLine s l, by simp⟩
  · exact .inl ⟨.wait, afterEvent_emit rfl rfl rfl rfl rfl rfl, by simp⟩
  · exact .inl ⟨.sample s.levelDio, afterEvent_emit rfl rfl rfl rfl rfl rfl, by simp⟩
  · exact .inr ⟨⟨⟨rfl, rfl, rfl, rfl, rfl⟩, rfl⟩, by simp⟩
  · exact .inl ⟨_, noteRead_rel, by simp⟩
  · exact .inl ⟨_, noteRead_low, by simp⟩
  · exact .inr ⟨⟨⟨rfl, rfl, rfl, rfl, rfl⟩, rfl⟩, by simp⟩
  · exact .inr ⟨⟨⟨rfl, rfl, rfl, rfl, rfl⟩, rfl⟩, by simp⟩

theorem lookUpDigit_wire (s : State) (d : BitVec 4) : SameWire s (s.lookUpDigit d) := by
  unfold State.lookUpDigit
  split <;> exact ⟨⟨rfl, rfl, rfl, rfl, rfl⟩, rfl⟩

/-- A host command's acceptance emits no event and touches no part of the bus or the display. -/
theorem exec_command_wire {i : Instr} {s t : State} (hi : isCommand i = true) (h : exec i s = .next t) :
    SameWire s t := by
  have setSeq (q : List MicroOp) : SameWire s (s.setSeq q) := ⟨⟨rfl, rfl, rfl, rfl, rfl⟩, rfl⟩
  obtain ⟨l, -, -, rfl⟩ | ⟨l, -, -, rfl⟩ | ⟨-, -, rfl⟩ | ⟨-, -, rfl⟩ | ⟨-, -, rfl⟩ | ⟨b, -, -, rfl⟩ |
    ⟨d, -, -, rfl⟩ | ⟨n, -, -, rfl⟩ | ⟨low, -, -, rfl⟩ | ⟨rfl, -⟩ | ⟨rfl, -⟩ | ⟨b, rfl, -⟩ | ⟨p, rfl, -⟩ :=
    exec_cases h
  · exact setSeq _
  · exact setSeq _
  · exact setSeq _
  · exact setSeq _
  · exact setSeq _
  · exact setSeq _
  · exact lookUpDigit_wire s d
  · exact ⟨⟨rfl, rfl, rfl, rfl, rfl⟩, rfl⟩
  · exact ⟨⟨rfl, rfl, rfl, rfl, rfl⟩, rfl⟩
  · cases hi
  · cases hi
  · cases hi
  · cases hi

theorem acceptWord_wire {w : CommandWord} {s t : State} (h : acceptWord w s = .next t) : SameWire s t := by
  obtain ⟨i, -, hi, hx⟩ | ⟨r, -, -, rfl⟩ := acceptWord_cases h
  · exact exec_command_wire hi hx
  · exact ⟨⟨rfl, rfl, rfl, rfl, rfl⟩, rfl⟩

end Sys2Proof.Machine

/-! The observer, settled: what it holds once it has read all it has received. -/

namespace Sys2Proof.Machine

theorem addressCommand_of_mode {v : Display} (h : v.mode = some .autoIncWrite) :
    v.addressCommand = { v with addr := some 0 } := if_pos h

theorem addressCommand_unread (v : Display) (d : List Byte) (ib : List (List Byte)) :
    ({ v with data := d, inbox := ib } : Display).addressCommand = { v.addressCommand with data := d, inbox := ib } := by
  unfold Display.addressCommand
  split <;> rfl

/-- Reading a frame neither reads nor changes what is still to be read. -/
theorem readFrame_unread (v : Display) (f : List Byte) (d : List Byte) (ib : List (List Byte)) :
    ({ v with data := d, inbox := ib } : Display).readFrame f = { v.readFrame f with data := d, inbox := ib } := by
  cases f with
  | nil => rfl
  | cons c xs =>
    unfold Display.readFrame
    dsimp only
    split
    · rfl
    · split
      · rw [addressCommand_unread]
        exact patternBytes_unread xs v.addressCommand d ib
      · split <;> rfl

/-- The next data byte read is one the settled observer has read. -/
theorem settled_dataByte {v : Display} {x : Byte} {xs : List Byte} (hd : v.data = x :: xs) :
    (({ v with data := xs } : Display).patternByte x).settled = v.settled := by
  have hread : ({ v with data := xs } : Display).patternByte x =
      { v.patternByte x with data := xs, inbox := v.inbox } := patternByte_unread v x xs v.inbox
  simp only [Display.settled, hread, hd, List.foldl_cons]
  rw [patternByte_unread v x [] []]

/-- So is the next frame begun. -/
theorem settled_openFrame {v : Display} {f : List Byte} {fs : List (List Byte)} (hd : v.data = [])
    (hi : v.inbox = f :: fs) : (openedDisplay { v with inbox := fs } f).settled = v.settled := by
  obtain ⟨hinbox, hread, -⟩ := openedDisplay_settles { v with inbox := fs } f hd
  generalize openedDisplay { v with inbox := fs } f = w at hinbox hread
  have hframe := congrArg (fun u : Display => { u with data := [], inbox := [] }) hread
  rw [Display.settled, Display.settled, hinbox, hi, hd, List.foldl_cons, List.foldl_nil]
  congr 1
  calc _ = _ := patternBytes_unread w.data w [] []
    _ = _ := hframe
    _ = _ := (readFrame_unread { v with inbox := fs } f [] []).symm

/-- Frames received are read after everything before them. -/
theorem settled_receive (v : Display) (fs : List Frame) :
    (v.receive fs).settled = (fs.map frameBytes).foldl Display.readFrame v.settled :=
  List.foldl_append

theorem observe_frames (x : Decoder) (clk dio : Bool) :
    (x.observe clk dio).frames = x.frames ++ x.completed (x.condition clk dio) := by
  unfold Decoder.observe
  cases x.condition clk dio with
  | start => rfl
  | stop => rfl
  | latch b => simpa [Decoder.apply, Decoder.completed] using onLatch_frames x b
  | nothing => simp [Decoder.apply, Decoder.completed]

end Sys2Proof.Machine

/-! Every step, seen from the bus and the settled observer. -/

namespace Sys2Proof.Machine

/-- Neither the bus nor what the observer makes of all it has received changes. -/
def SameObservation (s t : State) : Prop := SameBus s t ∧ t.display.settled = s.display.settled

theorem SameWire.sameObservation {s t : State} (h : SameWire s t) : SameObservation s t :=
  ⟨h.1, congrArg Display.settled h.2⟩

/-- A step without reset is an event, `Low(CLK)` exactly when mLOW(CLK) heads SEQ, or it leaves the observation
alone. -/
theorem step_observation {s t : State} (hr : s.resetAsserted = false) (h : step s = .next t) :
    (∃ m rest e, s.seq = m :: rest ∧ AfterEvent (s.setSeq rest) t e ∧ (e = .low .clk ↔ m = .low .clk)) ∨
      (SameObservation s t ∧ ∀ rest, s.seq ≠ .low .clk :: rest) := by
  obtain ⟨hr', -⟩ | ⟨-, m, rest, hq, hp⟩ | ⟨-, hq, x, xs, hd, rfl⟩ | ⟨-, hq, hd, f, fs, hi, rfl⟩ |
    ⟨-, hq, -, -, -, -, rfl⟩ | ⟨hturn, w, rest, -, hw⟩ := step_cases h
  · cases hr.symm.trans hr'
  · obtain ⟨e, he, hm⟩ | ⟨hsame, hm⟩ := perform_wire hp
    · exact .inl ⟨m, rest, e, hq, ⟨he.dir, he.trace, he.pulls, he.slave, he.decoder, he.display⟩, hm⟩
    · exact .inr ⟨hsame.sameObservation, fun rest' => by simp [hq, hm]⟩
  · exact .inr ⟨⟨⟨rfl, rfl, rfl, rfl, rfl⟩, settled_dataByte hd⟩, by simp [hq]⟩
  · exact .inr ⟨⟨⟨rfl, rfl, rfl, rfl, rfl⟩, settled_openFrame hd hi⟩, by simp [hq]⟩
  · exact .inr ⟨⟨⟨rfl, rfl, rfl, rfl, rfl⟩, rfl⟩, by simp [hq]⟩
  · obtain ⟨hq, -⟩ := hturn.accepting
    exact .inr ⟨(acceptWord_wire hw).sameObservation, by simp [hq]⟩

/-! The trace, the decoder and the observer in agreement. -/

theorem replay_append (es fs : List (Event × Bool)) : ∀ x, replay x (es ++ fs) = replay (replay x es) fs := by
  induction es with
  | nil => exact fun _ => rfl
  | cons e es ih => exact fun _ => ih _

/-- The agreement speaks of the directions, TRACE, the pulls and the decoder only. -/
theorem State.TraceAgrees.of_sameBus {s t : State} (h : s.TraceAgrees) (hst : SameBus s t) : t.TraceAgrees := by
  obtain ⟨hdir, htrace, hpulls, hdecoder, -⟩ := hst
  exact ⟨by rw [htrace, hpulls]; exact h.paired, by rw [hdir, htrace, hpulls, hdecoder]; exact h.replayed⟩

/-- An event and the pull after it are one more entry for the replay. -/
theorem State.TraceAgrees.afterEvent {s t : State} {e : Event} (h : s.TraceAgrees) (he : AfterEvent s t e) :
    t.TraceAgrees where
  paired := by simp [he.trace, he.pulls, h.paired]
  replayed := by
    rw [he.trace, he.pulls, List.zip_append h.paired.symm, replay_append, h.replayed, he.decoder,
      State.levelClk, State.levelDio, he.dir]
    rfl

theorem State.TraceAgrees.applyReset (s : State) : s.applyReset.TraceAgrees := ⟨rfl, rfl⟩

theorem State.TraceAgrees.step {s t : State} (h : s.TraceAgrees) (hs : Machine.step s = .next t) :
    t.TraceAgrees := by
  cases hr : s.resetAsserted with
  | true => exact Host.Outcome.next.inj ((step_of_reset hr).symm.trans hs) ▸ applyReset s
  | false =>
    obtain ⟨m, rest, e, -, he, -⟩ | ⟨⟨hbus, -⟩, -⟩ := step_observation hr hs
    · exact State.TraceAgrees.afterEvent (s := s.setSeq rest) ⟨h.paired, h.replayed⟩ he
    · exact h.of_sameBus hbus

theorem State.TraceAgrees.frames {s : State} (h : s.TraceAgrees) :
    s.decoder.frames = decodeTrace Lines.atReset s.trace s.pulls := by
  rw [decodeTrace, h.replayed]

/-- The frames an event completes are those the observer receives. -/
theorem State.DisplayAgrees.afterEvent {s t : State} {e : Event} (h : s.DisplayAgrees) (he : AfterEvent s t e) :
    t.DisplayAgrees := by
  rw [State.DisplayAgrees, he.display, he.decoder, settled_receive, observe_frames, List.map_append,
    List.foldl_append, show s.display.settled = _ from h]

theorem State.DisplayAgrees.applyReset (s : State) : s.applyReset.DisplayAgrees := rfl

theorem State.DisplayAgrees.step {s t : State} (h : s.DisplayAgrees) (hs : Machine.step s = .next t) :
    t.DisplayAgrees := by
  cases hr : s.resetAsserted with
  | true => exact Host.Outcome.next.inj ((step_of_reset hr).symm.trans hs) ▸ applyReset s
  | false =>
    obtain ⟨m, rest, e, -, he, -⟩ | ⟨⟨⟨-, -, -, hdecoder, -⟩, hsettled⟩, -⟩ := step_observation hr hs
    · exact State.DisplayAgrees.afterEvent (s := s.setSeq rest) h he
    · rw [State.DisplayAgrees, hsettled, hdecoder]
      exact h

end Sys2Proof.Machine

section

open Sys2Proof Sys2Proof.Machine

/-- Settles O35: an event hands the observer the frames the decoder completes, and reading a frame byte by byte
is `readFrame`. -/
theorem stepKeepsTheObserverInStepWithTheTrace : Obligations.StepKeepsTheObserverInStepWithTheTrace :=
  fun _ _ h hs => h.step hs

/-- Settles O37: every event adds one entry to the replay. -/
theorem stepKeepsTheDecoderInStepWithTheTrace : Obligations.StepKeepsTheDecoderInStepWithTheTrace :=
  fun _ _ h hs => ⟨h.step hs, (h.step hs).frames⟩

end

/-! The display memory: a read after a write, and what a canonical list holds. -/

namespace Sys2Proof.Machine

/-- A list whose addresses all lie at `low` or above has nothing below. -/
theorem findCell_of_lt {a : Nat} (cells : List Host.Cell) :
    ∀ low, cellsAbove low cells = true → a < low → findCell a cells = none := by
  induction cells with
  | nil => exact fun _ _ _ => rfl
  | cons c rest ih =>
    intro low hc ha
    simp only [cellsAbove, Bool.and_eq_true, decide_eq_true_eq] at hc
    obtain ⟨hlow, hrest⟩ := hc
    rw [findCell, if_neg (by omega)]
    exact ih (c.1 + 1) hrest (by omega)

theorem findCell_head (c : Host.Cell) (rest : List Host.Cell) : findCell c.1 (c :: rest) = some c.2 := if_pos rfl

theorem findCell_tail {a : Nat} {c : Host.Cell} (rest : List Host.Cell) (h : a ≠ c.1) :
    findCell a (c :: rest) = findCell a rest := if_neg h.symm

/-- Of two rising lists that read alike, neither begins below the other: its first address would be read in its
own list only. -/
theorem head_le_of_findCell_eq {c c' : Host.Cell} {rest rest' : List Host.Cell}
    (hrest' : cellsAbove (c'.1 + 1) rest' = true)
    (h : ∀ a, findCell a (c :: rest) = findCell a (c' :: rest')) : c'.1 ≤ c.1 := by
  by_contra hlt
  have hread := h c.1
  rw [findCell_head, findCell_tail rest' (by omega), findCell_of_lt rest' _ hrest' (by omega)] at hread
  cases hread

/-- Rising lists that read alike are equal, by induction on both. -/
theorem cells_eq_of_findCell_eq (cells : List Host.Cell) :
    ∀ (cells' : List Host.Cell) (low low' : Nat), cellsAbove low cells = true → cellsAbove low' cells' = true →
      (∀ a, findCell a cells = findCell a cells') → cells = cells' := by
  induction cells with
  | nil =>
    intro cells' low low' _ _ h
    cases cells' with
    | nil => rfl
    | cons c' rest' => exact nomatch (h c'.1).trans (findCell_head c' rest')
  | cons c rest ih =>
    intro cells' low low' hc hc' h
    cases cells' with
    | nil => exact nomatch (findCell_head c rest).symm.trans (h c.1)
    | cons c' rest' =>
      obtain ⟨-, hrest⟩ := Bool.and_eq_true_iff.mp hc
      obtain ⟨-, hrest'⟩ := Bool.and_eq_true_iff.mp hc'
      have haddr : c.1 = c'.1 :=
        Nat.le_antisymm (head_le_of_findCell_eq hrest fun a => (h a).symm) (head_le_of_findCell_eq hrest' h)
      have hbyte : c.2 = c'.2 := by
        have hread := h c.1
        rw [findCell_head, haddr, findCell_head] at hread
        exact Option.some.inj hread
      have htail : ∀ a, findCell a rest = findCell a rest' := by
        intro a
        by_cases ha : a = c.1
        · rw [findCell_of_lt rest _ hrest (by omega), findCell_of_lt rest' _ hrest' (by omega)]
        · rw [← findCell_tail rest ha, h a, findCell_tail rest' (haddr ▸ ha)]
      rw [Prod.ext haddr hbyte, ih rest' _ _ hrest hrest' htail]

/-- A read after a write that answers (20_memory.md R61). -/
theorem Memory.read_write {m m' : Memory} {a : Nat} {v : Byte} (h : m.write a v = some m') (b : Nat) :
    m'.read b = if b = a then some v else m.read b := by
  obtain ⟨-, rfl⟩ := Memory.write_eq_some h
  exact findCell_putCell a v m.cells b

end Sys2Proof.Machine

/-! The wire bytes in the observer, and the observer's step. -/

namespace Sys2Proof.Machine

theorem addressCommand_refused {v : Display} (h : v.mode = none) : v.addressCommand = v.refuse :=
  if_neg (by simp [h])

theorem patternByte_stored {v : Display} {a : Nat} {p : Byte} {m : Memory} (ha : v.addr = some a)
    (hm : v.ram.write a p = some m) : v.patternByte p = { v with ram := m, addr := some (a + 1) } := by
  simp [Display.patternByte, ha, hm]

theorem patternByte_beyond {v : Display} {a : Nat} (p : Byte) (ha : v.addr = some a) (h : 4 ≤ a) :
    v.patternByte p = v.refuse := by
  simp [Display.patternByte, ha, Memory.write_of_ge _ p h]

theorem patternByte_noAddress {v : Display} (p : Byte) (ha : v.addr = none) : v.patternByte p = v.refuse := by
  simp [Display.patternByte, ha]

theorem patternByte_read_other {v : Display} {a b : Nat} (p : Byte) (ha : v.addr = some a) (hb : b ≠ a) :
    (v.patternByte p).ram.read b = v.ram.read b := by
  by_cases h : a < 4
  · have hw := Memory.write_of_lt v.ram p h
    rw [patternByte_stored ha hw]
    exact (Memory.read_write hw b).trans (if_neg hb)
  · rw [patternByte_beyond p ha (Nat.le_of_not_lt h)]
    rfl

/-- A wire byte changes the display only; the three commands store nothing. -/
theorem exec_wireByte {i : Instr} {s t : State} (hi : isCommand i = false) (h : exec i s = .next t) :
    ∃ v, t = s.setDisplay v ∧ ((∃ p, i = .segData p ∧ v = s.display.patternByte p) ∨
      ((∀ p, i ≠ .segData p) ∧ v.ram = s.display.ram)) := by
  cases i with
  | cmdData => exact ⟨_, (Host.Outcome.next.inj h).symm, .inr ⟨by simp, rfl⟩⟩
  | cmdAddr => exact ⟨_, (Host.Outcome.next.inj h).symm, .inr ⟨by simp, s.display.ram_addressCommand⟩⟩
  | cmdDisp b => exact ⟨_, (Host.Outcome.next.inj h).symm, .inr ⟨by simp, rfl⟩⟩
  | segData p => exact ⟨_, (Host.Outcome.next.inj h).symm, .inl ⟨p, rfl, rfl⟩⟩
  | _ => cases hi

/-- A frame that begins with the address command leaves its other bytes as data, in mode AutoIncWrite. -/
theorem openFrame_address {s : State} (xs : List Byte) (hm : s.display.mode = some .autoIncWrite) :
    openFrame (0xC0#8 :: xs) s = exec .cmdAddr (s.setDisplay { s.display with data := xs }) := by
  have hdata : dataAfterAddress s.display xs = xs := if_pos hm
  simp [openFrame, show decode (.commandByte 0xC0#8) = .instr .cmdAddr from rfl, hdata]

/-- An idle block with a data byte to read runs it as a pattern byte. -/
theorem step_of_data {s : State} {x : Byte} {xs : List Byte} (hr : s.resetAsserted = false) (hq : s.seq = [])
    (hd : s.display.data = x :: xs) :
    step s = exec (.segData x) (s.tick.setDisplay { s.display with data := xs }) :=
  (step_of_hasWork hr hq (by simp [Display.hasWork, hd])).trans (observerStep_of_data (s := s.tick) hd)

/-- An idle block whose observer has no data byte left begins the next frame. -/
theorem step_of_frame {s : State} {f : List Byte} {fs : List (List Byte)} (hr : s.resetAsserted = false)
    (hq : s.seq = []) (hd : s.display.data = []) (hi : s.display.inbox = f :: fs) :
    step s = openFrame f (s.tick.setDisplay { s.display with inbox := fs }) :=
  (step_of_hasWork hr hq (by simp [Display.hasWork, hi])).trans (observerStep_of_frame (s := s.tick) hd hi)

/-- An observer that has read all its data reads the next frame in one step for its first byte and one for each
data byte after that, as `readFrame` says. -/
theorem run_readFrame {s : State} {f : List Byte} (hq : s.seq = []) (hr : s.NoReset) (hd : s.display.data = [])
    (hi : s.display.inbox = [f]) :
    ∃ k, k ≤ f.length + 1 ∧
      run k s = .next (s.setDisplay (({ s.display with inbox := [] } : Display).readFrame f)) := by
  obtain ⟨hinbox, hread, hlen, -⟩ := openedDisplay_settles { s.display with inbox := [] } f hd
  refine ⟨(openedDisplay { s.display with inbox := [] } f).data.length + 1, by omega, ?_⟩
  have hopen := run_openFrame (openedDisplay { s.display with inbox := [] } f).data.length hr hq hd hi
  have hbytes := run_dataBytes _ 0 (s.setDisplay (openedDisplay { s.display with inbox := [] } f)) hr hq rfl
  rw [Nat.zero_add, State.setDisplay_display, hinbox, hread] at hbytes
  exact hopen.trans hbytes

end Sys2Proof.Machine

section

open Sys2Proof Sys2Proof.Machine

/-- Settles O32: a write below 4 answers the list with its cell put in place. -/
theorem displayMemoryReadsWhatWasWritten : Obligations.DisplayMemoryReadsWhatWasWritten := by
  refine fun m a v hm => ⟨Memory.write_of_ge m v, fun ha => ?_⟩
  have hw := Memory.write_of_lt m v ha
  exact ⟨_, hw, Memory.wf_write hm hw, Memory.read_write hw⟩

/-- Settles O33, by induction on the two lists of cells. -/
theorem canonicalMemoriesThatReadAlikeAreEqual : Obligations.CanonicalMemoriesThatReadAlikeAreEqual := by
  rintro ⟨cells⟩ ⟨cells'⟩ h h' hread
  obtain ⟨hrise, -⟩ := Bool.and_eq_true_iff.mp h
  obtain ⟨hrise', -⟩ := Bool.and_eq_true_iff.mp h'
  exact congrArg Memory.mk (cells_eq_of_findCell_eq cells cells' 0 0 hrise hrise' hread)

/-- Settles O34, by `run_readFrame`. -/
theorem readingAFrameFollowsTheObserverRule : Obligations.ReadingAFrameFollowsTheObserverRule :=
  fun _ _ hq hr hd hi => run_readFrame hq hr hd hi

/-- Settles O8: the observer runs the next data byte, or begins the next frame with its command byte. -/
theorem stepRunsTheDecodedWireByte : Obligations.StepRunsTheDecodedWireByte :=
  fun _ hq hr => ⟨fun _ _ hd => step_of_data hr hq hd,
    fun _ _ _ hd hi hc => (step_of_frame hr hq hd hi).trans (openFrame_single hc hd),
    fun xs _ hd hi hm => (step_of_frame hr hq hd hi).trans (openFrame_address xs hm)⟩

/-- Settles O29, one clause per wire byte. -/
theorem wireBytesCompleteInTheObserver : Obligations.WireBytesCompleteInTheObserver := by
  refine fun s => ⟨rfl, fun hm => ?_, fun b => rfl, fun a p ha hlt => ?_⟩
  · rw [exec_cmdAddr, addressCommand_of_mode hm]
    rfl
  · have hw := Memory.write_of_lt s.display.ram p hlt
    refine ⟨_, hw, (Memory.read_write hw a).trans (if_pos rfl), ?_⟩
    rw [exec_segData, patternByte_stored ha hw]
    rfl

/-- Settles O30: each case answers `Display.refuse`. -/
theorem observerRefusesWhatHasNoMeaning : Obligations.ObserverRefusesWhatHasNoMeaning := by
  refine fun s => ⟨fun hm => ?_, fun p a ha hle => ?_, fun p ha => ?_⟩
  · rw [exec_cmdAddr, addressCommand_refused hm]
    rfl
  · rw [exec_segData, patternByte_beyond p ha hle]
    rfl
  · rw [exec_segData, patternByte_noAddress p ha]
    rfl

/-- Settles O31: a wire byte sets the display only, and `patternByte` stores at its address only. -/
theorem wireBytesLeaveTheBlockAlone : Obligations.WireBytesLeaveTheBlockAlone := by
  intro i s t hi h
  obtain ⟨v, rfl, hv⟩ := exec_wireByte hi h
  refine ⟨⟨rfl, rfl, rfl, rfl, rfl, rfl, rfl, rfl⟩, ⟨rfl, rfl, rfl, rfl, rfl⟩, rfl, rfl, rfl, fun hne a => ?_,
    fun p hp => ?_⟩
  · obtain ⟨p, hp, -⟩ | ⟨-, hram⟩ := hv
    · exact absurd hp (hne p)
    · exact congrArg (Memory.read · a) hram
  · obtain ⟨p', hp', rfl⟩ | ⟨hne, -⟩ := hv
    · refine ⟨fun a ha b hb => patternByte_read_other p' ha hb, fun a ha hle b => ?_, fun ha b => ?_⟩
      · rw [State.setDisplay_display, patternByte_beyond p' ha hle]
        rfl
      · rw [State.setDisplay_display, patternByte_noAddress p' ha]
        rfl
    · exact absurd hp (hne p)

end

/-! The levels, and the slave's move at an event. -/

namespace Sys2Proof.Machine

theorem Dir.level_iff (x : Dir) : Dir.level x = true ↔ x = .released := by
  cases x <;> decide

/-- Inside a window the slave takes the first of its coming choices. -/
theorem draw_of_moves {v : Slave} {a : Bool} {as : List Bool} (h : v.moves = a :: as) :
    v.draw.pull = a ∧ v.draw.moves = as := by
  simp [Slave.draw, h]

theorem react_low_inside {v : Slave} (h : v.window = true) : v.react false = v.draw := by
  simp [Slave.react, h]

/-- The slave lets go at an event after which CLK is low and no window is open. -/
theorem react_pull_outside {v : Slave} (h : v.window = false) : (v.react false).pull = false := by
  rw [Slave.react_low_outside h]

theorem levelClk_after_lowClk {s t : State} (h : AfterEvent s t (.low .clk)) : t.levelClk = false := by
  rw [State.levelClk, levelClk, h.dir]
  rfl

/-- Only `Low(CLK)` moves the window. -/
theorem windowAfter_of_ne {e : Event} (s : State) (h : e ≠ .low .clk) : s.windowAfter e = s.slave.window := by
  cases e with
  | low l => cases l with
    | clk => exact absurd rfl h
    | dio => rfl
  | rel l => rfl
  | wait => rfl
  | sample v => rfl

theorem windowAfter_lowClk_of_open {s : State} (h : s.slave.window = true) : s.windowAfter (.low .clk) = false :=
  if_pos h

theorem windowAfter_lowClk_of_closed {s : State} (h : s.slave.window = false) :
    s.windowAfter (.low .clk) = decide (s.seq.take ackTail.length = ackTail) :=
  if_neg (by simp [h])

theorem ackPhase_iff (m : MicroOp) (rest : List MicroOp) :
    (∃ rest', m :: rest = ackPhase ++ rest') ↔ m = .low .clk ∧ rest.take ackTail.length = ackTail := by
  constructor
  · rintro ⟨rest', h⟩
    obtain ⟨rfl, rfl⟩ := List.cons.inj h
    exact ⟨rfl, List.take_left⟩
  · rintro ⟨rfl, h⟩
    have hsplit : rest = ackTail ++ rest.drop ackTail.length :=
      (List.take_append_drop ackTail.length rest).symm.trans (congrArg (· ++ _) h)
    exact ⟨_, congrArg (List.cons (.low .clk)) hsplit⟩

namespace AfterEvent

variable {s t : State} {e : Event}

theorem window (h : AfterEvent s t e) : t.slave.window = s.windowAfter e := by
  rw [h.slave, Slave.react_window]

/-- With CLK high the slave keeps its pull. -/
theorem pull_high (h : AfterEvent s t e) (hc : t.levelClk = true) : t.slave.pull = s.slave.pull := by
  rw [h.slave, hc, Slave.react_high]

/-- With CLK low and no window open it has let go. -/
theorem pull_low_outside (h : AfterEvent s t e) (hc : t.levelClk = false) (hw : t.slave.window = false) :
    t.slave.pull = false := by
  rw [h.slave, hc, react_pull_outside (h.window.symm.trans hw)]

/-- With CLK low inside a window it has taken its next choice. -/
theorem choice_low_inside (h : AfterEvent s t e) (hc : t.levelClk = false) (hw : t.slave.window = true) {a : Bool}
    {as : List Bool} (hm : s.slave.moves = a :: as) : t.slave.pull = a ∧ t.slave.moves = as := by
  rw [h.slave, hc, react_low_inside (h.window.symm.trans hw)]
  exact draw_of_moves hm

/-- With CLK high the window is as it was, since the event is not `Low(CLK)`. -/
theorem window_high (h : AfterEvent s t e) (hc : t.levelClk = true) : t.slave.window = s.slave.window := by
  rw [h.window]
  refine windowAfter_of_ne s ?_
  rintro rfl
  exact nomatch hc.symm.trans (levelClk_after_lowClk h)

/-- A closed window opens at the `Low(CLK)` that begins an acknowledge phase. -/
theorem opens_iff (h : AfterEvent s t e) (hw : s.slave.window = false) :
    t.slave.window = true ↔ e = .low .clk ∧ s.seq.take ackTail.length = ackTail := by
  rw [h.window]
  by_cases he : e = .low .clk
  · subst he
    simp [windowAfter_lowClk_of_closed hw]
  · simp [windowAfter_of_ne s he, hw, he]

/-- An open window closes at the next `Low(CLK)`. -/
theorem closes_iff (h : AfterEvent s t e) (hw : s.slave.window = true) :
    t.slave.window = false ↔ e = .low .clk := by
  rw [h.window]
  by_cases he : e = .low .clk
  · subst he
    simp [windowAfter_lowClk_of_open hw]
  · simp [windowAfter_of_ne s he, hw, he]

end AfterEvent

end Sys2Proof.Machine

section

open Sys2Proof Sys2Proof.Machine

/-- Settles O42: each drive's level is its direction. -/
theorem levelsAreTheWiredAnd : Obligations.LevelsAreTheWiredAnd :=
  fun s => ⟨Dir.level_iff _, by simp [State.levelDio, levelDio, Dir.level_iff]⟩

/-- Settles O44: a step with an event moves the slave by `Slave.react`, and any other step leaves it alone. -/
theorem slavePullsOnlyInsideTheWindow : Obligations.SlavePullsOnlyInsideTheWindow := by
  intro s t hr hs
  obtain ⟨m, rest, e, hq, he, hm⟩ | ⟨⟨⟨-, htrace, -, -, hslave⟩, -⟩, hq⟩ := step_observation hr hs
  · have low_of_moved (hne : ¬ t.slave.pull = s.slave.pull) : t.levelClk = false :=
      Bool.eq_false_iff.mpr fun hc => hne (he.pull_high hc)
    refine ⟨fun hne => ⟨low_of_moved hne, e, he.trace⟩, fun hin hp => ?_, fun hopen hclosed => ?_,
      fun _ hc hw => he.pull_low_outside hc hw, fun hw => ?_, fun hw => ?_,
      fun _ hc hw a as ha => he.choice_low_inside hc hw ha⟩
    · cases hc : t.levelClk with
      | true => exact (he.window_high hc).trans (hin ((he.pull_high hc).symm.trans hp))
      | false =>
        by_contra hw
        exact nomatch hp.symm.trans (he.pull_low_outside hc (Bool.eq_false_iff.mpr hw))
    · have hlow : e = .low .clk := (he.closes_iff hopen).mp hclosed
      subst hlow
      exact he.pull_low_outside (levelClk_after_lowClk he) hclosed
    · rw [he.opens_iff hw, hm, hq, ackPhase_iff]
      rfl
    · rw [he.closes_iff hw, hm, hq]
      simp
  · rw [hslave, htrace]
    refine ⟨fun h => absurd rfl h, fun hin hp => hin hp, fun h h' => (nomatch h.symm.trans h'), fun h => absurd rfl h,
      fun hw => ?_, fun hw => ?_, fun h => absurd rfl h⟩
    · simpa [hw, ackPhase] using fun rest => hq (ackTail ++ rest)
    · simpa [hw] using hq

end

/-! START and STOP from any line directions: outside a window a run of line events is the replay of its events. -/

namespace Sys2Proof.Machine

/-- The micro-op that emits an event. -/
def lineOp : Event → MicroOp
  | .rel l => .rel l
  | .low l => .low l
  | .wait => .wait
  | .sample _ => .sample

theorem perform_lineOp {s : State} {e : Event} (he : lineOp e ≠ .sample) :
    ∃ t, perform (lineOp e) s = .next t ∧ AfterEvent s t e := by
  cases e with
  | rel l => exact ⟨_, rfl, afterEvent_releaseLine s l⟩
  | low l => exact ⟨_, rfl, afterEvent_assertLine s l⟩
  | wait => exact ⟨_, rfl, afterEvent_emit rfl rfl rfl rfl rfl rfl⟩
  | sample v => exact absurd rfl he

/-- No window opens before a list without mSAMPLE, because an acknowledge phase samples. -/
theorem windowAfter_of_noSample {s : State} (e : Event) (hw : s.slave.window = false) (hq : .sample ∉ s.seq) :
    s.windowAfter e = false := by
  by_cases he : e = .low .clk
  · subst he
    rw [windowAfter_lowClk_of_closed hw]
    refine decide_eq_false fun htake => hq (List.mem_of_mem_take (i := ackTail.length) ?_)
    rw [htake]
    decide
  · exact (windowAfter_of_ne s he).trans hw

/-- A quiet slave stays quiet at an event that opens no window. -/
theorem AfterEvent.quiet {s t : State} {e : Event} (h : AfterEvent s t e) (hs : s.SlaveQuiet)
    (hw : s.windowAfter e = false) : t.SlaveQuiet := by
  obtain ⟨-, hpull⟩ := hs
  have hclosed := h.window.trans hw
  refine ⟨hclosed, ?_⟩
  cases hc : t.levelClk with
  | true => exact (h.pull_high hc).trans hpull
  | false => exact h.pull_low_outside hc hclosed

/-- With a quiet slave and no reset, a block whose SEQ emits some line events runs to its end, and the decoder
reads them with DIO driven by the controller alone. -/
theorem run_lineEvents (es : List Event) : ∀ s : State, s.NoReset → s.SlaveQuiet → .sample ∉ es.map lineOp →
    s.seq = es.map lineOp →
    ∃ t, run es.length s = .next t ∧ (t.dir, t.decoder) = replay (s.dir, s.decoder) (es.map (·, false)) := by
  induction es with
  | nil => exact fun s _ _ _ _ => ⟨s, rfl, rfl⟩
  | cons e es ih =>
    intro s hr hquiet hsample hq
    obtain ⟨hhead, htail⟩ := List.ne_and_not_mem_of_not_mem_cons hsample
    obtain ⟨u, hu, hev⟩ := perform_lineOp (s := s.setSeq (es.map lineOp)) (Ne.symm hhead)
    obtain ⟨useq, -, -, -, uport⟩ := perform_keeps hu
    have uquiet : u.SlaveQuiet := hev.quiet hquiet (windowAfter_of_noSample e hquiet.1 htail)
    obtain ⟨t, ht, hreplay⟩ := ih u (by rw [State.NoReset, uport]; exact hr) uquiet htail useq
    refine ⟨t, (run_of_seq _ hr hq hu).trans ht, hreplay.trans ?_⟩
    obtain ⟨-, upull⟩ := uquiet
    rw [hev.dir, hev.decoder, State.levelClk, State.levelDio, upull, hev.dir]
    rfl

/-! What the decoder sees at an event, when it knows the levels before it (20_memory.md R55). -/

theorem observe_low (x : Decoder) (d : Bool) : x.observe false d = { x with clk := false, dio := d } := by
  rw [Decoder.observe, condition_low]
  rfl

theorem observe_unchanged {x : Decoder} {d : Bool} (hc : x.clk = true) (hd : x.dio = d) : x.observe true d = x := by
  obtain ⟨clk, dio, inFrame, bits, cur, frames⟩ := x
  subst hc hd
  cases dio <;> rfl

theorem observe_latch {x : Decoder} (d : Bool) (hc : x.clk = false) :
    x.observe true d = { x.onLatch d with clk := true, dio := d } := by
  simp [Decoder.observe, Decoder.condition, hc, Decoder.apply]

theorem observe_fall {x : Decoder} (hc : x.clk = true) (hd : x.dio = true) :
    x.observe true false = { x.onStart with clk := true, dio := false } := by
  simp [Decoder.observe, Decoder.condition, hc, hd, Decoder.apply]

theorem observe_rise {x : Decoder} (hc : x.clk = true) (hd : x.dio = false) :
    x.observe true true = { x.onStop with clk := true, dio := true } := by
  simp [Decoder.observe, Decoder.condition, hc, hd, Decoder.apply]

/-- The decoder has seen the levels of the lines with DIO driven by the controller alone, and the next bit it
latches is no ninth one. -/
structure Decoder.Fresh (x : Decoder) (dir : Lines) : Prop where
  clk : x.clk = levelClk dir
  dio : x.dio = levelDio dir false
  bits : x.inFrame = true → x.bits.length < 8

/-- Every frame, with the open one. -/
def Decoder.allFrames (x : Decoder) : List Frame := x.frames ++ x.closed

theorem allFrames_latched {x : Decoder} (c d b : Bool) (h : x.inFrame = true → x.bits.length < 8) :
    ({ x.onLatch b with clk := c, dio := d } : Decoder).allFrames = x.allFrames := by
  show (x.onLatch b).frames ++ (x.onLatch b).closed = x.frames ++ x.closed
  rw [onLatch_frames, onLatch_closed b h]

/-- Releasing DIO, then CLK, loses no frame: the rise of CLK may latch a stray bit, the rise of DIO with CLK high
closes the open frame. -/
theorem replay_releaseBoth {dir : Lines} {x : Decoder} (h : x.Fresh dir) :
    ∃ y : Decoder, replay (dir, x) [(.rel .dio, false), (.rel .clk, false)] =
        ({ clk := .released, dio := .released }, y) ∧
      y.clk = true ∧ y.dio = true ∧ y.allFrames = x.allFrames := by
  obtain ⟨hclk, hdio, hbits⟩ := h
  obtain ⟨dirClk, dirDio⟩ := dir
  cases dirClk with
  | assertedLow =>
    refine ⟨_, congrArg _ ((congrArg (Decoder.observe · true true) (observe_low x true)).trans
      (observe_latch true rfl)), rfl, rfl, ?_⟩
    rw [onLatch_levels]
    exact allFrames_latched true true true hbits
  | released =>
    cases dirDio with
    | assertedLow =>
      refine ⟨_, congrArg _ ((congrArg (Decoder.observe · true true) (observe_rise hclk hdio)).trans
        (observe_unchanged rfl rfl)), rfl, rfl, ?_⟩
      simp [Decoder.allFrames, Decoder.onStop, Decoder.closed]
    | released =>
      exact ⟨x, congrArg _ ((congrArg (Decoder.observe · true true) (observe_unchanged hclk hdio)).trans
        (observe_unchanged hclk hdio)), hclk, hdio, rfl⟩

/-- START's events from any directions: an open frame is closed, and a new one is open (20_memory.md R57). -/
theorem replay_start {dir : Lines} {x : Decoder} (h : x.Fresh dir) :
    (replay (dir, x) ([.rel .dio, .rel .clk, .wait, .low .dio, .wait, .low .clk].map (·, false))).2 =
      { clk := false, dio := false, inFrame := true, bits := [], cur := [], frames := x.allFrames } := by
  obtain ⟨y, hy, hclk, hdio, hframes⟩ := replay_releaseBoth h
  have hwait : y.observe true true = y := observe_unchanged hclk hdio
  calc _ = (replay (replay (dir, x) [(.rel .dio, false), (.rel .clk, false)])
        [(.wait, false), (.low .dio, false), (.wait, false), (.low .clk, false)]).2 := rfl
    _ = (((((y.observe true true).observe true false).observe true false).observe false false) : Decoder) := by
      rw [hy]; rfl
    _ = _ := by
      rw [hwait, observe_fall hclk hdio, observe_unchanged rfl rfl, observe_low, ← hframes]
      rfl

/-- STOP's events from any directions: an open frame is closed and none is open (20_memory.md R59). -/
theorem replay_stop {dir : Lines} {x : Decoder} (h : x.Fresh dir) :
    (replay (dir, x) ([.low .clk, .wait, .low .dio, .wait, .rel .clk, .wait, .rel .dio].map (·, false))).2 =
      { clk := true, dio := true, inFrame := false, bits := [], cur := [], frames := x.allFrames } := by
  obtain ⟨-, -, hbits⟩ := h
  have hlow (d : Bool) : (((x.observe false d).observe false d).observe false false).observe false false =
      { x with clk := false, dio := false } := by
    simp only [observe_low]
  have hreplay : (replay (dir, x)
      ([.low .clk, .wait, .low .dio, .wait, .rel .clk, .wait, .rel .dio].map (·, false))).2 =
      (((((((x.observe false (levelDio dir false)).observe false (levelDio dir false)).observe false false).observe
        false false).observe true false).observe true false).observe true true) := rfl
  rw [hreplay, hlow, observe_latch (x := { x with clk := false, dio := false }) false rfl,
    observe_unchanged (d := false) rfl rfl, observe_rise rfl rfl, onLatch_levels,
    ← allFrames_latched true false false hbits]
  rfl

/-! The commands. -/

theorem runCommand_of_issue {i : Instr} {q : List MicroOp} {s : State} (h : exec i s = .next (s.setSeq q)) :
    runCommand i s = run q.length (s.setSeq q) := by
  rw [runCommand, h]
  rfl

/-- START and STOP run from every accepting state with a quiet slave, and the decoder reads their events. -/
theorem runCommand_lineEvents {i : Instr} {s : State} (es : List Event) (ha : s.Accepting) (hr : s.NoReset)
    (hquiet : s.SlaveQuiet) (hi : exec i s = accept (fun t => t.setSeq (es.map lineOp)) s)
    (hes : .sample ∉ es.map lineOp) :
    ∃ t, runCommand i s = .next t ∧ t.decoder = (replay (s.dir, s.decoder) (es.map (·, false))).2 := by
  rw [runCommand_of_issue (hi.trans (accept_of_accepting _ ha)), List.length_map]
  obtain ⟨t, ht, hreplay⟩ := run_lineEvents es (s.setSeq (es.map lineOp)) hr hquiet hes rfl
  exact ⟨t, ht, congrArg Prod.snd hreplay⟩

theorem State.decoder_fresh {s : State} (hquiet : s.SlaveQuiet) (hseen : s.LevelsSeen)
    (hbits : s.decoder.inFrame = true → s.decoder.bits.length < 8) : s.decoder.Fresh s.dir := by
  obtain ⟨-, hpull⟩ := hquiet
  obtain ⟨hclk, hdio⟩ := hseen
  exact ⟨hclk, by rw [hdio, State.levelDio, hpull], hbits⟩

section Commands

variable {s : State} (ha : s.Accepting) (hr : s.NoReset) (hquiet : s.SlaveQuiet)
include ha hr hquiet

theorem runCommand_start (h : s.decoder.Fresh s.dir) : ∃ t, runCommand .start s = .next t ∧ t.decoder =
    { clk := false, dio := false, inFrame := true, bits := [], cur := [], frames := s.decoder.allFrames } :=
  replay_start h ▸ runCommand_lineEvents _ ha hr hquiet rfl (by decide)

theorem runCommand_stop (h : s.decoder.Fresh s.dir) : ∃ t, runCommand .stop s = .next t ∧ t.decoder =
    { clk := true, dio := true, inFrame := false, bits := [], cur := [], frames := s.decoder.allFrames } :=
  replay_stop h ▸ runCommand_lineEvents _ ha hr hquiet rfl (by decide)

/-- The latches of a WRB outside a frame are ignored (20_memory.md R58). -/
theorem runCommand_wrb_outside (h : s.decoder.inFrame = false) (b : Byte) :
    ∃ t, runCommand (.wrb b) s = .next t ∧ t.decoder = { s.decoder with clk := false, dio := true } := by
  rw [runCommand_of_issue ((exec_wrb b s).trans (accept_of_accepting _ ha))]
  refine ⟨_, run_wrb 0 (s := s.setSeq (wrbList b)) (rest := []) hr (List.append_nil _).symm hquiet.1, ?_⟩
  show { s.decoder.latchByte b _ with clk := false, dio := true } = _
  rw [latchByte_outside b _ h]

end Commands

end Sys2Proof.Machine

section

open Sys2Proof Sys2Proof.Machine

/-- Settles O53: START and STOP keep every frame of the decoder, the open one with them, and a WRB outside a frame
latches nothing. -/
theorem framesOpenAndCloseFromAnyDirections : Obligations.FramesOpenAndCloseFromAnyDirections := by
  intro s ha hr hquiet hseen
  refine ⟨fun hin hbits => ?_, fun hout => ?_⟩
  · have hfresh := State.decoder_fresh hquiet hseen fun _ => hbits
    have hframes : s.decoder.allFrames = s.decoder.frames ++ [s.decoder.cur] := by
      simp [Decoder.allFrames, Decoder.closed, hin]
    obtain ⟨t, ht, hstart⟩ := runCommand_start ha hr hquiet hfresh
    obtain ⟨u, hu, hstop⟩ := runCommand_stop ha hr hquiet hfresh
    exact ⟨⟨t, ht, by simp [hstart, hframes]⟩, u, hu, by simp [hstop, hframes]⟩
  · have hfresh := State.decoder_fresh hquiet hseen fun hin => nomatch hout.symm.trans hin
    have hframes : s.decoder.allFrames = s.decoder.frames := by
      simp [Decoder.allFrames, Decoder.closed, hout]
    obtain ⟨t, ht, hstart⟩ := runCommand_start ha hr hquiet hfresh
    obtain ⟨u, hu, hstop⟩ := runCommand_stop ha hr hquiet hfresh
    refine ⟨⟨t, ht, by simp [hstart, hframes]⟩, ⟨u, hu, by simp [hstop, hframes]⟩, fun b => ?_⟩
    obtain ⟨w, hw, hwrb⟩ := runCommand_wrb_outside ha hr hquiet hout b
    exact ⟨w, hw, by simp [hwrb, hout]⟩

end

/-! The decoder in numbers, opcode by opcode: the opcode is `w / 65536` and ARG is `w % 65536`. -/

namespace Sys2Proof

/-- A must-be-0 field that is all of ARG from bit `lo` up. -/
theorem requireZero_argField (w : CommandWord) (lo len : Nat) (hlen : lo + len = 16) (i : Instr) :
    requireZero ((argField w).extractLsb' lo len) i =
      if w.toNat % 65536 < 2 ^ lo then .instr i else .rejected .mustBeZero := by
  have hfit : w.toNat % 65536 / 2 ^ lo < 2 ^ len := by
    rw [Nat.div_lt_iff_lt_mul (Nat.two_pow_pos lo), ← Nat.pow_add, Nat.add_comm, hlen]
    exact Nat.mod_lt _ (by decide)
  rw [requireZero_eq, argField_extract_toNat, Nat.mod_eq_of_lt hfit]
  simp [Nat.div_eq_zero_iff]

/-- A must-be-0 field that is the whole of ARG. -/
theorem requireZero_wholeArg (w : CommandWord) (i : Instr) :
    requireZero (argField w) i = if w.toNat % 65536 = 0 then .instr i else .rejected .mustBeZero := by
  rw [requireZero_eq, argField_toNat]

theorem argField_extract_low (w : CommandWord) (len : Nat) :
    (argField w).extractLsb' 0 len = BitVec.ofNat len (w.toNat % 65536) :=
  BitVec.eq_of_toNat_eq (by simp [argField_toNat])

theorem argField_eq_ofNat (w : CommandWord) : argField w = BitVec.ofNat 16 (w.toNat % 65536) :=
  BitVec.eq_of_toNat_eq (by simp [argField_toNat])

section Words

variable {w : CommandWord}

theorem decode_word_rel (h : w.toNat / 65536 = 0) : decode (.word w) =
    if w.toNat % 65536 < 2 then .instr (.rel (lineOfBit (decide (w.toNat % 2 = 1))))
    else .rejected .mustBeZero := by
  rw [← argField_bit0, decode, decodeWord, opField_toNat, h]
  exact requireZero_argField w 1 15 rfl _

theorem decode_word_low (h : w.toNat / 65536 = 1) : decode (.word w) =
    if w.toNat % 65536 < 2 then .instr (.low (lineOfBit (decide (w.toNat % 2 = 1))))
    else .rejected .mustBeZero := by
  rw [← argField_bit0, decode, decodeWord, opField_toNat, h]
  exact requireZero_argField w 1 15 rfl _

theorem decode_word_wait (h : w.toNat / 65536 = 2) : decode (.word w) =
    if w.toNat % 65536 = 0 then .instr .wait else .rejected .mustBeZero := by
  rw [decode, decodeWord, opField_toNat, h]
  exact requireZero_wholeArg w _

theorem decode_word_start (h : w.toNat / 65536 = 3) : decode (.word w) =
    if w.toNat % 65536 = 0 then .instr .start else .rejected .mustBeZero := by
  rw [decode, decodeWord, opField_toNat, h]
  exact requireZero_wholeArg w _

theorem decode_word_stop (h : w.toNat / 65536 = 4) : decode (.word w) =
    if w.toNat % 65536 = 0 then .instr .stop else .rejected .mustBeZero := by
  rw [decode, decodeWord, opField_toNat, h]
  exact requireZero_wholeArg w _

theorem decode_word_wrb (h : w.toNat / 65536 = 5) : decode (.word w) =
    if w.toNat % 65536 < 256 then .instr (.wrb (BitVec.ofNat 8 (w.toNat % 65536)))
    else .rejected .mustBeZero := by
  rw [← argField_extract_low, decode, decodeWord, opField_toNat, h]
  exact requireZero_argField w 8 8 rfl _

theorem decode_word_enc (h : w.toNat / 65536 = 6) : decode (.word w) =
    if w.toNat % 65536 < 16 then .instr (.enc (BitVec.ofNat 4 (w.toNat % 65536)))
    else .rejected .mustBeZero := by
  rw [← argField_extract_low, decode, decodeWord, opField_toNat, h]
  exact requireZero_argField w 4 12 rfl _

theorem decode_word_showNum (h : w.toNat / 65536 = 7) :
    decode (.word w) = .instr (.showNum (BitVec.ofNat 16 (w.toNat % 65536))) := by
  rw [← argField_eq_ofNat, decode, decodeWord, opField_toNat, h]
  rfl

theorem decode_word_reserved (h : 8 ≤ w.toNat / 65536) :
    decode (.word w) = .instr (.reserved (BitVec.ofNat 19 w.toNat)) := by
  obtain ⟨k, hk⟩ := Nat.exists_eq_add_of_le' h
  rw [decode, decodeWord, opField_toNat, hk]
  rfl

end Words

/-! The codes of the encoder in numbers. -/

/-- The line selector is bit 0 of the number it is read from. -/
theorem bitOfLine_lineOfBit_toNat (n : Nat) : (bitOfLine (lineOfBit (decide (n % 2 = 1)))).toNat = n % 2 := by
  obtain h | h := Nat.mod_two_eq_zero_or_one n <;> simp [h, lineOfBit, bitOfLine]

theorem relCode_toNat (l : Line) : (0x0#4 ++ 0#15 ++ bitOfLine l : CommandWord).toNat = (bitOfLine l).toNat :=
  (append_toNat (0x0#4 ++ 0#15) (bitOfLine l)).trans (Nat.zero_add _)

theorem lowCode_toNat (l : Line) :
    (0x1#4 ++ 0#15 ++ bitOfLine l : CommandWord).toNat = 0x10000 + (bitOfLine l).toNat :=
  append_toNat (0x1#4 ++ 0#15) (bitOfLine l)

theorem wrbCode_toNat (b : Byte) : (0x5#4 ++ 0#8 ++ b : CommandWord).toNat = 0x50000 + b.toNat :=
  append_toNat (0x5#4 ++ 0#8) b

theorem encCode_toNat (d : BitVec 4) : (0x6#4 ++ 0#12 ++ d : CommandWord).toNat = 0x60000 + d.toNat :=
  append_toNat (0x6#4 ++ 0#12) d

theorem showCode_toNat (n : BitVec 16) : (0x7#4 ++ n : CommandWord).toNat = 0x70000 + n.toNat :=
  append_toNat 0x7#4 n

theorem reservedCode_toNat (low : BitVec 19) : (1#1 ++ low : CommandWord).toNat = 0x80000 + low.toNat :=
  append_toNat 1#1 low

/-! The round trips. -/

theorem decode_encode (i : Instr) : decode (encode i) = .instr i := by
  cases i with
  | rel l => cases l <;> rfl
  | low l => cases l <;> rfl
  | wait => rfl
  | start => rfl
  | stop => rfl
  | wrb b =>
    have hw := wrbCode_toNat b
    have harg : (0x5#4 ++ 0#8 ++ b : CommandWord).toNat % 65536 = b.toNat := by omega
    rw [encode, decode_word_wrb (by omega), harg, if_pos b.isLt, BitVec.ofNat_toNat, BitVec.setWidth_eq]
  | enc d =>
    have hw := encCode_toNat d
    have harg : (0x6#4 ++ 0#12 ++ d : CommandWord).toNat % 65536 = d.toNat := by omega
    rw [encode, decode_word_enc (by omega), harg, if_pos d.isLt, BitVec.ofNat_toNat, BitVec.setWidth_eq]
  | showNum n =>
    have hw := showCode_toNat n
    have harg : (0x7#4 ++ n : CommandWord).toNat % 65536 = n.toNat := by omega
    rw [encode, decode_word_showNum (by omega), harg, BitVec.ofNat_toNat, BitVec.setWidth_eq]
  | reserved low =>
    have hw := reservedCode_toNat low
    have hlow : BitVec.ofNat 19 (1#1 ++ low : CommandWord).toNat = low := by
      apply BitVec.eq_of_toNat_eq
      rw [BitVec.toNat_ofNat]
      omega
    rw [encode, decode_word_reserved (by omega), hlow]
  | cmdData => rfl
  | cmdAddr => rfl
  | cmdDisp b => revert b; decide
  | segData p => rfl

/-- A guarded instruction decodes only when its guard holds. -/
theorem ite_eq_instr {p : Prop} [Decidable p] {i j : Instr} {r : Reject}
    (h : (if p then .instr j else .rejected r) = Decoded.instr i) : p ∧ i = j := by
  split at h
  · next hp => exact ⟨hp, (Decoded.instr.inj h).symm⟩
  · cases h

theorem word_eq_of_toNat_eq {x w : CommandWord} (h : x.toNat = w.toNat) : Code.word x = .word w :=
  congrArg Code.word (BitVec.eq_of_toNat_eq h)

theorem encode_of_decode_word {w : CommandWord} {i : Instr} (h : decode (.word w) = .instr i) :
    encode i = .word w := by
  have hw := w.isLt
  obtain hop | hop | hop | hop | hop | hop | hop | hop | hop :
      w.toNat / 65536 = 0 ∨ w.toNat / 65536 = 1 ∨ w.toNat / 65536 = 2 ∨ w.toNat / 65536 = 3 ∨
      w.toNat / 65536 = 4 ∨ w.toNat / 65536 = 5 ∨ w.toNat / 65536 = 6 ∨ w.toNat / 65536 = 7 ∨
      8 ≤ w.toNat / 65536 := by omega
  · obtain ⟨harg, rfl⟩ := ite_eq_instr ((decode_word_rel hop).symm.trans h)
    exact word_eq_of_toNat_eq (by rw [relCode_toNat, bitOfLine_lineOfBit_toNat]; omega)
  · obtain ⟨harg, rfl⟩ := ite_eq_instr ((decode_word_low hop).symm.trans h)
    exact word_eq_of_toNat_eq (by rw [lowCode_toNat, bitOfLine_lineOfBit_toNat]; omega)
  · obtain ⟨harg, rfl⟩ := ite_eq_instr ((decode_word_wait hop).symm.trans h)
    exact word_eq_of_toNat_eq (show 0x20000 = w.toNat by omega)
  · obtain ⟨harg, rfl⟩ := ite_eq_instr ((decode_word_start hop).symm.trans h)
    exact word_eq_of_toNat_eq (show 0x30000 = w.toNat by omega)
  · obtain ⟨harg, rfl⟩ := ite_eq_instr ((decode_word_stop hop).symm.trans h)
    exact word_eq_of_toNat_eq (show 0x40000 = w.toNat by omega)
  · obtain ⟨harg, rfl⟩ := ite_eq_instr ((decode_word_wrb hop).symm.trans h)
    exact word_eq_of_toNat_eq (by rw [wrbCode_toNat, BitVec.toNat_ofNat]; omega)
  · obtain ⟨harg, rfl⟩ := ite_eq_instr ((decode_word_enc hop).symm.trans h)
    exact word_eq_of_toNat_eq (by rw [encCode_toNat, BitVec.toNat_ofNat]; omega)
  · obtain rfl := Decoded.instr.inj ((decode_word_showNum hop).symm.trans h)
    exact word_eq_of_toNat_eq (by rw [showCode_toNat, BitVec.toNat_ofNat]; omega)
  · obtain rfl := Decoded.instr.inj ((decode_word_reserved hop).symm.trans h)
    exact word_eq_of_toNat_eq (by rw [reservedCode_toNat, BitVec.toNat_ofNat]; omega)

/-- A byte with the fixed bits of CMD_DISP is neither of the other two commands (30_encoding.md R75). -/
theorem decode_commandByte_disp {b : Byte} (h : b &&& 0xF8#8 = 0x88#8) :
    decode (.commandByte b) = .instr (.cmdDisp (b.extractLsb' 0 3)) := by
  have hdata : b ≠ 0x40#8 := by rintro rfl; exact absurd h (by decide)
  have haddr : b ≠ 0xC0#8 := by rintro rfl; exact absurd h (by decide)
  rw [decode, decodeCommandByte, if_neg hdata, if_neg haddr, if_pos h]

theorem encode_of_decode_commandByte {b : Byte} {i : Instr} (h : decode (.commandByte b) = .instr i) :
    encode i = .commandByte b := by
  rw [Machine.decodeCommandByte_eq] at h
  split at h
  · next hb => cases h; exact congrArg _ hb.symm
  split at h
  · next hb => cases h; exact congrArg _ hb.symm
  obtain ⟨hhigh, rfl⟩ := ite_eq_instr h
  rw [encode, ← hhigh]
  refine congrArg Code.commandByte (BitVec.eq_of_toNat_eq ?_)
  rw [append_toNat, BitVec.extractLsb'_toNat, BitVec.extractLsb'_toNat, Nat.shiftRight_eq_div_pow]
  have := b.isLt
  simp only [Nat.shiftRight_zero]
  omega

theorem encode_of_decode {c : Code} {i : Instr} (h : decode c = .instr i) : encode i = c := by
  cases c with
  | word w => exact encode_of_decode_word h
  | commandByte b => exact encode_of_decode_commandByte h
  | dataByte b => cases h; rfl

/-! The rows of the opcode table. -/

/-- Every instruction's code lies in its row, collected from the lemmas per constructor. -/
theorem encode_in_row (i : Instr) : Laws.EncodingInRow.Statement i := by
  cases i with
  | rel l => exact Laws.EncodingInRow.rel l
  | low l => exact Laws.EncodingInRow.low l
  | wait => exact Laws.EncodingInRow.wait
  | start => exact Laws.EncodingInRow.start
  | stop => exact Laws.EncodingInRow.stop
  | wrb b => exact Laws.EncodingInRow.wrb b
  | enc d => exact Laws.EncodingInRow.enc d
  | showNum n => exact Laws.EncodingInRow.showNum n
  | reserved low => exact Laws.EncodingInRow.reserved low
  | cmdData => exact Laws.EncodingInRow.cmdData
  | cmdAddr => exact Laws.EncodingInRow.cmdAddr
  | cmdDisp b => exact Laws.EncodingInRow.cmdDisp b
  | segData p => exact Laws.EncodingInRow.segData p

/-- Rows that hold for one code agree on every bit both fix. -/
theorem not_disjoint_of_holds {r q : OpcodeRow} {bits : Nat} (hr : r.holds bits = true) (hq : q.holds bits = true) :
    r.disjoint q = false := by
  rw [OpcodeRow.holds, beq_iff_eq] at hr hq
  rw [OpcodeRow.disjoint, bne_eq_false_iff_eq, ← hr, ← hq, Nat.and_assoc, Nat.and_assoc, Nat.and_comm r.mask]

/-- Two rows of one place are the same row, or differ in a bit both fix and in their mnemonic. -/
theorem rows_distinct (c : Code) : ∀ r ∈ c.rows, ∀ q ∈ c.rows,
    r = q ∨ r.disjoint q = true ∧ r.mnemonic ≠ q.mnemonic := by
  cases c with
  | word w => exact show ∀ r ∈ commandRows, ∀ q ∈ commandRows, _ by decide
  | commandByte b => exact show ∀ r ∈ commandByteRows, ∀ q ∈ commandByteRows, _ by decide
  | dataByte b => exact show ∀ r ∈ dataByteRows, ∀ q ∈ dataByteRows, _ by decide

/-- The row of an instruction is the only row of its place that its code lies in. -/
theorem row_holds_iff (i : Instr) {r : OpcodeRow} (hr : r ∈ (encode i).rows) :
    r.holds (encode i).bits = true ↔ r.mnemonic = i.mnemonic := by
  obtain ⟨q, hq, hname, hholds⟩ := encode_in_row i
  obtain rfl | ⟨hdisjoint, hne⟩ := rows_distinct _ r hr q hq
  · exact iff_of_true hholds hname
  · exact iff_of_false (fun h => absurd hdisjoint (by simp [not_disjoint_of_holds h hholds])) (hname ▸ hne)

/-- A command row whose mask is the bits from `k` up fixes the number of those bits. -/
theorem holds_word_iff {w : CommandWord} {name : String} {value : Nat} (k : Nat) (hk : k ≤ 20) :
    OpcodeRow.holds ⟨name, 20, value, (2 ^ (20 - k) - 1) * 2 ^ k⟩ w.toNat = true ↔
      w.toNat / 2 ^ k * 2 ^ k = value := by
  rw [OpcodeRow.holds, beq_iff_eq, and_highMask _ k hk w.isLt]

theorem holds_byte_iff {name : String} (b value mask : Byte) :
    OpcodeRow.holds ⟨name, 8, value.toNat, mask.toNat⟩ b.toNat = true ↔ b &&& mask = value := by
  rw [OpcodeRow.holds, beq_iff_eq, ← BitVec.toNat_and, BitVec.toNat_inj]

/-- A word in a row of the table decodes. -/
theorem decode_of_commandRow {w : CommandWord} {r : OpcodeRow} (hr : r ∈ commandRows)
    (h : r.holds w.toNat = true) : ∃ i, decode (.word w) = .instr i := by
  simp only [commandRows, List.mem_cons, List.not_mem_nil, or_false] at hr
  obtain rfl | rfl | rfl | rfl | rfl | rfl | rfl | rfl | rfl := hr
  · replace h := (holds_word_iff 1 (by decide)).mp h
    exact ⟨_, (decode_word_rel (by omega)).trans (if_pos (by omega))⟩
  · replace h := (holds_word_iff 1 (by decide)).mp h
    exact ⟨_, (decode_word_low (by omega)).trans (if_pos (by omega))⟩
  · replace h := (holds_word_iff 0 (by decide)).mp h
    exact ⟨_, (decode_word_wait (by omega)).trans (if_pos (by omega))⟩
  · replace h := (holds_word_iff 0 (by decide)).mp h
    exact ⟨_, (decode_word_start (by omega)).trans (if_pos (by omega))⟩
  · replace h := (holds_word_iff 0 (by decide)).mp h
    exact ⟨_, (decode_word_stop (by omega)).trans (if_pos (by omega))⟩
  · replace h := (holds_word_iff 8 (by decide)).mp h
    exact ⟨_, (decode_word_wrb (by omega)).trans (if_pos (by omega))⟩
  · replace h := (holds_word_iff 4 (by decide)).mp h
    exact ⟨_, (decode_word_enc (by omega)).trans (if_pos (by omega))⟩
  · replace h := (holds_word_iff 16 (by decide)).mp h
    exact ⟨_, decode_word_showNum (by omega)⟩
  · replace h := (holds_word_iff 19 (by decide)).mp h
    exact ⟨_, decode_word_reserved (by omega)⟩

/-- A frame's first byte in a row of the table decodes. -/
theorem decode_of_commandByteRow {b : Byte} {r : OpcodeRow} (hr : r ∈ commandByteRows)
    (h : r.holds b.toNat = true) : ∃ i, decode (.commandByte b) = .instr i := by
  simp only [commandByteRows, List.mem_cons, List.not_mem_nil, or_false] at hr
  obtain rfl | rfl | rfl := hr
  · obtain rfl := BitVec.and_allOnes.symm.trans ((holds_byte_iff b 0x40#8 0xFF#8).mp h)
    exact ⟨_, rfl⟩
  · obtain rfl := BitVec.and_allOnes.symm.trans ((holds_byte_iff b 0xC0#8 0xFF#8).mp h)
    exact ⟨_, rfl⟩
  · exact ⟨_, decode_commandByte_disp ((holds_byte_iff b 0x88#8 0xF8#8).mp h)⟩

theorem decode_of_row {c : Code} {r : OpcodeRow} (hr : r ∈ c.rows) (h : r.holds c.bits = true) :
    ∃ i, decode c = .instr i := by
  cases c with
  | word w => exact decode_of_commandRow hr h
  | commandByte b => exact decode_of_commandByteRow hr h
  | dataByte b => exact ⟨_, rfl⟩

end Sys2Proof

/-! A word at the port and the faults it can take. -/

namespace Sys2Proof.Machine

theorem raiseFault_of_accepting {s : State} (h : s.Accepting) (kind : FaultKind) :
    s.raiseFault kind = { s with fault := kind, seq := [] } := by
  simp [State.raiseFault, h.2]

theorem lookUpDigit_of_invalid {d : BitVec 4} (h : 9 < d.toNat) (s : State) :
    s.lookUpDigit d = s.raiseFault .invalidDigit := by
  simp [State.lookUpDigit, digitIndex, show ¬ d.toNat < 10 by omega]

theorem exec_enc_invalid {d : BitVec 4} {s : State} (h : 9 < d.toNat) (ha : s.Accepting) :
    exec (.enc d) s = .next { s with fault := .invalidDigit, seq := [] } := by
  rw [exec_enc, accept_of_accepting _ ha, lookUpDigit_of_invalid h, raiseFault_of_accepting ha]

theorem exec_reserved_of_accepting {s : State} (ha : s.Accepting) (low : BitVec 19) :
    exec (.reserved low) s = .next { s with fault := .illegalCommand, seq := [] } := by
  rw [exec_reserved, accept_of_accepting _ ha, raiseFault_of_accepting ha]

theorem rejectWord_of_accepting {s : State} (ha : s.Accepting) (r : Reject) :
    rejectWord r s = .next { s with fault := .illegalCommand, seq := [] } := by
  rw [rejectWord, accept_of_accepting _ ha, raiseFault_of_accepting ha]

/-- A word written out is its operation where it decodes to it. -/
theorem acceptWord_of_toNat {w : CommandWord} {n : Nat} {i : Instr} (hw : w.toNat = n)
    (hi : decode (.word (BitVec.ofNat 20 n)) = .instr i) (s : State) : acceptWord w s = exec i s := by
  apply acceptWord_of_instr
  rwa [← hw, BitVec.ofNat_toNat, BitVec.setWidth_eq] at hi

end Sys2Proof.Machine

/-! The statements about the encoding. -/

section

open Sys2Proof Sys2Proof.Machine

/-- Settles O1: each code, read as a number, gives its opcode and its operands back. -/
theorem encodedInstructionDecodesToItself : Obligations.EncodedInstructionDecodesToItself :=
  decode_encode

/-- Settles O2: opcode by opcode, the must-be-0 field and the operands make up the whole code. -/
theorem decodedCodeIsTheEncodingOfItsInstruction : Obligations.DecodedCodeIsTheEncodingOfItsInstruction :=
  fun _ _ => encode_of_decode

/-- Settles O3: a code that decodes is an instruction's encoding, which lies in its own row and in no other, and a
code in any row decodes. -/
theorem decoderFollowsTheOpcodeTable : Obligations.DecoderFollowsTheOpcodeTable := by
  refine fun c => ⟨fun i hi => ?_, fun x hx r hr => ?_⟩
  · obtain rfl := encode_of_decode hi
    obtain ⟨r, hr, hname, -⟩ := encode_in_row i
    exact ⟨⟨r, hr, hname⟩, fun q hq => row_holds_iff i hq⟩
  · by_contra hholds
    obtain ⟨i, hi⟩ := decode_of_row hr (Bool.not_eq_false _ ▸ hholds)
    cases hx.symm.trans hi

/-- Settles O5: the decoder opcode by opcode, then the meaning or the fault. -/
theorem wordAtThePortIsCheckedInOrder : Obligations.WordAtThePortIsCheckedInOrder := by
  intro s w ha
  refine ⟨fun hop => ?reserved, fun hop harg => ?line, fun h2 h4 harg => ?plain, fun hop harg => ?wrbReject,
    fun hop harg => ?encReject, fun hop harg hd => ?digit, fun hw => acceptWord_of_toNat hw rfl s,
    fun hw => acceptWord_of_toNat hw rfl s, fun hw => acceptWord_of_toNat hw rfl s,
    fun hw => acceptWord_of_toNat hw rfl s, fun hw => acceptWord_of_toNat hw rfl s,
    fun hw => acceptWord_of_toNat hw rfl s, fun hw => acceptWord_of_toNat hw rfl s, fun hop harg => ?wrb,
    fun hop harg => ?enc, fun hop => ?showNum⟩
  case reserved =>
    exact (acceptWord_of_instr (decode_word_reserved hop) s).trans (exec_reserved_of_accepting ha _)
  case line =>
    obtain hop | hop : w.toNat / 65536 = 0 ∨ w.toNat / 65536 = 1 := by omega
    · exact acceptWord_of_rejected ((decode_word_rel hop).trans (if_neg (by omega))) ha
    · exact acceptWord_of_rejected ((decode_word_low hop).trans (if_neg (by omega))) ha
  case plain =>
    obtain hop | hop | hop : w.toNat / 65536 = 2 ∨ w.toNat / 65536 = 3 ∨ w.toNat / 65536 = 4 := by omega
    · exact acceptWord_of_rejected ((decode_word_wait hop).trans (if_neg (by omega))) ha
    · exact acceptWord_of_rejected ((decode_word_start hop).trans (if_neg (by omega))) ha
    · exact acceptWord_of_rejected ((decode_word_stop hop).trans (if_neg (by omega))) ha
  case wrbReject => exact acceptWord_of_rejected ((decode_word_wrb hop).trans (if_neg (by omega))) ha
  case encReject => exact acceptWord_of_rejected ((decode_word_enc hop).trans (if_neg (by omega))) ha
  case digit =>
    have hdigit : 9 < (BitVec.ofNat 4 (w.toNat % 65536)).toNat := by rw [BitVec.toNat_ofNat]; omega
    exact (acceptWord_of_instr ((decode_word_enc hop).trans (if_pos harg)) s).trans (exec_enc_invalid hdigit ha)
  case wrb => exact acceptWord_of_instr ((decode_word_wrb hop).trans (if_pos harg)) s
  case enc => exact acceptWord_of_instr ((decode_word_enc hop).trans (if_pos (by omega))) s
  case showNum => exact acceptWord_of_instr (decode_word_showNum hop) s

/-- Settles O6: the fixed bits of the display-control byte, and its match and mask. -/
theorem displayControlByteKeepsItsFixedBits : Obligations.DisplayControlByteKeepsItsFixedBits := by
  have hfixed : ∀ b : BitVec 3, (0b10001#5 ++ b : Byte) &&& 0xF8#8 = 0x88#8 := by decide
  refine ⟨fun b => ?_, fun x => ⟨fun ⟨b, hb⟩ => ?_, fun h => ⟨_, decode_commandByte_disp h⟩⟩, decode_dispControl⟩
  · exact Code.commandByte.inj (encode_of_decode (decode_dispControl b)).symm
  · obtain rfl := Code.commandByte.inj (encode_of_decode hb)
    exact hfixed b

/-- Settles O16: both are accepted, and their effect is the fault. -/
theorem faultingCommandsTakeTheirFault : Obligations.FaultingCommandsTakeTheirFault :=
  fun _ ha => ⟨exec_reserved_of_accepting ha, rejectWord_of_accepting ha⟩

end

/-! Issuing a list of micro-ops, as six of the commands do: SEQ changes and nothing else. -/

namespace Sys2Proof.Machine

theorem issue_of_accepting (q : List MicroOp) {s : State} (h : s.Accepting) : issue q s = .next (s.setSeq q) :=
  accept_of_accepting _ h

theorem issue_next {q : List MicroOp} {s t : State} (h : issue q s = .next t) : t = s.setSeq q :=
  (accept_next h).2

theorem sameRegisters_setSeq (s : State) (q : List MicroOp) : SameRegisters s (s.setSeq q) :=
  ⟨rfl, rfl, rfl, rfl, rfl, rfl, rfl, rfl⟩

theorem sameBus_setSeq (s : State) (q : List MicroOp) : SameBus s (s.setSeq q) := ⟨rfl, rfl, rfl, rfl, rfl⟩

theorem sameDisplay_setSeq (s : State) (q : List MicroOp) : SameDisplay s (s.setSeq q) := ⟨rfl, fun _ => rfl⟩

/-! REL, LOW and WAIT: each enqueues one micro-op, so one step after its issue the block accepts again. -/

/-- A command whose expansion is one micro-op ends in what that micro-op does to the accepting state. -/
theorem runCommand_of_microOp {i : Instr} {m : MicroOp} {s t : State} (ha : s.Accepting) (hr : s.NoReset)
    (hi : exec i s = issue [m] s) (hm : perform m s = .next t) : runCommand i s = .next t := by
  have hidle : (s.setSeq [m]).setSeq [] = s := by rw [State.setSeq_setSeq, ← ha.1]; rfl
  rw [runCommand_of_issue (hi.trans (issue_of_accepting [m] ha))]
  exact run_of_seq 0 hr rfl (hidle.symm ▸ hm)

section LineCommands

variable {s : State} (ha : s.Accepting) (hr : s.NoReset)
include ha hr

theorem runCommand_rel (l : Line) : runCommand (.rel l) s = .next (s.releaseLine l) :=
  runCommand_of_microOp ha hr rfl rfl

theorem runCommand_low (l : Line) : runCommand (.low l) s = .next (s.assertLine l) :=
  runCommand_of_microOp ha hr rfl rfl

theorem runCommand_wait : runCommand .wait s = .next (s.emit .wait) :=
  runCommand_of_microOp ha hr rfl rfl

/-- A line command gives its line its direction and leaves the block ready for the next command. -/
theorem runCommand_lineCommand (c : Line × Dir) :
    ∃ t, runCommand (lineCommand c) s = .next t ∧ t.Accepting ∧ t.NoReset ∧ t.dir = s.dir.set c.1 c.2 := by
  obtain ⟨l, x⟩ := c
  cases x with
  | released => exact ⟨_, runCommand_rel ha hr l, ha, hr, rfl⟩
  | assertedLow => exact ⟨_, runCommand_low ha hr l, ha, hr, rfl⟩

end LineCommands

theorem runCommands_cons_of_next {i : Instr} {s t : State} (rest : List Instr) (h : runCommand i s = .next t) :
    runCommands (i :: rest) s = runCommands rest t := by
  rw [runCommands, h]

theorem Lines.get_set (dir : Lines) (k l : Line) (x : Dir) :
    (dir.set k x).get l = if k = l then x else dir.get l := by
  by_cases h : k = l
  · rw [if_pos h, h, Lines.get_set_self]
  · rw [if_neg h, Lines.get_set_other dir x (Ne.symm h)]

end Sys2Proof.Machine

section

open Sys2Proof Sys2Proof.Machine

/-- Settles O46: each ends in the state its one micro-op leaves. -/
theorem lineCommandsRunToTheirEnd : Obligations.LineCommandsRunToTheirEnd :=
  fun s ha hr => ⟨
    fun l => ⟨_, runCommand_rel ha hr l, rfl, rfl, sameRegisters_releaseLine s l, ha⟩,
    fun l => ⟨_, runCommand_low ha hr l, rfl, rfl, sameRegisters_assertLine s l, ha⟩,
    ⟨_, runCommand_wait ha hr, rfl, rfl, sameRegisters_emit s .wait, ha⟩⟩

/-- Settles O57, by induction on the commands: the first sets its line, and the rest begin from there. -/
theorem lastCommandSetsTheDirection : Obligations.LastCommandSetsTheDirection := by
  intro cs
  induction cs with
  | nil => exact fun s ha _ => ⟨s, rfl, ha, fun _ => rfl⟩
  | cons c rest ih =>
    intro s ha hr
    obtain ⟨u, hu, uaccepting, unoReset, udir⟩ := runCommand_lineCommand ha hr c
    obtain ⟨t, ht, taccepting, tdir⟩ := ih u uaccepting unoReset
    refine ⟨t, (runCommands_cons_of_next _ hu).trans ht, taccepting, fun l => ?_⟩
    rw [tdir, udir, Lines.get_set, lastDir]

/-- Settles O4: each word is the code of its instruction. -/
theorem specWordsDecodeToTheirInstructions : Obligations.SpecWordsDecodeToTheirInstructions :=
  ⟨decode_encode (.rel .clk), decode_encode (.rel .dio), decode_encode (.low .clk), decode_encode (.low .dio),
    decode_encode .wait, decode_encode .start, decode_encode .stop, decode_encode (.wrb 0x40#8),
    decode_encode (.enc 9#4), decode_encode (.showNum 1234#16), decode_encode .cmdData, decode_encode .cmdAddr,
    decode_encode (.cmdDisp 7#3), decode_encode (.segData 0x40#8)⟩

/-- Settles O20: an accepting block takes each of them, and its effect sets SEQ. -/
theorem lineCommandsCompleteWithOneMicroOp : Obligations.LineCommandsCompleteWithOneMicroOp :=
  fun _ ha => ⟨fun l => issue_of_accepting [.rel l] ha, fun l => issue_of_accepting [.low l] ha,
    issue_of_accepting [.wait] ha⟩

/-- Settles O22: all six are issued as a list of micro-ops, and issuing a list sets SEQ only. -/
theorem issuedBusCommandsChangeSeqOnly : Obligations.IssuedBusCommandsChangeSeqOnly := by
  intro i s t hi h
  have hissue : ∃ q, exec i s = issue q s := by
    obtain ⟨l, rfl⟩ | ⟨l, rfl⟩ | rfl | rfl | rfl | ⟨b, rfl⟩ := hi <;> exact ⟨_, rfl⟩
  obtain ⟨q, hq⟩ := hissue
  obtain rfl := issue_next (hq.symm.trans h)
  exact ⟨sameRegisters_setSeq s q, sameBus_setSeq s q, sameDisplay_setSeq s q, rfl, rfl⟩

end

/-! The acknowledge is ignored (41_bus_protocol.md R93): every operation of a busy block takes two states that
differ in the slave and in what it has answered to two such states. -/

namespace Sys2Proof.Machine

namespace SlaveBlind

variable {s t : State}

theorem readSR_eq (h : SlaveBlind s t) : t.readSR = s.readSR := by
  rw [State.readSR, State.readSR, h.sr, h.unwrittenReads]

theorem readBC_eq (h : SlaveBlind s t) : t.readBC = s.readBC := by
  rw [State.readBC, State.readBC, h.bc, h.unwrittenReads]

theorem resetAsserted_eq (h : SlaveBlind s t) : t.resetAsserted = s.resetAsserted := by
  rw [State.resetAsserted, State.resetAsserted, h.port]

theorem setSeq (h : SlaveBlind s t) (q : List MicroOp) : SlaveBlind (s.setSeq q) (t.setSeq q) :=
  { h with seq := rfl }

theorem tick (h : SlaveBlind s t) : SlaveBlind s.tick t.tick :=
  { h with port := by rw [State.tick_port, State.tick_port, h.port] }

theorem setSerializer (h : SlaveBlind s t) (v : Byte) (c : BitVec 4) :
    SlaveBlind (s.setSerializer v c) (t.setSerializer v c) :=
  { h with sr := rfl, bc := rfl }

theorem noteRead (h : SlaveBlind s t) (b : Bool) : SlaveBlind (s.noteRead b) (t.noteRead b) :=
  { h with unwrittenReads := congrArg (· + b.toNat) h.unwrittenReads }

theorem endFrame (h : SlaveBlind s t) : SlaveBlind s.endFrame t.endFrame :=
  { h with d := rfl, p := rfl }

/-- Two events that are one but for a sampled value; what the slave and the decoder make of them is no part of
the relation. -/
theorem emit {e f : Event} (h : SlaveBlind s t) (he : f.blind = e.blind) : SlaveBlind (s.emit e) (t.emit f) :=
  { h with
    events := by
      rw [State.emit_trace, State.emit_trace, List.map_append, List.map_append, h.events, List.map_singleton,
        List.map_singleton, he] }

theorem setDir (h : SlaveBlind s t) (l : Line) (x : Dir) : SlaveBlind (s.setDir l x) (t.setDir l x) :=
  { h with dir := congrArg (·.set l x) h.dir }

theorem setSlave (h : SlaveBlind s t) (v w : Slave) : SlaveBlind (s.setSlave v) (t.setSlave w) := { h with }

theorem setAck (h : SlaveBlind s t) (v w : Bool) : SlaveBlind (s.setAck v) (t.setAck w) := { h with }

theorem releaseLine (h : SlaveBlind s t) (l : Line) : SlaveBlind (s.releaseLine l) (t.releaseLine l) :=
  (h.setDir l .released).emit rfl

theorem assertLine (h : SlaveBlind s t) (l : Line) : SlaveBlind (s.assertLine l) (t.assertLine l) :=
  ((h.setDir l .assertedLow).setSlave _ _).emit rfl

theorem sampleAck (h : SlaveBlind s t) : SlaveBlind s.sampleAck t.sampleAck := (h.setAck _ _).emit rfl

theorem outBit (h : SlaveBlind s t) : SlaveBlind s.outBit t.outBit := by
  unfold State.outBit
  rw [h.readSR_eq, h.sr]
  split
  · exact (h.noteRead _).releaseLine .dio
  · exact (h.noteRead _).assertLine .dio

theorem shift (h : SlaveBlind s t) : SlaveBlind s.shift t.shift := by
  unfold State.shift
  rw [h.readSR_eq, h.readBC_eq, h.sr, h.bc]
  exact (h.noteRead _).setSerializer _ _

theorem applyReset (h : SlaveBlind s t) : SlaveBlind s.applyReset t.applyReset where
  dir := rfl
  sr := rfl
  bc := rfl
  n := rfl
  d := rfl
  p := rfl
  segout := rfl
  seq := rfl
  fault := rfl
  port := h.tick.port
  unwrittenReads := h.unwrittenReads
  events := rfl

theorem perform (h : SlaveBlind s t) (m : MicroOp) :
    ∃ s' t', Machine.perform m s = .next s' ∧ Machine.perform m t = .next t' ∧ SlaveBlind s' t' := by
  cases m with
  | rel l => exact ⟨_, _, rfl, rfl, h.releaseLine l⟩
  | low l => exact ⟨_, _, rfl, rfl, h.assertLine l⟩
  | wait => exact ⟨_, _, rfl, rfl, h.emit rfl⟩
  | sample => exact ⟨_, _, rfl, rfl, h.sampleAck⟩
  | loadSR b => exact ⟨_, _, rfl, rfl, h.setSerializer b 0#4⟩
  | outBit => exact ⟨_, _, rfl, rfl, h.outBit⟩
  | shift => exact ⟨_, _, rfl, rfl, h.shift⟩
  | endFrame => exact ⟨_, _, rfl, rfl, h.endFrame⟩

theorem step_of_busy (h : SlaveBlind s t) (hb : s.busy = true) :
    ∃ s' t', step s = .next s' ∧ step t = .next t' ∧ SlaveBlind s' t' := by
  cases hr : s.resetAsserted with
  | true => exact ⟨_, _, step_of_reset hr, step_of_reset (h.resetAsserted_eq.trans hr), h.applyReset⟩
  | false =>
    cases hq : s.seq with
    | nil => simp [State.busy, hq] at hb
    | cons m rest =>
      rw [Machine.step_of_busy hr hq, Machine.step_of_busy (h.resetAsserted_eq.trans hr) (h.seq.trans hq)]
      exact (h.tick.setSeq rest).perform m

end SlaveBlind

end Sys2Proof.Machine

/-! START, STOP and WRB run to their end from every accepting state, whatever the slave and the decoder hold. -/

namespace Sys2Proof.Machine

/-- The six events of START (41_bus_protocol.md R90). -/
def startEvents : List Event := [.rel .dio, .rel .clk, .wait, .low .dio, .wait, .low .clk]

/-- The seven events of STOP (41_bus_protocol.md R94). -/
def stopEvents : List Event := [.low .clk, .wait, .low .dio, .wait, .rel .clk, .wait, .rel .dio]

theorem SameRegisters.trans {s t u : State} (h : SameRegisters s t) (h' : SameRegisters t u) : SameRegisters s u := by
  obtain ⟨sr, bc, ack, n, d, p, segout, reads⟩ := h
  obtain ⟨sr', bc', ack', n', d', p', segout', reads'⟩ := h'
  exact ⟨sr'.trans sr, bc'.trans bc, ack'.trans ack, n'.trans n, d'.trans d, p'.trans p, segout'.trans segout,
    reads'.trans reads⟩

theorem sameRegisters_lineOp {e : Event} {s t : State} (he : lineOp e ≠ .sample)
    (h : perform (lineOp e) s = .next t) : SameRegisters s t := by
  cases e with
  | rel l => exact Host.Outcome.next.inj h ▸ sameRegisters_releaseLine s l
  | low l => exact Host.Outcome.next.inj h ▸ sameRegisters_assertLine s l
  | wait => exact Host.Outcome.next.inj h ▸ sameRegisters_emit s .wait
  | sample v => exact absurd rfl he

/-- A block whose SEQ emits some line events runs to its end: the lines follow the events, and the registers
stay. -/
theorem run_lineEvents_registers (es : List Event) : ∀ s : State, s.NoReset → .sample ∉ es.map lineOp →
    s.seq = es.map lineOp →
    ∃ t, run es.length s = .next t ∧ t.dir = es.foldl Lines.afterEvent s.dir ∧ t.trace = s.trace ++ es ∧
      SameRegisters s t := by
  induction es with
  | nil => exact fun s _ _ _ => ⟨s, rfl, rfl, (List.append_nil _).symm, sameRegisters_setSeq s s.seq⟩
  | cons e es ih =>
    intro s hr hsample hq
    obtain ⟨hhead, htail⟩ := List.ne_and_not_mem_of_not_mem_cons hsample
    obtain ⟨u, hu, hev⟩ := perform_lineOp (s := s.setSeq (es.map lineOp)) (Ne.symm hhead)
    obtain ⟨useq, -, -, -, uport⟩ := perform_keeps hu
    obtain ⟨t, ht, tdir, ttrace, tregs⟩ := ih u (by rw [State.NoReset, uport]; exact hr) htail useq
    refine ⟨t, (run_of_seq _ hr hq hu).trans ht, by rw [tdir, hev.dir]; rfl, ?_,
      (sameRegisters_lineOp (Ne.symm hhead) hu).trans tregs⟩
    rw [ttrace, hev.trace, List.append_assoc]
    rfl

/-- A command issued as a list of micro-ops leaves the block ready for the next one. -/
theorem runCommand_ready {i : Instr} {q : List MicroOp} {s t : State} (ha : s.Accepting) (hr : s.NoReset)
    (hi : exec i s = issue q s) (h : runCommand i s = .next t) : t.Accepting ∧ t.NoReset := by
  obtain ⟨u, hu, useq, ufault, uport⟩ := run_seq_to_end q (s.setSeq q) hr rfl
  rw [runCommand_of_issue (hi.trans (issue_of_accepting q ha)), hu] at h
  obtain rfl := Host.Outcome.next.inj h
  exact ⟨⟨useq, ufault.trans ha.2⟩, by rw [State.NoReset, uport]; exact hr⟩

/-- A command whose expansion emits some line events ends with them in TRACE and the lines where they lead. -/
theorem runCommand_lineEvents_ends {i : Instr} {s : State} (es : List Event) (ha : s.Accepting) (hr : s.NoReset)
    (hi : exec i s = issue (es.map lineOp) s) (hes : .sample ∉ es.map lineOp) :
    ∃ t, runCommand i s = .next t ∧ t.dir = es.foldl Lines.afterEvent s.dir ∧ t.trace = s.trace ++ es ∧
      SameRegisters s t ∧ t.Accepting ∧ t.NoReset := by
  obtain ⟨t, ht, tdir, ttrace, tregs⟩ := run_lineEvents_registers es (s.setSeq (es.map lineOp)) hr hes rfl
  have hrun : runCommand i s = .next t := by
    rw [runCommand_of_issue (hi.trans (issue_of_accepting _ ha)), List.length_map, ht]
  exact ⟨t, hrun, tdir, ttrace, tregs, runCommand_ready ha hr hi hrun⟩

/-- The state with its acknowledge window, if one stands open, closed. -/
def State.closeWindow (s : State) : State := s.setSlave { s.slave with window := false }

theorem closeWindow_of_closed {s : State} (h : s.slave.window = false) : s.closeWindow = s := by
  rw [State.closeWindow, ← h]
  rfl

/-- A `Low(CLK)` that opens no window goes on as if none had been open: it closes one that is. -/
theorem run_low_clk_closes (k : Nat) {s : State} {rest : List MicroOp} (h : s.NoReset)
    (hq : s.seq = .low .clk :: rest) (hr : rest.take 6 ≠ ackTail) :
    run (k + 1) s = run (k + 1) s.closeWindow := by
  cases hw : s.slave.window with
  | false => rw [closeWindow_of_closed hw]
  | true => exact (run_close_window k h hq hw).trans (run_low_clk k (s := s.closeWindow) h hq rfl hr).symm

/-- A byte write from any slave: its first `Low(CLK)` closes a window that stands open. -/
theorem run_wrb_closing (k : Nat) {s : State} {b : Byte} {rest : List MicroOp} (h : s.NoReset)
    (hq : s.seq = wrbList b ++ rest) : run (k + 56) s = run k (s.closeWindow.afterWrb b rest) :=
  calc run (k + 56) s = run (k + 55) _ := run_of_seq (k + 55) h hq rfl
    _ = run (k + 55) _ := run_low_clk_closes (k + 54) h rfl (by simp [ackTail])
    _ = run (k + 56) s.closeWindow := (run_of_seq (k + 55) (s := s.closeWindow) h hq rfl).symm
    _ = run k (s.closeWindow.afterWrb b rest) := run_wrb k h hq rfl

section Commands

variable {s : State} (ha : s.Accepting) (hr : s.NoReset)
include ha hr

theorem runCommand_start_ends : ∃ t, runCommand .start s = .next t ∧
    t.dir = { clk := .assertedLow, dio := .assertedLow } ∧
    t.trace = s.trace ++ startEvents ∧ SameRegisters s t ∧ t.Accepting ∧ t.NoReset :=
  runCommand_lineEvents_ends startEvents ha hr rfl (by decide)

theorem runCommand_stop_ends : ∃ t, runCommand .stop s = .next t ∧
    t.dir = { clk := .released, dio := .released } ∧
    t.trace = s.trace ++ stopEvents ∧ SameRegisters s t ∧ t.Accepting ∧ t.NoReset :=
  runCommand_lineEvents_ends stopEvents ha hr rfl (by decide)

theorem runCommand_wrb (b : Byte) : runCommand (.wrb b) s = .next (s.closeWindow.afterWrb b []) := by
  have hidle : (s.setSeq (wrbList b)).closeWindow.afterWrb b [] = s.closeWindow.afterWrb b [] := rfl
  rw [runCommand_of_issue ((exec_wrb b s).trans (accept_of_accepting _ ha)), ← hidle]
  exact run_wrb_closing 0 (s := s.setSeq (wrbList b)) hr (List.append_nil _).symm

end Commands

theorem afterWrb_accepting {s : State} (ha : s.Accepting) (b : Byte) : (s.afterWrb b []).Accepting := ⟨rfl, ha.2⟩

/-- The acknowledge value is what the slave's third choice in the window makes of a released DIO. -/
theorem ackValue_of_moves {s : State} {x y pull : Bool} {rest : List Bool}
    (h : s.slave.moves = x :: y :: pull :: rest) : s.ackValue = !pull := by
  simp [State.ackValue, Slave.opened, Slave.draw, h]

theorem afterWrb_moves {s : State} {x y pull : Bool} {rest : List Bool}
    (h : s.slave.moves = x :: y :: pull :: rest) (b : Byte) (q : List MicroOp) :
    (s.afterWrb b q).slave.moves = rest := by
  simp [State.afterWrb, Slave.opened, Slave.draw, h]

theorem afterWrb_quiet (s : State) (b : Byte) (q : List MicroOp) : (s.afterWrb b q).SlaveQuiet := ⟨rfl, rfl⟩

theorem afterWrb_levelsSeen (s : State) (b : Byte) (q : List MicroOp) : (s.afterWrb b q).LevelsSeen := ⟨rfl, rfl⟩

/-- Inside a frame with no bits latched, a byte write adds its byte and acknowledge bit (R92, R95). -/
theorem afterWrb_decoder {s : State} (b : Byte) (q : List MicroOp) (h : s.decoder.inFrame = true)
    (hb : s.decoder.bits = []) : (s.afterWrb b q).decoder =
      { s.decoder with cur := s.decoder.cur ++ [(b, s.ackValue)], clk := false, dio := true } :=
  congrArg (fun x : Decoder => { x with clk := false, dio := true }) (latchByte_inFrame b s.ackValue h hb)

end Sys2Proof.Machine

/-! DIO while CLK is high (41_bus_protocol.md R99): operation by operation. -/

namespace Sys2Proof.Machine

theorem dioChangesWhileHigh_append (es fs : List Event) : ∀ dir : Lines, dioChangesWhileHigh dir (es ++ fs) =
    dioChangesWhileHigh dir es ++ dioChangesWhileHigh (es.foldl Lines.afterEvent dir) fs := by
  induction es with
  | nil => exact fun _ => rfl
  | cons e es ih =>
    intro dir
    simp only [List.cons_append, dioChangesWhileHigh, List.foldl_cons, ih]
    split <;> rfl

/-- In a data bit time DIO changes between the fall and the rise of CLK. -/
theorem dioChangesWhileHigh_bitEvents (dir : Lines) (b : Bool) : dioChangesWhileHigh dir (bitEvents b) = [] := by
  obtain ⟨clk, dio⟩ := dir
  cases clk <;> cases dio <;> cases b <;> rfl

theorem dioChangesWhileHigh_ackEvents (dir : Lines) (v : Bool) : dioChangesWhileHigh dir (ackEvents v) = [] := by
  obtain ⟨clk, dio⟩ := dir
  cases clk <;> cases dio <;> rfl

theorem dioChangesWhileHigh_wrbEvents (dir : Lines) (b : Byte) (v : Bool) :
    dioChangesWhileHigh dir (wrbEvents b v) = [] := by
  simp only [wrbEvents, dioChangesWhileHigh_append, dioChangesWhileHigh_bitEvents, dioChangesWhileHigh_ackEvents,
    List.append_nil]

theorem afterEvents_wrbEvents (dir : Lines) (b : Byte) (v : Bool) :
    (wrbEvents b v).foldl Lines.afterEvent dir = { clk := .assertedLow, dio := .released } := by
  rw [wrbEvents, List.foldl_append]
  rfl

/-- CLK is high only where DIO is. -/
def Lines.DioHighWhileClkHigh (dir : Lines) : Prop := dir.clk = .released → dir.dio = .released

theorem dioChangesWhileHigh_start {dir : Lines} (h : dir.DioHighWhileClkHigh) :
    dioChangesWhileHigh dir startEvents = [.low .dio] := by
  obtain ⟨clk, dio⟩ := dir
  cases clk with
  | released => obtain rfl : dio = .released := h rfl; rfl
  | assertedLow => cases dio <;> rfl

theorem dioChangesWhileHigh_stop (dir : Lines) : dioChangesWhileHigh dir stopEvents = [.rel .dio] := by
  obtain ⟨clk, dio⟩ := dir
  cases clk <;> cases dio <;> rfl

/-- One START, STOP or WRB makes its edge only, and leaves lines from which the next one does too. -/
theorem runCommand_busEdge {i : Instr} {s : State} (hi : i = .start ∨ i = .stop ∨ ∃ b, i = .wrb b)
    (ha : s.Accepting) (hr : s.NoReset) (hd : s.dir.DioHighWhileClkHigh) :
    ∃ t evs, runCommand i s = .next t ∧ t.trace = s.trace ++ evs ∧ t.dir = evs.foldl Lines.afterEvent s.dir ∧
      dioChangesWhileHigh s.dir evs = busEdge i ∧ t.dir.DioHighWhileClkHigh ∧ t.Accepting ∧ t.NoReset := by
  obtain rfl | rfl | ⟨b, rfl⟩ := hi
  · obtain ⟨t, ht, tdir, ttrace, -, ready⟩ := runCommand_start_ends ha hr
    exact ⟨t, _, ht, ttrace, tdir, dioChangesWhileHigh_start hd, by rw [tdir]; exact fun h => (nomatch h), ready⟩
  · obtain ⟨t, ht, tdir, ttrace, -, ready⟩ := runCommand_stop_ends ha hr
    exact ⟨t, _, ht, ttrace, tdir, dioChangesWhileHigh_stop _, by rw [tdir]; exact fun _ => rfl, ready⟩
  · exact ⟨_, _, runCommand_wrb ha hr b, rfl, (afterEvents_wrbEvents _ _ _).symm,
      dioChangesWhileHigh_wrbEvents _ _ _, fun _ => rfl, afterWrb_accepting (s := s.closeWindow) ha b, hr⟩

end Sys2Proof.Machine

/-! The framing law (41_bus_protocol.md R98): the host's words, one bus command each. -/

namespace Sys2Proof.Machine

theorem samples_append (es fs : List Event) : samples (es ++ fs) = samples es ++ samples fs := by
  induction es with
  | nil => rfl
  | cons e es ih =>
    cases e with
    | sample v => exact congrArg (v :: ·) ih
    | rel l => exact ih
    | low l => exact ih
    | wait => exact ih

theorem samples_bitEvents (b : Bool) : samples (bitEvents b) = [] := by cases b <;> rfl

theorem samples_wrbEvents (b : Byte) (v : Bool) : samples (wrbEvents b v) = [v] := by
  simp only [wrbEvents, samples_append, samples_bitEvents]
  rfl

theorem State.TraceAgrees.run {k : Nat} {s t : State} (h : s.TraceAgrees) (hs : Machine.run k s = .next t) :
    t.TraceAgrees := by
  induction k generalizing s with
  | zero => exact Host.Outcome.next.inj hs ▸ h
  | succ k ih =>
    rw [Machine.run] at hs
    split at hs
    · next u hu => exact ih (h.step hu) hs
    · cases hs
    · cases hs

/-- The host's next command is taken from the port and its micro-ops stand in SEQ. -/
theorem run_hostCommand (k : Nat) {s : State} {i : Instr} {w : CommandWord} {q : List MicroOp} {is : List Instr}
    {rest : List CommandWord} (hr : s.NoReset) (ht : s.HostTurn) (hi : encode i = .word w) (hx : exec i = issue q)
    (hw : s.port.words = commandWords (i :: is) ++ rest) :
    run (k + 1) s = run k ((s.setPort { words := commandWords is ++ rest, resetLine := [] }).setSeq q) := by
  have hwords : commandWords (i :: is) = w :: commandWords is := by simp [commandWords, hi, Code.word?]
  refine run_hostWord k hr ht (hw.trans (by rw [hwords]; rfl)) (hi ▸ decode_encode i) ?_
  rw [hx]
  exact issue_of_accepting q (s := s.setPort _) ht.accepting

/-- It is the host's turn inside a frame, between two bytes. -/
structure State.BetweenBytes (s : State) : Prop where
  turn : s.HostTurn
  noReset : s.NoReset
  window : s.slave.window = false
  inFrame : s.decoder.inFrame = true
  bits : s.decoder.bits = []

/-- `t` is `s` after events that complete the frame `f` and leave the bus idle and the port at `rest`. -/
structure FrameEnds (s t : State) (evs : List Event) (f : Frame) (rest : List CommandWord) : Prop where
  words : t.port.words = rest
  trace : t.trace = s.trace ++ evs
  frames : t.decoder.frames = s.decoder.frames ++ [f]
  outside : t.decoder.inFrame = false
  dir : t.dir = { clk := .released, dio := .released }
  quiet : t.SlaveQuiet
  levels : t.LevelsSeen
  accepting : t.Accepting

section Frames

variable {s : State} {rest : List CommandWord}

/-- A frame that ends after `u` ends after any `s` that some events without a frame's end lead to `u`. -/
theorem FrameEnds.prepend {u t : State} {es evs : List Event} {f : Frame} (h : FrameEnds u t evs f rest)
    (htrace : u.trace = s.trace ++ es) (hframes : u.decoder.frames = s.decoder.frames) :
    FrameEnds s t (es ++ evs) f rest :=
  { h with
    trace := by rw [h.trace, htrace, List.append_assoc]
    frames := by rw [h.frames, hframes] }

/-- The host presents START on an idle bus. -/
theorem run_start_word (k : Nat) {is : List Instr} (h : s.Idle)
    (hw : s.port.words = commandWords (.start :: is) ++ rest) :
    ∃ u, run (k + 7) s = run k u ∧ u.BetweenBytes ∧ u.port.words = commandWords is ++ rest ∧
      u.trace = s.trace ++ startEvents ∧ u.decoder.cur = [] ∧ u.decoder.frames = s.decoder.frames := by
  obtain ⟨hturn, hr, ⟨hwindow, hpull⟩, ⟨hclk, hdio⟩, hout, hdir⟩ := h
  have hready : s.ReadyForStart := by
    refine ⟨hwindow, hout, .inr ⟨hdir, hclk.trans ?_, hdio.trans ?_, hpull⟩⟩
    · rw [State.levelClk, hdir]; rfl
    · rw [State.levelDio, hdir, hpull]; rfl
  have hrun := (run_hostCommand (k + 6) hr hturn rfl rfl hw).trans
    (run_start k (rest := []) rfl rfl hready (by simp [ackTail]))
  obtain ⟨⟨-, hfault⟩, hinbox, hdata, -⟩ := hturn
  exact ⟨_, hrun, ⟨⟨⟨rfl, hfault⟩, hinbox, hdata, rfl⟩, rfl, hwindow, rfl, rfl⟩, rfl, rfl, rfl, rfl⟩

/-- The host presents a WRB inside a frame. -/
theorem run_wrb_word (k : Nat) {b : Byte} {is : List Instr} (h : s.BetweenBytes)
    (hw : s.port.words = commandWords (.wrb b :: is) ++ rest) :
    ∃ u v, run (k + 57) s = run k u ∧ u.BetweenBytes ∧ u.port.words = commandWords is ++ rest ∧
      u.trace = s.trace ++ wrbEvents b v ∧ u.decoder.cur = s.decoder.cur ++ [(b, v)] ∧
      u.decoder.frames = s.decoder.frames := by
  obtain ⟨hturn, hr, hwindow, hin, hbits⟩ := h
  have hrun : run (k + 57) s = run k ((s.setPort ⟨commandWords is ++ rest, []⟩).afterWrb b []) :=
    (run_hostCommand (k + 56) hr hturn rfl rfl hw).trans
      (run_wrb k (s := (s.setPort _).setSeq (wrbList b)) rfl (List.append_nil _).symm hwindow)
  have hdecoder := afterWrb_decoder (s := s.setPort ⟨commandWords is ++ rest, []⟩) b [] hin hbits
  obtain ⟨⟨-, hfault⟩, hinbox, hdata, -⟩ := hturn
  exact ⟨_, _, hrun, ⟨⟨⟨rfl, hfault⟩, hinbox, hdata, rfl⟩, rfl, rfl, by rw [hdecoder]; exact hin,
    by rw [hdecoder]; exact hbits⟩, rfl, rfl, by rw [hdecoder]; rfl, by rw [hdecoder]; rfl⟩

/-- The host presents STOP inside a frame. -/
theorem run_stop_word (h : s.BetweenBytes) (hw : s.port.words = commandWords [.stop] ++ rest) :
    ∃ t, run 8 s = .next t ∧ FrameEnds s t stopEvents s.decoder.cur rest := by
  obtain ⟨hturn, hr, hwindow, hin, hbits⟩ := h
  have hrun := (run_hostCommand 7 hr hturn rfl rfl hw).trans (run_stop 0 (rest := []) rfl rfl hwindow hin hbits)
  exact ⟨_, hrun, rfl, rfl, rfl, rfl, rfl, ⟨hwindow, rfl⟩, ⟨rfl, rfl⟩, rfl, hturn.accepting.2⟩

/-- The host presents some bytes and STOP inside a frame. -/
theorem run_frameWords (bs : List Byte) : ∀ s : State, s.BetweenBytes →
    s.port.words = commandWords (bs.map .wrb ++ [.stop]) ++ rest →
    ∃ t evs, run (57 * bs.length + 8) s = .next t ∧ (samples evs).length = bs.length ∧
      FrameEnds s t evs (s.decoder.cur ++ bs.zip (samples evs)) rest := by
  induction bs with
  | nil =>
    intro s h hw
    obtain ⟨t, ht, hend⟩ := run_stop_word h hw
    exact ⟨t, _, ht, rfl, (List.append_nil s.decoder.cur).symm ▸ hend⟩
  | cons b bs ih =>
    intro s h hw
    obtain ⟨u, v, hrun, hu, uwords, utrace, ucur, uframes⟩ := run_wrb_word (57 * bs.length + 8) h hw
    obtain ⟨t, evs, ht, hlen, hend⟩ := ih u hu uwords
    have hsamples : samples (wrbEvents b v ++ evs) = v :: samples evs := by
      rw [samples_append, samples_wrbEvents, List.singleton_append]
    refine ⟨t, wrbEvents b v ++ evs, ?_, by rw [hsamples, List.length_cons, hlen, List.length_cons], ?_⟩
    · rw [List.length_cons, show 57 * (bs.length + 1) + 8 = 57 * bs.length + 8 + 57 by ring, hrun, ht]
    · rw [hsamples, List.zip_cons_cons, List.append_cons, ← ucur]
      exact hend.prepend utrace uframes

/-- From idle the host presents START, some bytes and STOP. -/
theorem run_framedBytes (bs : List Byte) (h : s.Idle)
    (hw : s.port.words = commandWords (.start :: bs.map .wrb ++ [.stop]) ++ rest) :
    ∃ t evs, run (7 + 57 * bs.length + 8) s = .next t ∧ (samples evs).length = bs.length ∧
      FrameEnds s t evs (bs.zip (samples evs)) rest := by
  obtain ⟨u, hrun, hu, uwords, utrace, ucur, uframes⟩ := run_start_word (57 * bs.length + 8) h hw
  obtain ⟨t, evs, ht, hlen, hend⟩ := run_frameWords bs u hu uwords
  rw [ucur, List.nil_append] at hend
  refine ⟨t, startEvents ++ evs, ?_, hlen, hend.prepend utrace uframes⟩
  rw [show 7 + 57 * bs.length + 8 = 57 * bs.length + 8 + 7 by ring, hrun, ht]

end Frames

end Sys2Proof.Machine

/-! The sizes of the expansions (41_bus_protocol.md R97, 43_sequencer.md R114). -/

namespace Sys2Proof.Machine

theorem size_wrbList (b : Byte) : (wrbList b).length = 56 ∧ (wrbList b).count .wait = 18 := by
  have hcount : (wrbList b).count .wait = (repeatBits Config.bitsPerByte ++ ackPhase).count .wait :=
    List.count_cons_of_ne (by simp)
  exact ⟨rfl, hcount.trans (by decide)⟩

theorem size_wrbLists (bs : List Byte) :
    (wrbLists bs).length = 56 * bs.length ∧ (wrbLists bs).count .wait = 18 * bs.length := by
  induction bs with
  | nil => exact ⟨rfl, rfl⟩
  | cons b bs ih =>
    obtain ⟨hlen, hcount⟩ := ih
    obtain ⟨blen, bcount⟩ := size_wrbList b
    rw [wrbLists, List.length_append, List.count_append, hlen, hcount, blen, bcount, List.length_cons]
    omega

/-- START and STOP together are 13 micro-ops, 5 of them WAITs. -/
theorem size_transaction (bs : List Byte) : (transaction bs).length = 13 + 56 * bs.length ∧
    (transaction bs).count .wait = 5 + 18 * bs.length := by
  obtain ⟨hlen, hcount⟩ := size_wrbLists bs
  have hstart : startList.length = 6 ∧ startList.count .wait = 2 := by decide
  have hstop : stopList.length = 7 ∧ stopList.count .wait = 3 := by decide
  simp only [transaction, List.length_append, List.count_append, hlen, hcount, hstart, hstop]
  omega

theorem size_showList (p : Quad Byte) (b : BitVec 3) :
    (showList p b).length = 432 ∧ (showList p b).count .wait = 141 := by
  obtain ⟨alen, acount⟩ := size_transaction [Config.cmdData]
  obtain ⟨blen, bcount⟩ := size_transaction (Config.cmdAddr :: p.toList)
  obtain ⟨clen, ccount⟩ := size_transaction [dispControlByte b]
  simp only [showList, txaList, txbList, txcList, List.length_append, List.count_append, alen, acount, blen,
    bcount, clen, ccount]
  exact ⟨rfl, rfl⟩

end Sys2Proof.Machine

section

open Sys2Proof Sys2Proof.Machine

/-- Settles O45, by `SlaveBlind.step_of_busy`: the controller reads no part of the state the slave can reach. -/
theorem acknowledgeNeverSteersTheController : Obligations.AcknowledgeNeverSteersTheController := by
  intro s t s' h hb hs
  obtain ⟨u, t', hu, ht, hut⟩ := h.step_of_busy hb
  obtain rfl := Host.Outcome.next.inj (hu.symm.trans hs)
  exact ⟨t', ht, hut⟩

/-- Settles O47, by induction on START's line events. -/
theorem startEndsWithBothLinesLow : Obligations.StartEndsWithBothLinesLow := by
  intro s ha hr
  obtain ⟨t, ht, tdir, ttrace, tregs, taccepting, -⟩ := runCommand_start_ends ha hr
  exact ⟨t, ht, tdir, ttrace, tregs, taccepting⟩

/-- Settles O48, by induction on STOP's line events. -/
theorem stopEndsWithBothLinesReleased : Obligations.StopEndsWithBothLinesReleased := by
  intro s ha hr
  obtain ⟨t, ht, tdir, ttrace, tregs, taccepting, -⟩ := runCommand_stop_ends ha hr
  exact ⟨t, ht, tdir, ttrace, tregs, taccepting⟩

/-- Settles O49: the end is `afterWrb`, and its third choice in the window is the slave's last with CLK low. -/
theorem wrbSendsItsBitsLeastSignificantFirst : Obligations.WrbSendsItsBitsLeastSignificantFirst := by
  intro s b ha hr
  refine ⟨_, _, runCommand_wrb ha hr b, rfl, rfl, rfl, rfl, rfl, rfl, rfl, rfl, rfl,
    afterWrb_accepting (s := s.closeWindow) ha b, fun _ x y pull rest hmoves => ?_⟩
  exact ⟨ackValue_of_moves (s := s.closeWindow) hmoves, afterWrb_moves (s := s.closeWindow) hmoves b [], rfl, rfl⟩

/-- Settles O50: the nine latches of `afterWrb` are the byte and its acknowledge bit. -/
theorem wrbIsDecodedAsItsByte : Obligations.WrbIsDecodedAsItsByte := by
  intro s b ha hr _ _ hin hbits _
  have hdecoder := afterWrb_decoder (s := s.closeWindow) b [] hin hbits
  exact ⟨_, _, runCommand_wrb ha hr b, rfl, by rw [hdecoder]; rfl, by rw [hdecoder]; rfl,
    by rw [hdecoder]; exact hin, by rw [hdecoder]; exact hbits, afterWrb_quiet _ _ _, afterWrb_levelsSeen _ _ _⟩

/-- Settles O52, by induction on the bytes between START and STOP; the run keeps `TraceAgrees`. -/
theorem framedBytesAreDecodedAsOneFrame : Obligations.FramedBytesAreDecodedAsOneFrame := by
  intro s bs rest h hw
  obtain ⟨t, evs, ht, hlen, hend⟩ := run_framedBytes bs h hw
  refine ⟨t, evs, ht, hend.words, hend.trace, hlen, hend.frames, fun hs => ?_, hend.outside, hend.dir, hend.quiet,
    hend.levels, hend.accepting⟩
  rw [← (hs.run ht).frames, ← hs.frames, hend.frames]

/-- Settles O58, by induction on the commands: each makes its own edge only and leaves lines for the next. -/
theorem dioChangesWhileHighOnlyInStartAndStop : Obligations.DioChangesWhileHighOnlyInStartAndStop := by
  intro cs
  induction cs with
  | nil => exact fun s _ _ _ _ => ⟨s, [], rfl, (List.append_nil _).symm, rfl⟩
  | cons i cs ih =>
    intro s hcs ha hr hd
    obtain ⟨hi, hrest⟩ := List.forall_mem_cons.mp hcs
    obtain ⟨u, es, hu, utrace, udir, uedge, uhigh, uaccepting, unoReset⟩ := runCommand_busEdge hi ha hr hd
    obtain ⟨t, fs, ht, ttrace, tedges⟩ := ih u hrest uaccepting unoReset uhigh
    refine ⟨t, es ++ fs, (runCommands_cons_of_next cs hu).trans ht, by rw [ttrace, utrace, List.append_assoc], ?_⟩
    rw [dioChangesWhileHigh_append, ← udir, uedge, tedges, List.flatMap_cons]

/-- Settles O21: each is issued as its list, which the spec writes out. -/
theorem busCommandsCompleteWithTheirLists : Obligations.BusCommandsCompleteWithTheirLists :=
  fun _ ha => ⟨issue_of_accepting startList ha, issue_of_accepting stopList ha,
    fun b => issue_of_accepting (wrbList b) ha⟩

/-- Settles O59, from the size of a transaction of any number of bytes. -/
theorem expansionsHaveTheStatedSizes : Obligations.ExpansionsHaveTheStatedSizes :=
  ⟨by decide, by decide, by decide, by decide, by decide, by decide, by decide, by decide, size_wrbList,
    (size_transaction _).1, (size_transaction _).2, fun _ => size_transaction _, fun _ => size_transaction _,
    size_showList⟩

end

/-! ENC: a digit of 0..9 is its place in the segment table, and any other raises InvalidDigit
(42_segment_encoder.md R100, R102). -/

namespace Sys2Proof.Machine

theorem digitIndex_digitBits (i : Fin 10) : digitIndex (digitBits i) = some i := by
  have hi : (digitBits i).toNat = i.val := Nat.mod_eq_of_lt (by omega)
  simp [digitIndex, hi]

theorem exists_digitBits_of_le {d : BitVec 4} (h : d.toNat ≤ 9) : ∃ i : Fin 10, d = digitBits i :=
  ⟨⟨d.toNat, by omega⟩, by simp [digitBits]⟩

theorem lookUpDigit_digitBits (i : Fin 10) (s : State) :
    s.lookUpDigit (digitBits i) = (s.setSegout (segPattern i)).setSeq [] := by
  rw [State.lookUpDigit, digitIndex_digitBits]

theorem exec_enc_digitBits (i : Fin 10) {s : State} (ha : s.Accepting) :
    exec (.enc (digitBits i)) s = .next ((s.setSegout (segPattern i)).setSeq []) := by
  rw [exec_enc, accept_of_accepting _ ha, lookUpDigit_digitBits]

/-- What an ENC that answers a next state has done. -/
theorem exec_enc_cases {d : BitVec 4} {s t : State} (h : exec (.enc d) s = .next t) :
    s.Accepting ∧ ((∃ i, d = digitBits i ∧ t = (s.setSegout (segPattern i)).setSeq []) ∨
      (9 < d.toNat ∧ t = { s with fault := .invalidDigit, seq := [] })) := by
  rw [exec_enc] at h
  obtain ⟨ha, rfl⟩ := accept_next h
  refine ⟨ha, ?_⟩
  obtain hle | hgt := le_or_gt d.toNat 9
  · obtain ⟨i, rfl⟩ := exists_digitBits_of_le hle
    exact .inl ⟨i, rfl, lookUpDigit_digitBits i s⟩
  · exact .inr ⟨hgt, (lookUpDigit_of_invalid hgt s).trans (raiseFault_of_accepting ha _)⟩

end Sys2Proof.Machine

section

open Sys2Proof Sys2Proof.Machine

/-- Settles O17: the fault's next state is the only one, and it keeps SEGOUT and TRACE. -/
theorem invalidDigitNeverReachesTheBus : Obligations.InvalidDigitNeverReachesTheBus := by
  intro s d ha hd
  refine ⟨exec_enc_invalid hd ha, fun t ht => ?_⟩
  obtain rfl := Host.Outcome.next.inj ((exec_enc_invalid hd ha).symm.trans ht)
  exact ⟨rfl, rfl, rfl⟩

/-- Settles O23: an accepting block takes ENC, and the table has an entry for each of 0..9. -/
theorem encPutsTheTableEntryInSegout : Obligations.EncPutsTheTableEntryInSegout :=
  fun _ d ha => exec_enc_digitBits d ha

/-- Settles O24: ENC writes SEGOUT for a digit of 0..9 and FAULT for any other, and SEQ was empty before. -/
theorem encWritesSegoutOnly : Obligations.EncWritesSegoutOnly := by
  intro s t d h
  obtain ⟨⟨hseq, -⟩, ⟨i, -, rfl⟩ | ⟨hd, rfl⟩⟩ := exec_enc_cases h
  · exact ⟨⟨rfl, rfl, rfl, rfl, rfl, rfl, rfl, rfl⟩, ⟨rfl, rfl, rfl, rfl, rfl⟩, ⟨rfl, fun _ => rfl⟩, hseq.symm, rfl,
      fun _ => rfl⟩
  · exact ⟨⟨rfl, rfl, rfl, rfl, rfl, rfl, rfl, rfl⟩, ⟨rfl, rfl, rfl, rfl, rfl⟩, ⟨rfl, fun _ => rfl⟩, hseq.symm, rfl,
      fun hle => absurd hd hle.not_gt⟩

end

/-! The digits of a number, and SHOW at its issue (43_sequencer.md R105, R106, R111). -/

namespace Sys2Proof.Machine

/-- The four digits do not depend on the number's multiples of 10000 (43_sequencer.md R111). -/
theorem digits_of_mod (n : BitVec 16) : digits (BitVec.ofNat 16 (n.toNat % 10000)) = digits n := by
  have htoNat : (BitVec.ofNat 16 (n.toNat % 10000)).toNat = n.toNat % 10000 := Nat.mod_eq_of_lt (by omega)
  simp only [digits, digitAt, htoNat, Quad.mk.injEq, Fin.mk.injEq]
  omega

theorem rejoin_digits (n : BitVec 16) : rejoin (digits n) = n.toNat % 10000 := by
  simp only [rejoin, digits, digitAt]
  omega

theorem exec_showNum_of_accepting {s : State} (ha : s.Accepting) (n : BitVec 16) :
    exec (.showNum n) s = .next (s.issueShow n) :=
  accept_of_accepting (·.issueShow n) ha

/-- Two numbers with the same digits are issued alike, but for N. -/
theorem issueShow_of_digits_eq {m n : BitVec 16} (h : digits m = digits n) (s : State) :
    s.issueShow m = { s.issueShow n with n := some m } := by
  rw [State.issueShow, h]
  rfl

/-- SHOW's micro-ops, command by command (43_sequencer.md R107 to R109). -/
theorem showList_eq (p : Quad Byte) (b : BitVec 3) : showList p b =
    (startList ++ wrbList 0x40#8 ++ stopList) ++
      (startList ++ wrbList 0xC0#8 ++ wrbList p.q0 ++ wrbList p.q1 ++ wrbList p.q2 ++ wrbList p.q3 ++ stopList) ++
      (startList ++ wrbList (0x88#8 ||| b.zeroExtend 8) ++ stopList) ++ [.endFrame] := by
  simp only [showList, txaList, txbList, txcList, transaction, wrbLists, Quad.toList, Config.cmdData, Config.cmdAddr,
    dispControlByte, Config.cmdDispBase, List.append_nil, List.append_assoc]

end Sys2Proof.Machine

section

open Sys2Proof Sys2Proof.Machine

/-- Settles O28: the digits are the quotients by 1000, 100, 10 and 1, each modulo 10. -/
theorem digitsRejoinToTheNumber : Obligations.DigitsRejoinToTheNumber :=
  fun n => ⟨rejoin_digits n, fun h => (rejoin_digits n).trans (Nat.mod_eq_of_lt (by omega))⟩

/-- Settles O25: an accepting block takes SHOW, and its effect is `issueShow`. -/
theorem showIssuesItsThreeTransactions : Obligations.ShowIssuesItsThreeTransactions := by
  intro s n ha
  refine ⟨digitAt n 1000, digitAt n 100, digitAt n 10, digitAt n 1, rfl, rfl, rfl, by simp [digitAt], ?_⟩
  rw [exec_showNum_of_accepting ha, State.issueShow, showList_eq]
  rfl

/-- Settles O26: SHOW is issued by writing N, D, P and SEQ. -/
theorem issuedShowChangesItsOwnRegistersOnly : Obligations.IssuedShowChangesItsOwnRegistersOnly := by
  intro s t n h
  rw [exec_showNum] at h
  obtain ⟨-, rfl⟩ := accept_next h
  exact ⟨rfl, rfl, rfl, rfl, ⟨rfl, rfl, rfl, rfl, rfl⟩, ⟨rfl, fun _ => rfl⟩, rfl, rfl⟩

end

/-! A command's micro-ops inside a longer SEQ, and beside other values of N, D and P: they do there what they do
alone (10_state.md R43, 43_sequencer.md R113). -/

namespace Sys2Proof.Machine

/-- The state with other values in N, D and P. -/
def State.withNumber (s : State) (n : Option (BitVec 16)) (d : Quad (Option (BitVec 4))) (p : Quad (Option Byte)) :
    State :=
  { s with n := n, d := d, p := p }

/-- What follows decides no window of the list: each of its falls of CLK is its last micro-op or has as many
micro-ops after it as an acknowledge phase. -/
def decidesItsWindows : List MicroOp → Bool
  | [] => true
  | m :: rest =>
    (decide (m ≠ .low .clk) || decide (rest = [] ∨ ackTail.length ≤ rest.length)) && decidesItsWindows rest

/-- The list means the same whatever follows it and whatever N, D and P hold. -/
structure SelfContained (q : List MicroOp) : Prop where
  windows : decidesItsWindows q = true
  keepsFrame : .endFrame ∉ q

theorem SelfContained.tail {m : MicroOp} {q : List MicroOp} (h : SelfContained (m :: q)) : SelfContained q :=
  ⟨(Bool.and_eq_true_iff.mp h.windows).2, fun hm => h.keepsFrame (List.mem_cons_of_mem m hm)⟩

theorem SelfContained.head_ne_endFrame {m : MicroOp} {q : List MicroOp} (h : SelfContained (m :: q)) :
    m ≠ .endFrame :=
  fun hm => h.keepsFrame (hm ▸ List.mem_cons_self)

/-- A fall of CLK opens a window with `r` behind the list exactly when it does without. -/
theorem SelfContained.window_iff {q r : List MicroOp} (h : SelfContained (.low .clk :: q))
    (hr : r.take ackTail.length ≠ ackTail) :
    (q ++ r).take ackTail.length = ackTail ↔ q.take ackTail.length = ackTail := by
  have hfall : q = [] ∨ ackTail.length ≤ q.length := by
    simpa using (Bool.and_eq_true_iff.mp h.windows).1
  obtain rfl | hlong := hfall
  · exact iff_of_false hr (by decide)
  · rw [List.take_append_of_le_length hlong]

/-- A micro-op does the same with `r` behind SEQ and with other values in N, D and P. -/
theorem perform_withNumber {m : MicroOp} {q r : List MicroOp} {s u : State} (hq : SelfContained (m :: q))
    (hr : r.take ackTail.length ≠ ackTail) (h : perform m (s.setSeq q) = .next u) (n d p) :
    perform m ((s.withNumber n d p).setSeq (q ++ r)) = .next ((u.withNumber n d p).setSeq (q ++ r)) := by
  cases m with
  | rel l => exact Host.Outcome.next.inj h ▸ rfl
  | low l =>
    have hwindow : ((s.withNumber n d p).setSeq (q ++ r)).windowAtLow l = (s.setSeq q).windowAtLow l := by
      cases l with
      | clk =>
        exact congrArg (fun opens => if s.slave.window then false else opens) (decide_eq_decide.mpr (hq.window_iff hr))
      | dio => rfl
    rw [perform, State.assertLine, hwindow]
    exact Host.Outcome.next.inj h ▸ rfl
  | wait => exact Host.Outcome.next.inj h ▸ rfl
  | sample => exact Host.Outcome.next.inj h ▸ rfl
  | loadSR b => exact Host.Outcome.next.inj h ▸ rfl
  | outBit =>
    have hsr : ((s.withNumber n d p).setSeq (q ++ r)).readSR = (s.setSeq q).readSR := rfl
    obtain rfl := Host.Outcome.next.inj h
    rw [perform, State.outBit, State.outBit, hsr]
    split <;> rfl
  | shift => exact Host.Outcome.next.inj h ▸ rfl
  | endFrame => exact absurd rfl hq.head_ne_endFrame

/-- So does the whole list. -/
theorem run_withNumber (k : Nat) {r : List MicroOp} {t : State} (hr : r.take ackTail.length ≠ ackTail) (n d p)
    (q : List MicroOp) : ∀ s : State, s.NoReset → SelfContained q → s.seq = q → run q.length s = .next t →
    run (k + q.length) ((s.withNumber n d p).setSeq (q ++ r)) = run k ((t.withNumber n d p).setSeq r) := by
  induction q with
  | nil => exact fun s _ _ _ h => Host.Outcome.next.inj h ▸ rfl
  | cons m q ih =>
    intro s hnr hq hseq h
    obtain ⟨u, hu⟩ := perform_total m (s.setSeq q)
    obtain ⟨useq, -, -, -, uport⟩ := perform_keeps hu
    have hstep : run (k + q.length + 1) ((s.withNumber n d p).setSeq (m :: q ++ r)) =
        run (k + q.length) ((u.withNumber n d p).setSeq (q ++ r)) :=
      run_of_seq _ hnr rfl (perform_withNumber hq hr hu n d p)
    have htail : run q.length u = .next t := (run_of_seq _ hnr hseq hu).symm.trans h
    exact hstep.trans (ih u (by rw [State.NoReset, uport]; exact hnr) hq.tail useq htail)

end Sys2Proof.Machine

/-! START, WRB and STOP, one after another: by the host's commands, and in one SEQ. -/

namespace Sys2Proof.Machine

/-- The micro-ops a bus command enqueues (41_bus_protocol.md R90, R91, R94). -/
def busList : Instr → List MicroOp
  | .start => startList
  | .wrb b => wrbList b
  | .stop => stopList
  | _ => []

/-- The instruction is a START, a WRB or a STOP. -/
def IsBusCommand (i : Instr) : Prop := i = .start ∨ i = .stop ∨ ∃ b, i = .wrb b

theorem exec_busCommand {i : Instr} (hi : IsBusCommand i) : exec i = issue (busList i) := by
  obtain rfl | rfl | ⟨b, rfl⟩ := hi <;> rfl

theorem runCommand_busList {i : Instr} {s : State} (hi : IsBusCommand i) (ha : s.Accepting) :
    runCommand i s = run (busList i).length (s.setSeq (busList i)) :=
  runCommand_of_issue (exec_busCommand hi ▸ issue_of_accepting (busList i) ha)

theorem selfContained_busList {i : Instr} (hi : IsBusCommand i) : SelfContained (busList i) := by
  obtain rfl | rfl | ⟨b, rfl⟩ := hi
  · exact ⟨by decide, by decide⟩
  · exact ⟨by decide, by decide⟩
  · exact ⟨rfl, by simp [busList, wrbList, repeatBits, bitTime, ackPhase, ackTail, Config.bitsPerByte]⟩

/-- No bus command begins as the rest of an acknowledge phase does. -/
theorem busList_not_ackTail {i : Instr} (hi : IsBusCommand i) (r : List MicroOp) :
    (busList i ++ r).take ackTail.length ≠ ackTail := by
  obtain rfl | rfl | ⟨b, rfl⟩ := hi <;> simp [busList, startList, stopList, wrbList, ackTail]

theorem flatMap_busList_not_ackTail {is : List Instr} {r : List MicroOp} (hi : ∀ i ∈ is, IsBusCommand i)
    (hr : r.take ackTail.length ≠ ackTail) : (is.flatMap busList ++ r).take ackTail.length ≠ ackTail := by
  cases is with
  | nil => exact hr
  | cons i is =>
    rw [List.flatMap_cons, List.append_assoc]
    exact busList_not_ackTail (hi i List.mem_cons_self) _

/-- How many events there are, how many of them are WAITs, and how many are samples. -/
def eventSizes (es : List Event) : Nat × Nat × Nat := (es.length, es.count .wait, (samples es).length)

theorem eventSizes_append (es fs : List Event) : eventSizes (es ++ fs) = eventSizes es + eventSizes fs := by
  simp [eventSizes, samples_append]

/-- The sizes of a bus command's events (41_bus_protocol.md R97). -/
def busSizes : Instr → Nat × Nat × Nat
  | .start => (6, 2, 0)
  | .wrb _ => (47, 18, 1)
  | .stop => (7, 3, 0)
  | _ => 0

theorem eventSizes_bitEvents (b : Bool) : eventSizes (bitEvents b) = (5, 2, 0) := by cases b <;> rfl

theorem eventSizes_wrbEvents (b : Byte) (v : Bool) : eventSizes (wrbEvents b v) = (47, 18, 1) := by
  simp only [wrbEvents, eventSizes_append, eventSizes_bitEvents]
  rfl

/-- `t` is `s` after the events, ready for the next command; no command between them has touched N, D, P or
SEGOUT. -/
structure BusRan (s t : State) (evs : List Event) : Prop where
  trace : t.trace = s.trace ++ evs
  n : t.n = s.n
  d : t.d = s.d
  p : t.p = s.p
  segout : t.segout = s.segout
  accepting : t.Accepting
  noReset : t.NoReset

theorem BusRan.trans {s t u : State} {es fs : List Event} (h : BusRan s t es) (h' : BusRan t u fs) :
    BusRan s u (es ++ fs) :=
  { h' with
    trace := by rw [h'.trace, h.trace, List.append_assoc]
    n := h'.n.trans h.n
    d := h'.d.trans h.d
    p := h'.p.trans h.p
    segout := h'.segout.trans h.segout }

/-- What `runCommand_start_ends` and `runCommand_stop_ends` say of the registers. -/
theorem BusRan.of_sameRegisters {s t : State} {evs : List Event} (htrace : t.trace = s.trace ++ evs)
    (h : SameRegisters s t) (ha : t.Accepting) (hr : t.NoReset) : BusRan s t evs := by
  obtain ⟨-, -, -, n, d, p, segout, -⟩ := h
  exact ⟨htrace, n, d, p, segout, ha, hr⟩

theorem runCommand_bus {i : Instr} {s : State} (hi : IsBusCommand i) (ha : s.Accepting) (hr : s.NoReset) :
    ∃ t evs, runCommand i s = .next t ∧ BusRan s t evs ∧ eventSizes evs = busSizes i := by
  obtain rfl | rfl | ⟨b, rfl⟩ := hi
  · obtain ⟨t, ht, -, ttrace, tregs, taccepting, tnoReset⟩ := runCommand_start_ends ha hr
    exact ⟨t, _, ht, .of_sameRegisters ttrace tregs taccepting tnoReset, rfl⟩
  · obtain ⟨t, ht, -, ttrace, tregs, taccepting, tnoReset⟩ := runCommand_stop_ends ha hr
    exact ⟨t, _, ht, .of_sameRegisters ttrace tregs taccepting tnoReset, rfl⟩
  · exact ⟨_, _, runCommand_wrb ha hr b,
      ⟨rfl, rfl, rfl, rfl, rfl, afterWrb_accepting (s := s.closeWindow) ha b, hr⟩, eventSizes_wrbEvents _ _⟩

/-- Bus commands by hand run to their end, and their micro-ops in one SEQ, with anything behind that opens no
window, lead to the same state but for N, D and P. -/
theorem runCommands_bus {r : List MicroOp} (hr : r.take ackTail.length ≠ ackTail) (n d p) (is : List Instr) :
    ∀ s : State, (∀ i ∈ is, IsBusCommand i) → s.Accepting → s.NoReset →
    ∃ t evs, runCommands is s = .next t ∧ BusRan s t evs ∧ eventSizes evs = (is.map busSizes).sum ∧
      ∀ k, run (k + (is.flatMap busList).length) ((s.withNumber n d p).setSeq (is.flatMap busList ++ r)) =
        run k ((t.withNumber n d p).setSeq r) := by
  induction is with
  | nil => exact fun s _ ha hnr => ⟨s, [], rfl, ⟨(List.append_nil _).symm, rfl, rfl, rfl, rfl, ha, hnr⟩, rfl,
      fun _ => rfl⟩
  | cons i is ih =>
    intro s his ha hnr
    obtain ⟨hi, hrest⟩ := List.forall_mem_cons.mp his
    obtain ⟨u, es, hu, hus, esizes⟩ := runCommand_bus hi ha hnr
    obtain ⟨t, fs, ht, hts, fsizes, hrun⟩ := ih u hrest hus.accepting hus.noReset
    refine ⟨t, es ++ fs, (runCommands_cons_of_next is hu).trans ht, hus.trans hts, ?_, fun k => ?_⟩
    · rw [eventSizes_append, esizes, fsizes, List.map_cons, List.sum_cons]
    · rw [runCommand_busList hi ha] at hu
      have hhead := run_withNumber (k + (is.flatMap busList).length) (flatMap_busList_not_ackTail hrest hr) n d p
        (busList i) (s.setSeq (busList i)) hnr (selfContained_busList hi) rfl hu
      rw [List.flatMap_cons, List.length_append, List.append_assoc, Nat.add_comm (busList i).length, ← Nat.add_assoc]
      exact hhead.trans (hrun k)

theorem runCommands_append {is js : List Instr} {s t : State} (h : runCommands is s = .next t) :
    runCommands (is ++ js) s = runCommands js t := by
  induction is generalizing s with
  | nil => rw [List.nil_append, Host.Outcome.next.inj h]
  | cons i is ih =>
    rw [List.cons_append, runCommands]
    rw [runCommands] at h
    split at h
    · exact ih h
    · cases h
    · cases h

end Sys2Proof.Machine

/-! SHOW and its three transactions by hand (43_sequencer.md R113). -/

namespace Sys2Proof.Machine

/-- The commands of transactions A, B and C for a number (30_encoding.md R79). -/
def showByHand (n : BitVec 16) : List Instr :=
  pseudoTxa ++ pseudoTxb ((digits n).map segPattern) ++ pseudoTxc Config.brightness

/-- All but the last two: what precedes the last byte and the last STOP. -/
def showButLastByte (n : BitVec 16) : List Instr :=
  pseudoTxa ++ pseudoTxb ((digits n).map segPattern) ++ [.start]

theorem showByHand_split (n : BitVec 16) :
    showByHand n = showButLastByte n ++ [.wrb (dispControlByte Config.brightness), .stop] := rfl

theorem showByHand_isBusCommand (n : BitVec 16) : ∀ i ∈ showByHand n, IsBusCommand i := by
  simp [showByHand, pseudoTxa, pseudoTxb, pseudoTxc, IsBusCommand]

theorem showButLastByte_isBusCommand (n : BitVec 16) : ∀ i ∈ showButLastByte n, IsBusCommand i := by
  simp [showButLastByte, pseudoTxa, pseudoTxb, IsBusCommand]

theorem showList_eq_flatMap (n : BitVec 16) :
    showList ((digits n).map segPattern) Config.brightness = (showByHand n).flatMap busList ++ [.endFrame] := by
  rw [showList_eq]
  simp only [showByHand, pseudoTxa, pseudoTxb, pseudoTxc, List.flatMap_append, List.flatMap_cons, List.flatMap_nil,
    busList, List.append_nil, List.append_assoc]
  rfl

theorem sum_busSizes_showByHand (n : BitVec 16) : ((showByHand n).map busSizes).sum = (368, 141, 7) := by
  simp [showByHand, pseudoTxa, pseudoTxb, pseudoTxc, busSizes]

theorem run_endFrame (k : Nat) {s : State} {rest : List MicroOp} (h : s.NoReset) (hq : s.seq = .endFrame :: rest) :
    run (k + 1) s = run k (s.setSeq rest).endFrame :=
  run_of_seq k h hq rfl

section Show

variable {s : State} (ha : s.Accepting) (hr : s.NoReset)
include ha hr

/-- SHOW ends where its transactions by hand end, but for N, D and P. -/
theorem runCommand_showNum (n : BitVec 16) :
    ∃ u evs, runCommands (showByHand n) s = .next u ∧ BusRan s u evs ∧ eventSizes evs = (368, 141, 7) ∧
      runCommand (.showNum n) s = .next (u.withNumber (some n) (Quad.fill none) (Quad.fill none)) := by
  obtain ⟨u, evs, hu, hsu, hsizes, hrun⟩ := runCommands_bus (r := [.endFrame]) (by decide) (some n)
    (((digits n).map digitBits).map some) (((digits n).map segPattern).map some) (showByHand n) s
    (showByHand_isBusCommand n) ha hr
  refine ⟨u, evs, hu, hsu, hsizes.trans (sum_busSizes_showByHand n), ?_⟩
  obtain ⟨useq, -⟩ := hsu.accepting
  have hidle : u.setSeq [] = u := by rw [← useq]; rfl
  have hissue : s.issueShow n = (s.withNumber (some n) (((digits n).map digitBits).map some)
      (((digits n).map segPattern).map some)).setSeq ((showByHand n).flatMap busList ++ [.endFrame]) :=
    congrArg (State.setSeq _) (showList_eq_flatMap n)
  rw [runCommand, exec_showNum_of_accepting ha, hissue]
  dsimp only
  rw [State.setSeq_seq, List.length_append, List.length_singleton, Nat.add_comm, hrun 1]
  refine Eq.trans (run_endFrame 0 hsu.noReset rfl) ?_
  show Host.Outcome.next ((u.setSeq []).withNumber (some n) (Quad.fill none) (Quad.fill none)) = _
  rw [hidle]

/-- The last byte and the last STOP of bus commands leave the serializer empty and both lines released. -/
theorem runCommands_ends_with_stop {is : List Instr} {b : Byte} {t : State} (his : ∀ i ∈ is, IsBusCommand i)
    (h : runCommands (is ++ [.wrb b, .stop]) s = .next t) :
    t.dir = { clk := .released, dio := .released } ∧ t.sr = some 0#8 ∧ t.bc = some 8#4 := by
  obtain ⟨u, _, hu, hsu, -⟩ := runCommands_bus (r := []) (by decide) none (Quad.fill none) (Quad.fill none) is s his
    ha hr
  obtain ⟨v, hv, vdir, -, ⟨vsr, vbc, -⟩, -⟩ :=
    runCommand_stop_ends (afterWrb_accepting (s := u.closeWindow) hsu.accepting b) hsu.noReset
  rw [runCommands_append hu, runCommands_cons_of_next _ (runCommand_wrb hsu.accepting hsu.noReset b),
    runCommands_cons_of_next _ hv] at h
  obtain rfl := Host.Outcome.next.inj h
  exact ⟨vdir, vsr, vbc⟩

end Show

end Sys2Proof.Machine

section

open Sys2Proof Sys2Proof.Machine

/-- Settles O27: the transactions by hand are those of the digits, and only N tells the numbers apart. -/
theorem showWrapsNumbersAbove9999 : Obligations.ShowWrapsNumbersAbove9999 := by
  intro s n ha
  have hdigits := digits_of_mod n
  refine ⟨hdigits.symm, ⟨_, exec_showNum_of_accepting ha n, ?_⟩, fun hr => ?_⟩
  · rw [exec_showNum_of_accepting ha, issueShow_of_digits_eq hdigits]
  · have hhand : showByHand (BitVec.ofNat 16 (n.toNat % 10000)) = showByHand n := by rw [showByHand, hdigits]; rfl
    obtain ⟨u, -, hu, -, -, hshow⟩ := runCommand_showNum ha hr n
    obtain ⟨v, -, hv, -, -, hshow'⟩ := runCommand_showNum ha hr (BitVec.ofNat 16 (n.toNat % 10000))
    obtain rfl := Host.Outcome.next.inj (hu.symm.trans (hhand ▸ hv))
    exact ⟨_, _, hshow, hshow', rfl, rfl⟩

/-- Settles O56: SEQ's micro-ops do what the commands do one by one. -/
theorem showEqualsItsTransactionsByHand : Obligations.ShowEqualsItsTransactionsByHand := by
  intro s n ha hr
  obtain ⟨u, _, hu, hsu, -, hshow⟩ := runCommand_showNum ha hr n
  refine ⟨_, hshow, hu.trans ?_⟩
  rw [← hsu.n, ← hsu.d, ← hsu.p]
  rfl

/-- Settles O51: the events and WAITs are those of the commands by hand, three STARTs, seven WRBs and three
STOPs. -/
theorem showRunsToItsEnd : Obligations.ShowRunsToItsEnd := by
  intro s n ha hr
  obtain ⟨u, evs, hu, hsu, hsizes, hshow⟩ := runCommand_showNum ha hr n
  obtain ⟨hlength, hwaits, hsamples⟩ : evs.length = 368 ∧ evs.count .wait = 141 ∧ (samples evs).length = 7 := by
    simpa [eventSizes] using hsizes
  rw [showByHand_split] at hu
  obtain ⟨udir, usr, ubc⟩ := runCommands_ends_with_stop ha hr (showButLastByte_isBusCommand n) hu
  exact ⟨_, evs, hshow, hsu.trace, hlength, hwaits, by rw [minDurationUs, hwaits], hsamples, udir, usr, ubc, rfl, rfl,
    rfl, hsu.segout, hsu.accepting⟩

end

/-! The transactions of a SEQ as the decoder and the observer receive them (43_sequencer.md R110, R113). -/

namespace Sys2Proof.Machine

/-- `t` is `s` after byte writes inside a frame: the bytes of `f` have joined the open frame, and SEQ is at
`rest`. -/
structure BytesSent (s t : State) (f : Frame) (rest : List MicroOp) : Prop where
  seq : t.seq = rest
  fault : t.fault = s.fault
  port : t.port = s.port
  window : t.slave.window = false
  inFrame : t.decoder.inFrame = true
  bits : t.decoder.bits = []
  cur : t.decoder.cur = s.decoder.cur ++ f
  frames : t.decoder.frames = s.decoder.frames
  display : t.display = s.display

/-- `t` is `s` after whole transactions: the decoder has completed the frames `fs` and the observer has received
them, the bus is idle, and SEQ is at `rest`. -/
structure FramesSent (s t : State) (fs : List Frame) (rest : List MicroOp) : Prop where
  seq : t.seq = rest
  fault : t.fault = s.fault
  port : t.port = s.port
  dir : t.dir = { clk := .released, dio := .released }
  quiet : t.SlaveQuiet
  levels : t.LevelsSeen
  outside : t.decoder.inFrame = false
  frames : t.decoder.frames = s.decoder.frames ++ fs
  display : t.display = s.display.receive fs

theorem State.NoReset.of_port_eq {s t : State} (h : s.NoReset) (hp : t.port = s.port) : t.NoReset := by
  rw [State.NoReset, hp]
  exact h

/-- On an idle bus START is a clean start. -/
theorem readyForStart_of_idleBus {s : State} (hquiet : s.SlaveQuiet) (hlevels : s.LevelsSeen)
    (hout : s.decoder.inFrame = false) (hdir : s.dir = { clk := .released, dio := .released }) :
    s.ReadyForStart := by
  obtain ⟨hwindow, hpull⟩ := hquiet
  obtain ⟨hclk, hdio⟩ := hlevels
  refine ⟨hwindow, hout, .inr ⟨hdir, hclk.trans ?_, hdio.trans ?_, hpull⟩⟩
  · rw [State.levelClk, hdir]; rfl
  · rw [State.levelDio, hdir, hpull]; rfl

theorem FramesSent.readyForStart {s t : State} {fs : List Frame} {rest : List MicroOp} (h : FramesSent s t fs rest) :
    t.ReadyForStart :=
  readyForStart_of_idleBus h.quiet h.levels h.outside h.dir

theorem receive_receive (v : Display) (fs gs : List Frame) : (v.receive fs).receive gs = v.receive (fs ++ gs) := by
  simp [Display.receive]

theorem FramesSent.trans {s t u : State} {fs gs : List Frame} {q rest : List MicroOp} (h : FramesSent s t fs q)
    (h' : FramesSent t u gs rest) : FramesSent s u (fs ++ gs) rest :=
  { h' with
    fault := h'.fault.trans h.fault
    port := h'.port.trans h.port
    frames := by rw [h'.frames, h.frames, List.append_assoc]
    display := by rw [h'.display, h.display, receive_receive] }

variable {rest : List MicroOp}

/-- Byte writes inside a frame, by induction on the bytes. -/
theorem run_wrbLists (k : Nat) (bs : List Byte) : ∀ s : State, s.NoReset → s.seq = wrbLists bs ++ rest →
    s.slave.window = false → s.decoder.inFrame = true → s.decoder.bits = [] →
    ∃ t f, run (k + 56 * bs.length) s = run k t ∧ frameBytes f = bs ∧ BytesSent s t f rest := by
  induction bs with
  | nil => exact fun s _ hq hw hin hbits => ⟨s, [], rfl, rfl, hq, rfl, rfl, hw, hin, hbits,
      (List.append_nil _).symm, rfl, rfl⟩
  | cons b bs ih =>
    intro s hr hq hw hin hbits
    rw [wrbLists, List.append_assoc] at hq
    have hdecoder := afterWrb_decoder b (wrbLists bs ++ rest) hin hbits
    obtain ⟨t, f, ht, hf, hsent⟩ := ih (s.afterWrb b (wrbLists bs ++ rest)) hr rfl rfl
      (by rw [hdecoder]; exact hin) (by rw [hdecoder]; exact hbits)
    refine ⟨t, (b, s.ackValue) :: f, (run_wrb (k + 56 * bs.length) hr hq hw).trans ht, congrArg (b :: ·) hf,
      { hsent with cur := ?_, frames := ?_ }⟩
    · rw [hsent.cur, hdecoder, List.append_assoc, List.singleton_append]
    · rw [hsent.frames, hdecoder]

theorem wrbLists_not_ackTail (bs : List Byte) (q : List MicroOp) :
    (wrbLists bs ++ (stopList ++ q)).take 6 ≠ ackTail := by
  cases bs <;> simp [wrbLists, wrbList, stopList, ackTail]

/-- A transaction is one frame of its bytes. -/
theorem run_transaction (k : Nat) (bs : List Byte) {s : State} (hr : s.NoReset) (hs : s.ReadyForStart)
    (hq : s.seq = transaction bs ++ rest) :
    ∃ t f, run (k + (transaction bs).length) s = run k t ∧ frameBytes f = bs ∧ FramesSent s t [f] rest := by
  obtain ⟨hlength, -⟩ := size_transaction bs
  rw [transaction, List.append_assoc, List.append_assoc] at hq
  obtain ⟨u, f, hu, hf, hsent⟩ := run_wrbLists (k + 7) bs (s.afterStart (wrbLists bs ++ (stopList ++ rest)))
    hr rfl hs.1 rfl rfl
  have hstop := run_stop k (hr.of_port_eq hsent.port) hsent.seq hsent.window hsent.inFrame hsent.bits
  have hstart := run_start (k + 7 + 56 * bs.length) hr hq hs (wrbLists_not_ackTail bs rest)
  have hcur : u.decoder.cur = f := hsent.cur
  refine ⟨u.afterStop rest, f, ?_, hf, rfl, hsent.fault, hsent.port, rfl, ⟨hsent.window, rfl⟩, ⟨rfl, rfl⟩, rfl,
    ?_, ?_⟩
  · rw [hlength, show k + (13 + 56 * bs.length) = k + 7 + 56 * bs.length + 6 by ring]
    exact hstart.trans (hu.trans hstop)
  · show u.decoder.frames ++ [u.decoder.cur] = _
    rw [hsent.frames, hcur]
    rfl
  · show u.display.receive [u.decoder.cur] = _
    rw [hsent.display, hcur]
    rfl

/-- Transactions one after another are a frame each. -/
theorem run_transactions (k : Nat) (ts : List (List Byte)) : ∀ (bs : List Byte) (s : State), s.NoReset →
    s.ReadyForStart → s.seq = (bs :: ts).flatMap transaction ++ rest →
    ∃ t fs, run (k + ((bs :: ts).flatMap transaction).length) s = run k t ∧ fs.map frameBytes = bs :: ts ∧
      FramesSent s t fs rest := by
  induction ts with
  | nil =>
    intro bs s hr hs hq
    rw [List.flatMap_singleton] at hq ⊢
    obtain ⟨t, f, ht, hf, hsent⟩ := run_transaction k bs hr hs hq
    exact ⟨t, [f], ht, congrArg (· :: []) hf, hsent⟩
  | cons cs ts ih =>
    intro bs s hr hs hq
    rw [List.flatMap_cons, List.append_assoc] at hq
    obtain ⟨u, f, hu, hf, hsu⟩ := run_transaction (k + ((cs :: ts).flatMap transaction).length) bs hr hs hq
    obtain ⟨t, fs, ht, hfs, hut⟩ := ih cs u (hr.of_port_eq hsu.port) hsu.readyForStart hsu.seq
    refine ⟨t, f :: fs, ?_, by rw [List.map_cons, hf, hfs], hsu.trans hut⟩
    rw [List.flatMap_cons, List.length_append, Nat.add_comm (transaction bs).length, ← Nat.add_assoc]
    exact hu.trans ht

end Sys2Proof.Machine

/-! The observer's reading of SHOW's three frames (20_memory.md R61). -/

namespace Sys2Proof.Machine

theorem readFrame_dataCommand (v : Display) : v.readFrame [Config.cmdData] = v.dataCommand := by
  rw [Display.readFrame, if_pos ⟨rfl, rfl⟩]

theorem readFrame_address {v : Display} (xs : List Byte) (hm : v.mode = some .autoIncWrite) :
    v.readFrame (Config.cmdAddr :: xs) = xs.foldl Display.patternByte { v with addr := some 0 } := by
  rw [← addressCommand_of_mode hm, Display.readFrame, if_neg (by simp [Config.cmdAddr, Config.cmdData]),
    if_pos ⟨rfl, hm⟩]

/-- The display-control byte is none of the other two commands, and carries its brightness in its low bits. -/
theorem dispControlByte_fields : ∀ b : BitVec 3, dispControlByte b ≠ Config.cmdData ∧
    dispControlByte b ≠ Config.cmdAddr ∧ (dispControlByte b).extractLsb' 3 5 = 0b10001#5 ∧
    (dispControlByte b).extractLsb' 0 3 = b := by
  decide

theorem readFrame_control (v : Display) (b : BitVec 3) : v.readFrame [dispControlByte b] = v.controlCommand b := by
  obtain ⟨hdata, haddr, hop, hb⟩ := dispControlByte_fields b
  rw [Display.readFrame, if_neg fun h => hdata h.1, if_neg fun h => haddr h.1, if_pos ⟨hop, rfl⟩, hb]

/-- Pattern bytes that fit are stored from the address on, each at its own, and nothing below changes. -/
theorem patternBytes_stored (xs : List Byte) : ∀ (v : Display) (a : Nat), v.addr = some a → a + xs.length ≤ 4 →
    ∃ m, xs.foldl Display.patternByte v = { v with ram := m, addr := some (a + xs.length) } ∧
      (∀ b < a, m.read b = v.ram.read b) ∧ ∀ i, (h : i < xs.length) → m.read (a + i) = some xs[i] := by
  induction xs with
  | nil => exact fun v a ha _ => ⟨v.ram, by rw [List.foldl_nil, List.length_nil, Nat.add_zero, ← ha],
      fun _ _ => rfl, fun _ h => nomatch h⟩
  | cons x xs ih =>
    intro v a ha hfit
    rw [List.length_cons] at hfit
    have hw := Memory.write_of_lt v.ram x (show a < 4 by omega)
    have hread := Memory.read_write hw
    obtain ⟨m, hm, hbelow, hbytes⟩ := ih { v with ram := _, addr := some (a + 1) } (a + 1) rfl (by omega)
    refine ⟨m, ?_, fun b hb => ?_, fun i hi => ?_⟩
    · rw [List.foldl_cons, patternByte_stored ha hw, hm, List.length_cons, Nat.add_right_comm, Nat.add_assoc]
    · rw [hbelow b (by omega)]
      exact (hread b).trans (if_neg (by omega))
    · cases i with
      | zero => exact (hbelow a (by omega)).trans ((hread a).trans (if_pos rfl))
      | succ i => rw [← Nat.add_assoc, Nat.add_right_comm]; exact hbytes i _

/-- The observer with no data byte left and the frames `fs` to read. -/
def Display.unread (v : Display) (fs : List (List Byte)) : Display := { v with data := [], inbox := fs }

theorem readFrame_unread_frames (v : Display) (f : List Byte) (fs : List (List Byte)) :
    (v.unread fs).readFrame f = (v.readFrame f).unread fs :=
  readFrame_unread v f [] fs

section Observer

variable {s : State} (hr : s.NoReset) (hq : s.seq = []) (k : Nat) (v : Display) {f : List Byte}
  (fs : List (List Byte))
include hr hq

/-- The observer reads the next frame whole: a step for its first byte and one for each data byte behind it. -/
theorem run_nextFrame :
    run (k + (openedDisplay (v.unread fs) f).data.length + 1) (s.setDisplay (v.unread (f :: fs))) =
      run k (s.setDisplay ((v.readFrame f).unread fs)) := by
  obtain ⟨hinbox, hread, -⟩ := openedDisplay_settles (v.unread fs) f rfl
  have hbytes := run_dataBytes _ k (s.setDisplay (openedDisplay (v.unread fs) f)) hr hq rfl
  rw [State.setDisplay_display, hinbox, hread, readFrame_unread_frames] at hbytes
  exact (run_openFrame _ (s := s.setDisplay (v.unread (f :: fs))) hr hq rfl rfl).trans hbytes

/-- A frame that begins with no address command takes one step. -/
theorem run_commandFrame (hf : f.head? ≠ some Config.cmdAddr) :
    run (k + 1) (s.setDisplay (v.unread (f :: fs))) = run k (s.setDisplay ((v.readFrame f).unread fs)) := by
  obtain ⟨-, -, -, -, hdata⟩ := openedDisplay_settles (v.unread fs) f rfl
  have hrun := run_nextFrame hr hq k v (f := f) fs
  rw [hdata hf] at hrun
  exact hrun

/-- In mode AutoIncWrite a frame that begins with the address command takes a step for each of its bytes. -/
theorem run_addressFrame (hf : f.head? = some Config.cmdAddr) (hm : v.mode = some .autoIncWrite) :
    run (k + (f.length - 1) + 1) (s.setDisplay (v.unread (f :: fs))) =
      run k (s.setDisplay ((v.readFrame f).unread fs)) := by
  obtain ⟨-, -, -, hdata, -⟩ := openedDisplay_settles (v.unread fs) f rfl
  rw [← hdata hf hm]
  exact run_nextFrame hr hq k v fs

end Observer

end Sys2Proof.Machine

/-! SHOW from the host's port to the display. -/

namespace Sys2Proof.Machine

/-- The bytes of SHOW's three transactions (43_sequencer.md R107 to R109). -/
def showBytes (n : BitVec 16) : List (List Byte) :=
  [[Config.cmdData], Config.cmdAddr :: ((digits n).map segPattern).toList, [dispControlByte Config.brightness]]

theorem showList_eq_transactions (n : BitVec 16) : showList ((digits n).map segPattern) Config.brightness =
    (showBytes n).flatMap transaction ++ [.endFrame] := by
  simp [showList, txaList, txbList, txcList, showBytes]

/-- The observer after SHOW's three frames: AutoIncWrite, past the last digit, on at the configured brightness,
and with its memory at `m`. -/
def Display.showing (v : Display) (m : Memory) : Display :=
  { v with mode := some .autoIncWrite, addr := some 4, ram := m, dispOn := some true,
           bright := some Config.brightness }

/-- The memory holds the patterns of the number's digits, thousands first. -/
structure HoldsNumber (m : Memory) (n : BitVec 16) : Prop where
  read0 : m.read 0 = some (segPattern (digits n).q0)
  read1 : m.read 1 = some (segPattern (digits n).q1)
  read2 : m.read 2 = some (segPattern (digits n).q2)
  read3 : m.read 3 = some (segPattern (digits n).q3)

/-- What the observer makes of SHOW's three frames. -/
theorem readFrames_showBytes (v : Display) (n : BitVec 16) :
    ∃ m, HoldsNumber m n ∧ (showBytes n).foldl Display.readFrame v = v.showing m := by
  obtain ⟨m, hm, -, hbytes⟩ := patternBytes_stored ((digits n).map segPattern).toList
    { v.dataCommand with addr := some 0 } 0 rfl (Nat.le_refl 4)
  have hread (i : Nat) (hi : i < 4) := hbytes i hi
  simp only [Nat.zero_add] at hread
  refine ⟨m, ⟨hread 0 (by decide), hread 1 (by decide), hread 2 (by decide), hread 3 (by decide)⟩, ?_⟩
  simp only [showBytes, List.foldl_cons, List.foldl_nil]
  rw [readFrame_dataCommand, readFrame_address _ rfl, hm, readFrame_control]
  rfl

/-- An idle block whose observer has received SHOW's three frames reads them in seven steps. -/
theorem run_readShow {s : State} (hr : s.NoReset) (hq : s.seq = []) (v : Display) (n : BitVec 16) :
    ∃ m, HoldsNumber m n ∧
      run 7 (s.setDisplay (v.unread (showBytes n))) = .next (s.setDisplay ((v.showing m).unread [])) := by
  obtain ⟨m, hm, hread⟩ := readFrames_showBytes v n
  have hcontrol : [dispControlByte Config.brightness].head? ≠ some Config.cmdAddr := fun h =>
    (dispControlByte_fields Config.brightness).2.1 (Option.some.inj h)
  refine ⟨m, hm, ?_⟩
  calc run 7 (s.setDisplay (v.unread (showBytes n))) = run 6 _ := run_commandFrame hr hq 6 v _ (by decide)
    _ = run 1 _ := run_addressFrame hr hq 1 _ _ rfl rfl
    _ = run 0 _ := run_commandFrame hr hq 0 _ [] hcontrol
    _ = _ := by rw [← hread]; rfl

theorem receive_eq_unread {v : Display} (hi : v.inbox = []) (hd : v.data = []) (fs : List Frame) :
    v.receive fs = v.unread (fs.map frameBytes) := by
  rw [Display.receive, Display.unread, hi, ← hd]
  rfl

theorem unread_nil {v : Display} (hi : v.inbox = []) (hd : v.data = []) : v.unread [] = v := by
  rw [Display.unread, ← hi]
  nth_rw 1 [← hd]

section ShowRun

variable {s : State} {n : BitVec 16} (hr : s.NoReset) (hready : s.ReadyForStart) (hi : s.display.inbox = [])
  (hd : s.display.data = [])
include hr hready hi hd

/-- SHOW's micro-ops send three frames, mENDFRAME is the last of them, and the observer then reads seven bytes. -/
theorem run_showList (hq : s.seq = showList ((digits n).map segPattern) Config.brightness) :
    ∃ t fs m, run (432 + 7) s = .next ((t.setSeq []).endFrame.setDisplay (s.display.showing m)) ∧
      fs.map frameBytes = showBytes n ∧ HoldsNumber m n ∧ FramesSent s t fs [.endFrame] := by
  obtain ⟨hlength, -⟩ := size_showList ((digits n).map segPattern) Config.brightness
  rw [showList_eq_transactions, List.length_append, List.length_singleton] at hlength
  rw [showList_eq_transactions] at hq
  obtain ⟨t, fs, ht, hfs, hsent⟩ := run_transactions 8 _ _ s hr hready hq
  have hnoReset := hr.of_port_eq hsent.port
  obtain ⟨m, hm, hread⟩ := run_readShow (s := (t.setSeq []).endFrame) hnoReset rfl s.display n
  have hdisplay : s.display.unread (showBytes n) = t.display := by
    rw [hsent.display, receive_eq_unread hi hd, hfs]; rfl
  rw [hdisplay, unread_nil (v := s.display.showing m) hi hd] at hread
  refine ⟨t, fs, m, ?_, hfs, hm, hsent⟩
  have hsteps : 8 + ((showBytes n).flatMap transaction).length = 432 + 7 := by omega
  calc run (432 + 7) s = run 8 t := hsteps ▸ ht
    _ = run 7 (t.setSeq []).endFrame := run_endFrame 7 hnoReset hsent.seq
    _ = _ := hread

end ShowRun

/-- From a bus where START is a clean start, SHOW's word at the port programs the display: three frames, no
refusal, and an idle bus. -/
theorem run_showWord {s : State} {n : BitVec 16} {rest : List CommandWord} (hturn : s.HostTurn) (hr : s.NoReset)
    (hready : s.ReadyForStart) (hw : s.port.words = commandWords [.showNum n] ++ rest) :
    ∃ t fs m, run (1 + 432 + 7) s = .next t ∧ t.Idle ∧ t.port.words = rest ∧
      t.decoder.frames = s.decoder.frames ++ fs ∧ fs.map frameBytes = showBytes n ∧ HoldsNumber m n ∧
      t.display = s.display.showing m := by
  have ⟨haccepting, hi, hd, _⟩ := hturn
  have hexec := exec_showNum_of_accepting (s := { s with port := { words := rest, resetLine := [] } }) haccepting n
  obtain ⟨t, fs, m, ht, hfs, hm, hsent⟩ := run_showList (n := n)
    (s := State.issueShow { s with port := { words := rest, resetLine := [] } } n) rfl hready hi hd rfl
  refine ⟨_, fs, m, (run_hostWord (432 + 7) hr hturn hw (decode_encode (.showNum n)) hexec).trans ht, ?_,
    congrArg HostPort.words hsent.port, hsent.frames, hfs, hm, rfl⟩
  exact ⟨⟨⟨rfl, hsent.fault.trans haccepting.2⟩, hi, hd, congrArg (fun p => p.resetLine.headD false) hsent.port⟩,
    congrArg HostPort.resetLine hsent.port, hsent.quiet, hsent.levels, hsent.outside, hsent.dir⟩

end Sys2Proof.Machine

section

open Sys2Proof Sys2Proof.Machine

/-- Settles O54: the transactions of SEQ are a frame each, and the observer reads the frames whole. -/
theorem showEmitsThreeFramesAndProgramsTheDisplay : Obligations.ShowEmitsThreeFramesAndProgramsTheDisplay := by
  intro s n rest hidle hw
  obtain ⟨hturn, hr, hquiet, hlevels, hout, hdir⟩ := hidle
  obtain ⟨t, fs, m, ht, tidle, twords, tframes, hfs, hm, tdisplay⟩ :=
    run_showWord hturn hr (readyForStart_of_idleBus hquiet hlevels hout hdir) hw
  obtain ⟨f0, f1, f2, rfl⟩ := List.length_eq_three.mp ((List.length_map frameBytes).symm.trans (congrArg _ hfs))
  simp only [showBytes, List.map_cons, List.map_nil, List.cons.injEq, and_true] at hfs
  obtain ⟨h0, h1, h2⟩ := hfs
  refine ⟨t, f0, f1, f2, ht, tidle, twords, tframes, h0, h1, h2, ?_⟩
  rw [tdisplay]
  exact ⟨rfl, rfl, hm.read0, hm.read1, hm.read2, hm.read3, rfl, rfl, rfl⟩

end

/-! FAULT: only a word at the port raises it, and only reset clears it (60_exceptions.md R115, R119). -/

namespace Sys2Proof.Machine

/-- `t` is `s` after `raise Fault(kind)` of some kind in an accepting block (60_exceptions.md R115). -/
def RaisesFault (s t : State) : Prop :=
  s.Accepting ∧ ∃ kind, t = { s with fault := kind, seq := [] }

theorem raisesFault_raiseFault {s : State} (ha : s.Accepting) (kind : FaultKind) : RaisesFault s (s.raiseFault kind) :=
  ⟨ha, kind, raiseFault_of_accepting ha kind⟩

/-- An instruction keeps FAULT, or raises a fault and does nothing else. -/
theorem exec_keepsFault_or_raises {i : Instr} {s t : State} (h : exec i s = .next t) :
    t.fault = s.fault ∨ RaisesFault s t := by
  obtain ⟨l, -, -, rfl⟩ | ⟨l, -, -, rfl⟩ | ⟨-, -, rfl⟩ | ⟨-, -, rfl⟩ | ⟨-, -, rfl⟩ | ⟨b, -, -, rfl⟩ |
    ⟨d, rfl, -, -⟩ | ⟨n, -, -, rfl⟩ | ⟨low, -, ha, rfl⟩ | ⟨-, rfl⟩ | ⟨-, rfl⟩ | ⟨b, -, rfl⟩ | ⟨p, -, rfl⟩ :=
    exec_cases h
  case inr.inr.inr.inr.inr.inr.inl =>
    obtain ⟨ha, ⟨i, -, rfl⟩ | ⟨-, rfl⟩⟩ := exec_enc_cases h
    · exact .inl rfl
    · exact .inr ⟨ha, _, rfl⟩
  case inr.inr.inr.inr.inr.inr.inr.inr.inl => exact .inr (raisesFault_raiseFault ha _)
  all_goals exact .inl rfl

/-- A word at the port does the same, whether it is an instruction or is rejected. -/
theorem acceptWord_keepsFault_or_raises {w : CommandWord} {s t : State} (h : acceptWord w s = .next t) :
    t.fault = s.fault ∨ RaisesFault s t := by
  obtain ⟨i, -, -, hx⟩ | ⟨r, -, ha, rfl⟩ := acceptWord_cases h
  · exact exec_keepsFault_or_raises hx
  · exact .inr (raisesFault_raiseFault ha _)

/-- A step without reset keeps FAULT, or it takes a word from the port and that word raises a fault. -/
theorem step_keepsFault_or_raises {s t : State} (hr : s.resetAsserted = false) (h : step s = .next t) :
    t.fault = s.fault ∨ ∃ w rest, s.port.words = w :: rest ∧
      RaisesFault (s.tick.setPort { s.tick.port with words := rest }) t := by
  obtain ⟨hr', -⟩ | ⟨-, m, rest, -, hp⟩ | ⟨-, -, x, xs, -, rfl⟩ | ⟨-, -, -, f, fs, -, rfl⟩ |
    ⟨-, -, -, -, -, -, rfl⟩ | ⟨-, w, rest, hw, hx⟩ := step_cases h
  case inl => simp [hr] at hr'
  case inr.inl =>
    obtain ⟨-, hfault, -⟩ := perform_keeps hp
    exact .inl hfault
  case inr.inr.inr.inr.inr =>
    exact (acceptWord_keepsFault_or_raises hx).imp_right fun hraise => ⟨w, rest, hw, hraise⟩
  all_goals exact .inl rfl

/-- A faulted block is not at the host's turn, so a step without reset issues no command to it. -/
theorem step_keeps_idle_of_faulted {s t : State} (hf : s.fault ≠ .none) (hr : s.resetAsserted = false)
    (h : step s = .next t) (hq : s.seq = []) : t.seq = [] := by
  obtain ⟨hr', -⟩ | ⟨-, m, rest, hseq, -⟩ | ⟨-, -, x, xs, -, rfl⟩ | ⟨-, -, -, f, fs, -, rfl⟩ |
    ⟨-, -, -, -, -, -, rfl⟩ | ⟨hturn, -⟩ := step_cases h
  case inl => simp [hr] at hr'
  case inr.inl => simp [hq] at hseq
  case inr.inr.inr.inr.inr => exact absurd hturn.accepting.2 hf
  all_goals exact hq

/-- A faulted idle block with nothing to observe and no reset to come has no step. -/
theorem step_of_faulted {s : State} (hf : s.fault ≠ .none) (hq : s.seq = []) (hw : s.display.hasWork = false)
    (hr : s.NoReset) : step s = .refused .faulted := by
  rw [step_of_idle (resetAsserted_of_noReset hr) hq hw, hostStep, if_pos hf, waiting,
    if_pos (show s.port.resetLine = [] from hr)]

end Sys2Proof.Machine

section

open Sys2Proof Sys2Proof.Machine

/-- Settles O14, by `step_keepsFault_or_raises`: the step that changes FAULT takes a word, and the fault is its
only effect. -/
theorem faultIsRaisedOnlyByTheAcceptingStep : Obligations.FaultIsRaisedOnlyByTheAcceptingStep := by
  intro s t hr h hne
  obtain hkept | ⟨w, rest, hw, ⟨hq, hf⟩, kind, rfl⟩ := step_keepsFault_or_raises hr h
  · exact absurd hkept hne
  · exact ⟨hq, hf, w, rest, hw, rfl⟩

/-- Settles O15: a fault is raised in an accepting block only, which a faulted one is not. -/
theorem faultIsStickyUntilReset : Obligations.FaultIsStickyUntilReset := by
  refine ⟨fun s t hf hr h => ⟨?_, step_keeps_idle_of_faulted hf hr h⟩, fun i s t hf hi h => ?_,
    fun s hf hq hi hd hr => step_of_faulted hf hq (by simp [Display.hasWork, hi, hd]) hr,
    fun s hf ⟨_, _, hnone⟩ => hf hnone, fun s hr => ⟨_, step_of_reset hr, rfl⟩⟩
  · obtain hkept | ⟨w, rest, -, ⟨-, hnone⟩, -⟩ := step_keepsFault_or_raises hr h
    · exact hkept
    · exact absurd hnone hf
  · obtain ⟨-, -, haccepted⟩ := commandsAreRefusedWhileBusyOrFaulted i s hi
    exact hf (haccepted t h).2

end

/-! Reset: the values it leaves, and the first SHOW behind it (70_reset_and_hazards.md R130, R134, R138). -/

namespace Sys2Proof.Machine

/-- The stated values stand in `State.reset`, whatever the slave, the port and the count of reads of `⊥` are. -/
theorem hasResetValues_of_environment (v : Slave) (p : HostPort) (k : Nat) :
    ({ State.reset with slave := v, port := p, unwrittenReads := k } : State).HasResetValues where
  dir := rfl
  sr := rfl
  bc := rfl
  ack := rfl
  n := rfl
  d := rfl
  p := rfl
  segout := rfl
  seq := rfl
  busy := rfl
  fault := rfl
  trace := rfl
  inFrame := rfl
  bits := rfl
  cur := rfl
  frames := rfl
  clk := rfl
  dio := (Bool.and_true _).symm

theorem hasResetValues_reset : State.reset.HasResetValues := hasResetValues_of_environment _ _ _

theorem hasResetValues_applyReset (s : State) : s.applyReset.HasResetValues := hasResetValues_of_environment _ _ _

/-- After reset START is a clean start: with the lines low because CLK is low, and with the lines released because
the slave does not pull, so both are seen high. -/
theorem readyForStart_of_justReset {s : State} {x : Dir} (h : s.JustReset x) : s.ReadyForStart := by
  obtain ⟨-, -, hwindow, hpull, hdir, hdecoder, -⟩ := h
  rw [hdir] at hdecoder
  refine ⟨hwindow, by rw [hdecoder]; rfl, ?_⟩
  cases x with
  | assertedLow => exact .inl (by rw [hdir])
  | released =>
    have hreleased : s.slave.pull = false := hpull.resolve_left (by decide)
    exact .inr ⟨hdir, by rw [hdecoder]; rfl, by rw [hdecoder]; rfl, hreleased⟩

end Sys2Proof.Machine

section

open Sys2Proof Sys2Proof.Machine

/-- Settles O55: START is a clean start after reset, and the decoder has no earlier frame. -/
theorem firstShowAfterResetProgramsTheDisplay : Obligations.FirstShowAfterResetProgramsTheDisplay := by
  intro s x n rest hreset hw
  have hready := readyForStart_of_justReset hreset
  obtain ⟨hturn, hr, -, -, -, hdecoder, hdisplay⟩ := hreset
  obtain ⟨t, fs, m, ht, tidle, twords, tframes, hfs, hm, tdisplay⟩ := run_showWord hturn hr hready hw
  refine ⟨t, ht, tidle, twords, ?_, ?_⟩
  · rw [tframes, hdecoder]
    exact hfs
  · rw [tdisplay, hdisplay]
    exact ⟨rfl, hm.read0, hm.read1, hm.read2, hm.read3, rfl, rfl, rfl⟩

/-- Settles O18: a step with the reset line asserted is `applyReset`, whatever the block was doing. -/
theorem resetLeavesTheStatedValues : Obligations.ResetLeavesTheStatedValues :=
  ⟨hasResetValues_reset, fun s hr => ⟨_, step_of_reset hr, hasResetValues_applyReset s⟩⟩

end

/-! Every release of CLK has its settle delay (70_reset_and_hazards.md R136). -/

namespace Sys2Proof.Machine

theorem clockReleasesSettle_cons {m : MicroOp} {q : List MicroOp} : clockReleasesSettle (m :: q) = true ↔
    (m = .rel .clk → q.head? = some .wait) ∧ clockReleasesSettle q = true := by
  simp [clockReleasesSettle, imp_iff_not_or]

/-- A list whose releases settle ends in none, so another may follow it. -/
theorem clockReleasesSettle_append {q r : List MicroOp} (hq : clockReleasesSettle q = true)
    (hr : clockReleasesSettle r = true) : clockReleasesSettle (q ++ r) = true := by
  induction q with
  | nil => exact hr
  | cons m q ih =>
    obtain ⟨hm, hq⟩ := clockReleasesSettle_cons.mp hq
    rw [List.cons_append]
    refine clockReleasesSettle_cons.mpr ⟨fun h => ?_, ih hq⟩
    rw [List.head?_append, hm h, Option.some_or]

theorem clockReleasesSettle_wrbList (b : Byte) : clockReleasesSettle (wrbList b) = true := by
  rw [wrbList]
  exact clockReleasesSettle_cons.mpr ⟨nofun, by decide⟩

theorem clockReleasesSettle_wrbLists (bs : List Byte) : clockReleasesSettle (wrbLists bs) = true := by
  induction bs with
  | nil => rfl
  | cons b bs ih => exact clockReleasesSettle_append (clockReleasesSettle_wrbList b) ih

theorem clockReleasesSettle_startList : clockReleasesSettle startList = true := by decide

theorem clockReleasesSettle_stopList : clockReleasesSettle stopList = true := by decide

theorem clockReleasesSettle_transaction (bs : List Byte) : clockReleasesSettle (transaction bs) = true :=
  clockReleasesSettle_append
    (clockReleasesSettle_append clockReleasesSettle_startList (clockReleasesSettle_wrbLists bs))
    clockReleasesSettle_stopList

theorem clockReleasesSettle_showList (p : Quad Byte) (b : BitVec 3) : clockReleasesSettle (showList p b) = true :=
  have hdata : clockReleasesSettle txaList = true := clockReleasesSettle_transaction _
  have haddress : clockReleasesSettle (txbList p) = true := clockReleasesSettle_transaction _
  have hcontrol : clockReleasesSettle (txcList b) = true := clockReleasesSettle_transaction _
  clockReleasesSettle_append (clockReleasesSettle_append (clockReleasesSettle_append hdata haddress) hcontrol)
    (by decide)

end Sys2Proof.Machine

section

open Sys2Proof Sys2Proof.Machine

/-- Settles O60: the lists of START, STOP and WRB settle, and SHOW is made of them and mENDFRAME. -/
theorem clockReleasesAreFollowedByWaits : Obligations.ClockReleasesAreFollowedByWaits :=
  ⟨clockReleasesSettle_startList, clockReleasesSettle_stopList, clockReleasesSettle_wrbList,
    clockReleasesSettle_showList⟩

end

/-! What reset leaves of the environment (entries 12 and 13). -/

namespace Sys2Proof.Machine

/-- The counter of the free values never goes back (entry 7). -/
theorem Slave.draws_le_draw (v : Slave) : v.draws ≤ v.draw.draws := by
  cases h : v.moves with
  | nil => simp [Slave.draw, h]
  | cons b rest => simp [Slave.draw, h]

@[simp] theorem State.applyReset_port (s : State) :
    s.applyReset.port = { words := s.port.words, resetLine := s.port.resetLine.tail } := rfl

@[simp] theorem State.applyReset_slave (s : State) :
    s.applyReset.slave = { s.slave.draw with window := false } := rfl

@[simp] theorem State.applyReset_display (s : State) : s.applyReset.display = Display.initial := rfl

@[simp] theorem State.applyReset_unwrittenReads (s : State) :
    s.applyReset.unwrittenReads = s.unwrittenReads := rfl

end Sys2Proof.Machine

section

open Sys2Proof Sys2Proof.Machine

/-- Settles O19: a step with the reset line asserted is `applyReset`, and the slave's one choice in it does not
set its counter back. -/
theorem resetKeepsTheHostsInputs : Obligations.ResetKeepsTheHostsInputs := by
  intro s hr
  have hdraws : s.slave.draws ≤ s.applyReset.slave.draws := by
    simpa using s.slave.draws_le_draw
  exact ⟨s.applyReset, step_of_reset hr, s.applyReset_port, by simp, s.applyReset_display, hdraws,
    s.applyReset_unwrittenReads⟩

end
